-- ==== Sys2Proof/Word.lean ====
section
/-! DEFINITION. The word types of HUFFCORE (spec/00_scope.md R15, R16). -/

namespace Sys2Proof

/-- `u32` of R15: a register, a command word, a count. -/
abbrev Word := BitVec 32

/-- `u8` of R15: a byte of the packed buffer. -/
abbrev Byte := BitVec 8

/-- A bit sequence of R16: a finite list of bits, first bit first. -/
abbrev Bits := List Bool

end Sys2Proof
end

