-- ==== Sys2Proof/Syntax.lean ====
section
/-! DEFINITION. The 22 commands of HUFFCORE (spec/30_encoding.md R88; spec/opcode_table.json), one constructor per row. -/

namespace Sys2Proof

/-- A command with its operands as R86 assembles them: a symbol and a length are zero-extended, so they are natural
numbers (R17), and the bit of BPUT is one bit. Register operands (DATA) are no part of the word (R87). -/
inductive Instr where
  /-- 0x00, format N: do nothing (R210). -/
  | nop
  /-- 0x01, format N: soft reset (R211). -/
  | srst
  /-- 0x10, format N: clear the frequency table, discard tree and code table (R101). -/
  | clrfreq
  /-- 0x11, format S: count one occurrence of a symbol (R102). -/
  | count (sym : Nat)
  /-- 0x12, format S: set the count of a symbol from DATA (R103). -/
  | setfreq (sym : Nat)
  /-- 0x13, format S: read the count of a symbol (R104). -/
  | getfreq (sym : Nat)
  /-- 0x20, format N: run the tree builder to completion (R128). -/
  | build
  /-- 0x21, format N: one step of the tree builder (R127). -/
  | bstep
  /-- 0x22, format N: read one tree-node slot, its index in DATA (R129). -/
  | tnode
  /-- 0x30, format S: read the code of a symbol (R147). -/
  | lookup (sym : Nat)
  /-- 0x31, format L: look a code of len bits of DATA up (R148). -/
  | dlookup (len : Nat)
  /-- 0x32, format S: append the code of a symbol to the bit buffer (R160). -/
  | enc (sym : Nat)
  /-- 0x33, format N: decode one symbol from the bit buffer (R170). -/
  | dec
  /-- 0x40, format N: empty the bit buffer (R180). -/
  | bclr
  /-- 0x41, format B: append one bit (R181). -/
  | bput (bit : Bool)
  /-- 0x42, format N: read the next bit (R182). -/
  | bget
  /-- 0x43, format N: rewind the read position (R183). -/
  | brwd
  /-- 0x50, format N: empty the packed buffer (R194). -/
  | pclr
  /-- 0x51, format N: append the byte of DATA to the packed buffer (R195). -/
  | pwr
  /-- 0x52, format N: read the next byte of the packed buffer (R197). -/
  | prd
  /-- 0x53, format N: pack the bit buffer into the packed buffer (R196). -/
  | pack
  /-- 0x54, format N: unpack the packed buffer into the bit buffer (R198). -/
  | unpack
  deriving DecidableEq, Repr

end Sys2Proof
end

