-- ==== Sys2Proof/WellFormed.lean ====
section
/-! DEFINITION. Which commands have an encoding: the operand fits its field (spec/30_encoding.md R83, R85). A symbol at or
above NSYM and a length of 0 or above 32 are well-formed (R92: they decode, and the command's own rule raises). -/

namespace Sys2Proof

/-- SYM is an unsigned 16-bit value (R83). -/
def symFits (sym : Nat) : Bool := decide (sym < 65536)

/-- LEN is an unsigned 8-bit value (R85). -/
def lenFits (len : Nat) : Bool := decide (len < 256)

/-- The operand of a command fits the field its format gives it. -/
def Instr.wellFormed : Instr → Bool
  | .count sym => symFits sym
  | .setfreq sym => symFits sym
  | .getfreq sym => symFits sym
  | .lookup sym => symFits sym
  | .enc sym => symFits sym
  | .dlookup len => lenFits len
  | .bput _ => true
  | .nop => true
  | .srst => true
  | .clrfreq => true
  | .build => true
  | .bstep => true
  | .tnode => true
  | .dec => true
  | .bclr => true
  | .bget => true
  | .brwd => true
  | .pclr => true
  | .pwr => true
  | .prd => true
  | .pack => true
  | .unpack => true

end Sys2Proof
end

