-- ==== Sys2Proof/Decode.lean ====
section
/-! DEFINITION. The decoder, total on every 32-bit word (spec/30_encoding.md R89), and the encoder, both written from the
opcode map of R88 and the formats of R82 to R85. -/

namespace Sys2Proof

/-- Why a word is ILLEGAL (R90). -/
inductive IllegalWord where
  /-- R90 (a): CMD[31:24] is no OPC of the opcode map. -/
  | unlistedOpc
  /-- R90 (b): the OPC is listed and a reserved bit is 1. -/
  | reservedBit
  deriving DecidableEq, Repr

/-- What `decode` of R89 returns: a command, or ILLEGAL with the reason. -/
inductive Decoded where
  | command (i : Instr)
  | illegal (why : IllegalWord)
  deriving DecidableEq, Repr

/-- OPC = CMD[31:24] (R81). -/
def opcField (w : Word) : BitVec 8 := w.extractLsb' 24 8

/-- sym = zext_32(CMD[15:0]) (R86). -/
def symField (w : Word) : Nat := (w.extractLsb' 0 16).toNat

/-- bit = CMD[0] (R86). -/
def bitField (w : Word) : Bool := w.getLsbD 0

/-- len = zext_32(CMD[7:0]) (R86). -/
def lenField (w : Word) : Nat := (w.extractLsb' 0 8).toNat

/-- A row of the opcode map of R88: the word with every operand field 0, a 1 for every bit that must equal it, and the
command the row's format reads from a word. -/
structure OpcodeRow where
  pattern : Word
  mask : Word
  read : Word → Instr

/-- 0x0_ control. -/
def controlRows : List OpcodeRow :=
  [ ⟨0x00000000, 0xFFFFFFFF, fun _ => .nop⟩,
    ⟨0x01000000, 0xFFFFFFFF, fun _ => .srst⟩ ]

/-- 0x1_ frequency stage. -/
def frequencyRows : List OpcodeRow :=
  [ ⟨0x10000000, 0xFFFFFFFF, fun _ => .clrfreq⟩,
    ⟨0x11000000, 0xFFFF0000, fun w => .count (symField w)⟩,
    ⟨0x12000000, 0xFFFF0000, fun w => .setfreq (symField w)⟩,
    ⟨0x13000000, 0xFFFF0000, fun w => .getfreq (symField w)⟩ ]

/-- 0x2_ tree builder. -/
def treeBuilderRows : List OpcodeRow :=
  [ ⟨0x20000000, 0xFFFFFFFF, fun _ => .build⟩,
    ⟨0x21000000, 0xFFFFFFFF, fun _ => .bstep⟩,
    ⟨0x22000000, 0xFFFFFFFF, fun _ => .tnode⟩ ]

/-- 0x3_ code table. -/
def codeTableRows : List OpcodeRow :=
  [ ⟨0x30000000, 0xFFFF0000, fun w => .lookup (symField w)⟩,
    ⟨0x31000000, 0xFFFFFF00, fun w => .dlookup (lenField w)⟩,
    ⟨0x32000000, 0xFFFF0000, fun w => .enc (symField w)⟩,
    ⟨0x33000000, 0xFFFFFFFF, fun _ => .dec⟩ ]

/-- 0x4_ bit buffer. -/
def bitBufferRows : List OpcodeRow :=
  [ ⟨0x40000000, 0xFFFFFFFF, fun _ => .bclr⟩,
    ⟨0x41000000, 0xFFFFFFFE, fun w => .bput (bitField w)⟩,
    ⟨0x42000000, 0xFFFFFFFF, fun _ => .bget⟩,
    ⟨0x43000000, 0xFFFFFFFF, fun _ => .brwd⟩ ]

/-- 0x5_ packer. -/
def packerRows : List OpcodeRow :=
  [ ⟨0x50000000, 0xFFFFFFFF, fun _ => .pclr⟩,
    ⟨0x51000000, 0xFFFFFFFF, fun _ => .pwr⟩,
    ⟨0x52000000, 0xFFFFFFFF, fun _ => .prd⟩,
    ⟨0x53000000, 0xFFFFFFFF, fun _ => .pack⟩,
    ⟨0x54000000, 0xFFFFFFFF, fun _ => .unpack⟩ ]

/-- The opcode map of R88, in its order. -/
def opcodeRows : List OpcodeRow :=
  controlRows ++ frequencyRows ++ treeBuilderRows ++ codeTableRows ++ bitBufferRows ++ packerRows

/-- The row whose OPC equals the word's (R89), if there is one. -/
def rowOf (w : Word) : Option OpcodeRow :=
  opcodeRows.find? fun r => opcField r.pattern == opcField w

/-- `decode` of R89. -/
def decode (w : Word) : Decoded :=
  match rowOf w with
  | none => .illegal .unlistedOpc
  | some r => if w &&& r.mask = r.pattern then .command (r.read w) else .illegal .reservedBit

/-- Format N: OPC, then 24 zeros (R82). -/
def wordN (opc : BitVec 8) : Word := opc ++ 0#24

/-- Format S: OPC, 8 zeros, SYM (R83). -/
def wordS (opc : BitVec 8) (sym : Nat) : Word := opc ++ (0#8 ++ BitVec.ofNat 16 sym)

/-- Format B: OPC, 23 zeros, BIT (R84). -/
def wordB (opc : BitVec 8) (bit : Bool) : Word := opc ++ (0#23 ++ BitVec.ofBool bit)

/-- Format L: OPC, 16 zeros, LEN (R85). -/
def wordL (opc : BitVec 8) (len : Nat) : Word := opc ++ (0#16 ++ BitVec.ofNat 8 len)

/-- The word of a command (R88). For a command that is not well-formed the operand's low bits only. -/
def encode : Instr → Word
  | .nop => wordN 0x00
  | .srst => wordN 0x01
  | .clrfreq => wordN 0x10
  | .count sym => wordS 0x11 sym
  | .setfreq sym => wordS 0x12 sym
  | .getfreq sym => wordS 0x13 sym
  | .build => wordN 0x20
  | .bstep => wordN 0x21
  | .tnode => wordN 0x22
  | .lookup sym => wordS 0x30 sym
  | .dlookup len => wordL 0x31 len
  | .enc sym => wordS 0x32 sym
  | .dec => wordN 0x33
  | .bclr => wordN 0x40
  | .bput bit => wordB 0x41 bit
  | .bget => wordN 0x42
  | .brwd => wordN 0x43
  | .pclr => wordN 0x50
  | .pwr => wordN 0x51
  | .prd => wordN 0x52
  | .pack => wordN 0x53
  | .unpack => wordN 0x54

/-- The command word made of the low nbits bits of w, every bit above them 0; a command is ONE 32-bit word (R80), so a row
of more bits is no command. -/
def tableWord (nbits w : Nat) : Option Word :=
  if nbits ≤ 32 then some (BitVec.ofNat 32 (w % 2 ^ nbits)) else none

/-- The host's question: the command this decoder reads from the word w of nbits bits. -/
def decodeTableWord (nbits w : Nat) : Option Instr :=
  match tableWord nbits w with
  | none => none
  | some cmd =>
    match decode cmd with
    | .command i => some i
    | .illegal _ => none

end Sys2Proof
end

