-- ==== Sys2Proof/Config.lean ====
section
/-! DEFINITION. What an implementation of HUFFCORE fixes (spec/00_scope.md section 3) and the free values
(spec/70_reset_and_hazards.md R257, spec/10_state.md R41). -/

namespace Sys2Proof

/-- The implementation parameters. They are state in the sense of R20 ("constants: ID, CONFIG, MAXBITS"): every
statement holds for whatever values State.params has, and no step changes them (log 1, log 2). -/
structure Params where
  /-- SYMW, the symbol width in bits, 1 .. 16 (R6). -/
  symw : Nat
  /-- MAXLEN, the longest code in bits, 1 .. 64 (R7). -/
  maxlen : Nat
  /-- MAXBITS, the capacity of the bit buffer in bits, 1 .. 2^32-1 (R8). -/
  maxbits : Nat
  /-- BASE, the byte address of the register window, a multiple of 256 (R11). -/
  base : Nat
  deriving DecidableEq, Repr

/-- The spec's defaults of R6, R7 and R8. BASE has none (R11: OPEN): 0 here is a DESIGN CHOICE (log 2), unsafe if a claim
rests on it. -/
def Params.default : Params := { symw := 8, maxlen := 64, maxbits := 65536, base := 0 }

/-- The free values: a register read while BUSY = 1 (R257, "a free draw, unrelated to any earlier or later read") and what
CMDL holds after a soft reset or a reset release (R41, R46: unspecified). The argument is the number of the draw
(State.draw), so that no two draws are related. No body: nothing is known of any value (log 6, log 7); safe. -/
opaque Config.freeWord : Nat → Word

end Sys2Proof
end

