-- ==== Sys2Proof/Machine/State.lean ====
section
/-! DEFINITION. The state of one HUFFCORE instance (spec/10_state.md R20), its reset values (R46), and the reasons a step
can stop. -/

namespace Sys2Proof.Machine

/-- An internal memory reached by index (R60, R61) whose reset value is all zero (R46): (index, value) pairs, indexes
strictly rising, no value equal to 0; an unlisted index reads 0. Memory.wf (Machine/Ops.lean) says so (log 9). -/
abbrev Memory (w : Nat) := List (Nat × BitVec w)

/-- TBS (R23): IDLE = 0, MERGE = 1, ASSIGN = 2, DONE = 3. -/
inductive Tbs where
  | idle
  | merge
  | assign
  | done
  deriving DecidableEq, Repr

/-- One slot of NODE (R24). sym has SYMW <= 16 bits. -/
structure Node where
  freq : Word
  leaf : Bool
  sym : BitVec 16
  left : Word
  right : Word
  deriving DecidableEq, Repr

/-- The result codes of R221 (STATUS.ERR); Err.code (Machine/Flags.lean) gives each its number. The reserved codes
0x0E .. 0xFF are never reported, so they have no constructor (log 18). -/
inductive Err where
  | ok
  | illegalCmd
  | badSymbol
  | sequence
  | freqOverflow
  | codeTableUnavailable
  | unknownSymbol
  | truncatedStream
  | corruptBuffer
  | bitbufOverflow
  | pbufOverflow
  | range
  | codeTooLong
  | noMatch
  deriving DecidableEq, Repr

/-- What the engine is doing. STATUS.BUSY = 1 in clearing and command (R36) and 0 in idle; that it is 1 in inReset too is a
DESIGN CHOICE (log 20). CMDL is valid in command only (R41). -/
inductive Phase where
  /-- The reset input is asserted (R250). -/
  | inReset
  /-- The reset clear is in progress (R251). -/
  | clearing
  /-- BUSY = 0. -/
  | idle
  /-- A command has been accepted and not performed yet (R254, R255). -/
  | command
  deriving DecidableEq, Repr

/-- The width of a host access in bits. Only 32 is inside the interface (R65). -/
inductive Width where
  | w8
  | w16
  | w32
  | w64
  deriving DecidableEq, Repr

/-- What happens next, from outside the engine or by it: a turn of the engine (its time LAT or RLAT is over, R12), a host
access at a byte address (R13), and the reset input (R250). value is what the host writes (its low 32 bits for a wider
access, which is refused whatever it carries). -/
inductive Event where
  | engineTurn
  | read (width : Width) (addr : Nat)
  | write (width : Width) (addr : Nat) (value : Word)
  | resetAssert
  | resetRelease
  deriving DecidableEq, Repr

/-- Why the machine stops with a fault. No command and no access inside the interface raises one: R229. -/
inductive Fault where
  /-- Raised by a host access outside BASE .. BASE+0xFF: the block has no such address (R60, R64). Safe: the model stops
  (log 11). -/
  | outsideWindow
  /-- Raised by BSTEP and BUILD where `extract` (R122) meets an empty queue or a queued slot at or above NNODES. In no state
  reachable from reset (R45 item 4). Safe: the model stops (log 13). -/
  | brokenQueue
  /-- Raised by BSTEP and BUILD where `paths` (R140) meets a slot at or above NNODES or does not end. In no state reachable
  from reset (R45 items 5 and 6). Safe: the model stops (log 13). -/
  | brokenTree
  /-- Raised by BUILD where DONE is not reached within NSYM + 1 steps (R128 derives that at most NSYMS + 1 are needed). In no
  state reachable from reset. Safe: the model stops (log 13). -/
  | endlessBuild
  deriving DecidableEq, Repr

/-- Why the model has no step. -/
inductive Refusal where
  /-- Raised by an arm of exec whose instruction has no meaning yet. Safe: the model stops. No arm does. -/
  | notModelled (mnemonic : String)
  /-- Raised by a host access of a width other than 32 bits (R65: "a model refuses it"). Safe. -/
  | accessWidth
  /-- Raised by a 32-bit host access at an offset that is no multiple of 4 (R65: "a model refuses it"). Safe. -/
  | accessMisaligned
  /-- Raised by a host access while the reset input is asserted (R250: "refused"). Safe. -/
  | accessInReset
  deriving DecidableEq, Repr

/-- The state of one HUFFCORE instance (R20), and at its end three fields that are the model's own: pending (log 3), reads
(log 16) and draw (log 7). NNODES, BLEN and PLEN are the lengths of node, bitbuf and pbuf (log 8); TV, LMAX and DT are
functions of tbs, ctlen and ctcode (R30 to R32); ID, CONFIG and MAXBITS are functions of params (R37 to R39). -/
structure State where
  /-- SYMW, MAXLEN, MAXBITS, BASE (R6, R7, R8, R11). -/
  params : Params
  /-- FREQ (R21). -/
  freq : Memory 32
  /-- TOTAL (R22). -/
  total : Word
  /-- TBS (R23). -/
  tbs : Tbs
  /-- NODE[0] .. NODE[NNODES-1] (R24, R26). -/
  node : List Node
  /-- INQ (R25). -/
  inq : Memory 1
  /-- NSYMS (R27). -/
  nsyms : Word
  /-- ROOT (R28). -/
  root : Word
  /-- CTLEN (R29). -/
  ctlen : Memory 7
  /-- CTCODE (R29). -/
  ctcode : Memory 64
  /-- BITBUF(0) .. BITBUF(BLEN-1) (R33). -/
  bitbuf : Bits
  /-- BRP (R33). -/
  brp : Word
  /-- PBUF[0] .. PBUF[PLEN-1] (R34). -/
  pbuf : List Byte
  /-- PRP (R34). -/
  prp : Word
  /-- DATA (R35). -/
  data : Word
  /-- RES0 (R35). -/
  res0 : Word
  /-- RES1 (R35). -/
  res1 : Word
  /-- RES2 (R35). -/
  res2 : Word
  /-- STATUS.BUSY and what the engine is doing (R36, R41, R250, R251). -/
  phase : Phase
  /-- STATUS.EOS (R36). -/
  eos : Bool
  /-- STATUS.STICKY (R36, R225). -/
  sticky : Bool
  /-- STATUS.OVERRUN (R36, R256). -/
  overrun : Bool
  /-- STATUS.ERR (R36, R221). -/
  err : Err
  /-- CMDL, the command latch (R41). -/
  cmdl : Word
  /-- The model's own: the host's operations and the turns still to come, oldest first. -/
  pending : List Event
  /-- The model's own: the values the host's reads returned, oldest first (the observation of R14). -/
  reads : List Word
  /-- The model's own: how many free values have been drawn. -/
  draw : Nat
  deriving DecidableEq, Repr

/-- The machine right after the reset input is released (R46, R250): every element at its value after reset, BUSY = 1 with
the reset clear still to complete (R251). CMDL, unspecified by R46, is 0: DESIGN CHOICE (log 6). -/
def State.reset : State :=
  { params := Params.default
    freq := [], total := 0, tbs := .idle, node := [], inq := [], nsyms := 0, root := 0
    ctlen := [], ctcode := [], bitbuf := [], brp := 0, pbuf := [], prp := 0
    data := 0, res0 := 0, res1 := 0, res2 := 0
    phase := .clearing, eos := false, sticky := false, overrun := false, err := .ok, cmdl := 0
    pending := [], reads := [], draw := 0 }

end Sys2Proof.Machine
end

