-- ==== Sys2Proof/Machine/Ops.lean ====
section
/-! DEFINITION. The named operations over the internal memories and the registers, the two reports a command ends with
(spec/60_exceptions.md R223, R224), and the values after reset (spec/10_state.md R46). -/

namespace Sys2Proof

/-- NSYM = 2^SYMW (R6). -/
def Params.nsym (p : Params) : Nat := 2 ^ p.symw

/-- NNODEMAX = 2*NSYM - 1 (R9). -/
def Params.nnodemax (p : Params) : Nat := 2 * p.nsym - 1

/-- PBMAX = 4 + ceil(MAXBITS/8) (R8). -/
def Params.pbmax (p : Params) : Nat := 4 + (p.maxbits + 7) / 8

/-- The parameters are in the ranges of R6, R7, R8 and R11. -/
abbrev Params.wf (p : Params) : Prop :=
  (1 ≤ p.symw ∧ p.symw ≤ 16) ∧ (1 ≤ p.maxlen ∧ p.maxlen ≤ 64) ∧ (1 ≤ p.maxbits ∧ p.maxbits ≤ 2 ^ 32 - 1)
    ∧ p.base % 256 = 0

end Sys2Proof

namespace Sys2Proof.Machine

/-- What a command or a step answers. -/
abbrev Answer := Host.Outcome State Fault Refusal

/-- The value at an index; an unlisted index reads 0, the value the reset clear leaves (R46, R251). -/
def Memory.read {w : Nat} : Memory w → Nat → BitVec w
  | [], _ => 0#w
  | (k, x) :: m, a => if k = a then x else Memory.read m a

/-- Write the value at an index, keeping the canonical form: writing 0 removes the entry. -/
def Memory.write {w : Nat} : Memory w → Nat → BitVec w → Memory w
  | [], a, v => if v = 0#w then [] else [(a, v)]
  | (k, x) :: m, a, v =>
    if a < k then (if v = 0#w then (k, x) :: m else (a, v) :: (k, x) :: m)
    else if a = k then (if v = 0#w then m else (a, v) :: m)
    else (k, x) :: Memory.write m a v

/-- The canonical form: indexes strictly rising, no entry equal to what an unlisted index reads as. -/
abbrev Memory.wf {w : Nat} (m : Memory w) : Prop :=
  m.Pairwise (fun x y => x.1 < y.1) ∧ ∀ e ∈ m, e.2 ≠ 0#w

/-- Every listed index is below a bound. -/
abbrev Memory.below {w : Nat} (m : Memory w) (bound : Nat) : Prop := ∀ e ∈ m, e.1 < bound

/-- NSYM of this instance (R6). -/
def State.nsym (s : State) : Nat := s.params.nsym

/-- NNODES: slots 0 .. NNODES-1 are valid (R26; log 8). -/
def State.nnodes (s : State) : Nat := s.node.length

/-- BLEN (R33; log 8). -/
def State.blen (s : State) : Nat := s.bitbuf.length

/-- PLEN (R34; log 8). -/
def State.plen (s : State) : Nat := s.pbuf.length

/-- The success report of R223: STATUS.ERR <- 0x00, STICKY unchanged. -/
def State.reportOk (s : State) : State := { s with err := .ok }

/-- The error report of R224: STATUS.ERR <- code(E), STATUS.STICKY <- 1, and nothing else. -/
def State.reportErr (e : Err) (s : State) : State := { s with err := e, sticky := true }

/-- `ok` of R18: the command has succeeded with the writes already made in s. -/
def succeed (s : State) : Answer := .next s.reportOk

/-- `raise E` of R18: s is the state BEFORE the command, so none of its other writes happen. It is the block's only
exception: a completed command, no trap, no state saved, nothing to return from (R229, R230). -/
def raise (e : Err) (s : State) : Answer := .next (s.reportErr e)

/-- Every element of R46 at its value after reset but BUSY; params, which never change (R37 to R39), are kept. CMDL is
unspecified (R46), so it takes a free value (log 6). -/
def State.resetValues (s : State) : State :=
  { s with
    freq := [], total := 0, tbs := .idle, node := [], inq := [], nsyms := 0, root := 0
    ctlen := [], ctcode := [], bitbuf := [], brp := 0, pbuf := [], prp := 0
    data := 0, res0 := 0, res1 := 0, res2 := 0
    eos := false, sticky := false, overrun := false, err := .ok
    cmdl := Config.freeWord s.draw, draw := s.draw + 1 }

/-- The end of the reset clear (R251): FREQ, INQ, CTLEN and CTCODE are clear, BUSY <- 0, no other change. -/
def State.completeClear (s : State) : State :=
  { s with freq := [], inq := [], ctlen := [], ctcode := [], phase := .idle }

/-- BUSY <- 0, part of the engine step's one transition (R255). -/
def State.completeCommand (s : State) : State := { s with phase := .idle }

/-- Acceptance of R254: CMDL <- w; BUSY <- 1 and nothing else. -/
def State.acceptCommand (s : State) (w : Word) : State := { s with cmdl := w, phase := .command }

end Sys2Proof.Machine
end

