-- ==== Sys2Proof/Machine/Flags.lean ====
section
/-! DEFINITION. The flags and the STATUS word (spec/10_state.md R36), the result codes (spec/60_exceptions.md R221), and the
constant registers (R37 to R39). -/

namespace Sys2Proof.Machine

/-- The numbers of R221. -/
def Err.code : Err → BitVec 8
  | .ok => 0x00
  | .illegalCmd => 0x01
  | .badSymbol => 0x02
  | .sequence => 0x03
  | .freqOverflow => 0x04
  | .codeTableUnavailable => 0x05
  | .unknownSymbol => 0x06
  | .truncatedStream => 0x07
  | .corruptBuffer => 0x08
  | .bitbufOverflow => 0x09
  | .pbufOverflow => 0x0A
  | .range => 0x0B
  | .codeTooLong => 0x0C
  | .noMatch => 0x0D

/-- The numbers of R23. -/
def Tbs.code : Tbs → BitVec 2
  | .idle => 0
  | .merge => 1
  | .assign => 2
  | .done => 3

/-- STATUS.BUSY: 1 while a command or the reset clear is in progress (R36), from reset release on (R46, R250). While the reset
input is asserted the spec gives BUSY no value, and no access can read it (R250); it is 1 there: DESIGN CHOICE (log 20). -/
def State.busy (s : State) : Bool := decide (s.phase ≠ .idle)

/-- TV is 1 exactly when TBS = DONE (R32). -/
def State.tv (s : State) : Bool := decide (s.tbs = .done)

/-- The STATUS word of R36, from bit 31 down: reserved, ERR, reserved, TBS, reserved, OVERRUN, STICKY, EOS, TV, BUSY. -/
def State.status (s : State) : Word :=
  0#8 ++ s.err.code ++ 0#6 ++ s.tbs.code ++ 0#3 ++ BitVec.ofBool s.overrun ++ BitVec.ofBool s.sticky
    ++ BitVec.ofBool s.eos ++ BitVec.ofBool s.tv ++ BitVec.ofBool s.busy

/-- ID (R37). -/
def idWord : Word := 0x48554646

/-- CONFIG (R38): CONFIG[4:0] = SYMW, CONFIG[14:8] = MAXLEN, the rest 0. -/
def State.configWord (s : State) : Word :=
  0#17 ++ BitVec.ofNat 7 s.params.maxlen ++ 0#3 ++ BitVec.ofNat 5 s.params.symw

/-- MAXBITS (R39). -/
def State.maxbitsWord (s : State) : Word := BitVec.ofNat 32 s.params.maxbits

end Sys2Proof.Machine
end

