-- ==== Sys2Proof/Machine/Operands.lean ====
section
/-! DEFINITION. Operands and bit sequences: `bits_n` and `val` of spec/00_scope.md R16, `BE32` of R17, the register operands
of spec/30_encoding.md R87. -/

namespace Sys2Proof.Machine

/-- `bits_n(v)` of R16: the n-bit sequence whose val is v, for v < 2^n (of a larger v, its low n bits). -/
def bitsOf : Nat → Nat → Bits
  | 0, _ => []
  | n + 1, v => v.testBit n :: bitsOf n v

/-- `val(b)` of R16: the first bit is most significant. -/
def val : Bits → Nat
  | [] => 0
  | b :: bs => b.toNat * 2 ^ bs.length + val bs

/-- `ceil(n/8)` of R17. -/
def ceil8 (n : Nat) : Nat := (n + 7) / 8

/-- `BE32(v)` of R17. -/
def be32 (v : Word) : List Byte :=
  [v.extractLsb' 24 8, v.extractLsb' 16 8, v.extractLsb' 8 8, v.extractLsb' 0 8]

/-- A symbol operand is checked against the alphabet size (R86): sym >= NSYM. -/
abbrev State.badSymbol (s : State) (sym : Nat) : Prop := s.nsym ≤ sym

/-- The count operand of SETFREQ: DATA, all 32 bits (R87). -/
def State.dataCount (s : State) : Nat := s.data.toNat

/-- The slot operand of TNODE: DATA, all 32 bits (R87). -/
def State.dataSlot (s : State) : Nat := s.data.toNat

/-- The code operand of DLOOKUP: bits_len(DATA[len-1:0]), the higher bits ignored (R87, R148). -/
def State.dataCode (s : State) (len : Nat) : Bits := bitsOf len (s.data.toNat % 2 ^ len)

/-- The byte operand of PWR: DATA[7:0], the higher bits ignored (R87). -/
def State.dataByte (s : State) : Byte := s.data.extractLsb' 0 8

end Sys2Proof.Machine
end

