-- ==== Sys2Proof/Machine/CodeTable.lean ====
section
/-! DEFINITION. The dual code table (spec/10_state.md R29 to R31), code assignment (spec/43_code_table.md R140 to R143), and
the commands LOOKUP and DLOOKUP. -/

namespace Sys2Proof.Machine

/-- The code of a symbol, bits_n(CTCODE[s]) with n = CTLEN[s] (R29); empty where it has none. -/
def State.codeOf (s : State) (sym : Nat) : Bits := bitsOf (s.ctlen.read sym).toNat (s.ctcode.read sym).toNat

/-- The test of R30: CTLEN[s] = |c| and CTCODE[s] = val(c). -/
def State.isCode (s : State) (c : Bits) (sym : Nat) : Bool :=
  (s.ctlen.read sym).toNat == c.length && (s.ctcode.read sym).toNat == val c

/-- DT(c) of R30. At most one symbol qualifies in a reachable state (R145); where more do, the least is taken (log 10). -/
def State.dt (s : State) (c : Bits) : Option Nat :=
  if 1 ≤ c.length ∧ c.length ≤ s.params.maxlen then (List.range s.nsym).find? (s.isCode c) else none

/-- LMAX of R31: the greatest CTLEN, 0 where every CTLEN is 0. -/
def State.lmax (s : State) : Nat :=
  (List.range s.nsym).foldl (fun n sym => max n (s.ctlen.read sym).toNat) 0

/-- `paths(i, p)` of R140. The first argument bounds the depth: an internal slot's children are lower-numbered (R24), so
NNODES levels are enough; none where the walk meets no valid slot or does not end (log 13). -/
def paths (node : List Node) : Nat → Nat → Bits → Option (List (Nat × Bits))
  | 0, _, _ => none
  | depth + 1, i, p =>
    match node[i]? with
    | none => none
    | some nd =>
      if nd.leaf then some [(nd.sym.toNat, p)]
      else
        match paths node depth nd.left.toNat (p ++ [false]), paths node depth nd.right.toNat (p ++ [true]) with
        | some l, some r => some (l ++ r)
        | _, _ => none

/-- The list P of R141: the one-bit code "0" of a single-symbol alphabet (R143), else the paths from the root. -/
def State.assignment (s : State) : Option (List (Nat × Bits)) :=
  if s.nsyms = 1 then
    match s.node[0]? with
    | none => none
    | some nd => some [(nd.sym.toNat, [false])]
  else paths s.node s.nnodes s.root.toNat []

/-- What one step of the tree builder gives: the state after it, CODE_TOO_LONG (R142), or a stop of the model in a state no
run reaches (log 13). -/
inductive StepResult where
  | stepped (s : State)
  | tooLong
  | broken (f : Fault)
  deriving DecidableEq, Repr

/-- CTLEN[s] <- |p| for each (s, p) (R141). -/
def writeLengths (m : Memory 7) (codes : List (Nat × Bits)) : Memory 7 :=
  codes.foldl (fun m e => m.write e.1 (BitVec.ofNat 7 e.2.length)) m

/-- CTCODE[s] <- val(p) for each (s, p) (R141). -/
def writeCodes (m : Memory 64) (codes : List (Nat × Bits)) : Memory 64 :=
  codes.foldl (fun m e => m.write e.1 (BitVec.ofNat 64 (val e.2))) m

/-- The ASSIGN step (R125, R141, R142). -/
def stepAssign (s : State) : StepResult :=
  match s.assignment with
  | none => .broken .brokenTree
  | some codes =>
    if codes.any (fun e => decide (e.2.length > s.params.maxlen)) then .tooLong
    else .stepped { s with ctlen := writeLengths s.ctlen codes, ctcode := writeCodes s.ctcode codes, tbs := .done }

/-- LOOKUP sym (R147). -/
def execLookup (sym : Nat) (s : State) : Answer :=
  if s.badSymbol sym then raise .badSymbol s
  else if s.tv = false then raise .codeTableUnavailable s
  else if s.ctlen.read sym = 0 then raise .unknownSymbol s
  else succeed { s with
    res0 := (s.ctlen.read sym).setWidth 32
    res1 := (s.ctcode.read sym).extractLsb' 0 32
    res2 := (s.ctcode.read sym).extractLsb' 32 32 }

/-- DLOOKUP len (R148). -/
def execDlookup (len : Nat) (s : State) : Answer :=
  if s.tv = false then raise .codeTableUnavailable s
  else if len = 0 ∨ len > 32 then raise .range s
  else
    match s.dt (s.dataCode len) with
    | none => raise .noMatch s
    | some sym => succeed { s with res0 := BitVec.ofNat 32 sym }

end Sys2Proof.Machine
end

