-- ==== Sys2Proof/Machine/Bus.lean ====
section
/-! DEFINITION. The register window: what a host read returns and what a host write does (spec/10_state.md R40,
spec/20_memory.md R64 to R68, spec/70_reset_and_hazards.md R254, R256, R257), and the reset input (R250). -/

namespace Sys2Proof.Machine

/-- The registers of R40. -/
inductive Reg where
  | cmd
  | data
  | status
  | res0
  | res1
  | res2
  | total
  | nsyms
  | nnodes
  | root
  | blen
  | brp
  | plen
  | prp
  | lmax
  | config
  | maxbits
  | id
  deriving DecidableEq, Repr

/-- The offset of a register in the window (R40). -/
def Reg.offset : Reg → Nat
  | .cmd => 0x00
  | .data => 0x04
  | .status => 0x08
  | .res0 => 0x0C
  | .res1 => 0x10
  | .res2 => 0x14
  | .total => 0x18
  | .nsyms => 0x1C
  | .nnodes => 0x20
  | .root => 0x24
  | .blen => 0x28
  | .brp => 0x2C
  | .plen => 0x30
  | .prp => 0x34
  | .lmax => 0x38
  | .config => 0x3C
  | .maxbits => 0x40
  | .id => 0x44

/-- Every register of R40, by rising offset. -/
def registers : List Reg :=
  [.cmd, .data, .status, .res0, .res1, .res2, .total, .nsyms, .nnodes]
    ++ [.root, .blen, .brp, .plen, .prp, .lmax, .config, .maxbits, .id]

/-- The register at an offset; none at the reserved offsets 0x48 .. 0xFC (R66). -/
def regAt (off : Nat) : Option Reg := registers.find? fun r => r.offset == off

/-- The value of a register with BUSY = 0 (R40); a read of CMD returns 0 (R67). -/
def State.regValue (s : State) : Reg → Word
  | .cmd => 0
  | .data => s.data
  | .status => s.status
  | .res0 => s.res0
  | .res1 => s.res1
  | .res2 => s.res2
  | .total => s.total
  | .nsyms => s.nsyms
  | .nnodes => BitVec.ofNat 32 s.nnodes
  | .root => s.root
  | .blen => BitVec.ofNat 32 s.blen
  | .brp => s.brp
  | .plen => BitVec.ofNat 32 s.plen
  | .prp => s.prp
  | .lmax => BitVec.ofNat 32 s.lmax
  | .config => s.configWord
  | .maxbits => s.maxbitsWord
  | .id => idWord

/-- DATA, CMD, ID, CONFIG and MAXBITS return their value while BUSY = 1 too (R257). -/
def Reg.steadyWhileBusy : Reg → Bool
  | .cmd => true
  | .data => true
  | .config => true
  | .maxbits => true
  | .id => true
  | .status => false
  | .res0 => false
  | .res1 => false
  | .res2 => false
  | .total => false
  | .nsyms => false
  | .nnodes => false
  | .root => false
  | .blen => false
  | .brp => false
  | .plen => false
  | .prp => false
  | .lmax => false

/-- The unspecified value a read returns while BUSY = 1 (R257): a free draw; of STATUS, with BUSY reading 1. -/
def busyValue (r : Reg) (free : Word) : Word := if r = .status then free ||| 1 else free

/-- The host has read a value: it joins the observation (R14; log 16). -/
def State.observe (s : State) (v : Word) : State := { s with reads := s.reads ++ [v] }

/-- A read of the word at an offset (R66, R67, R257). It changes nothing of the block (R68). -/
def windowRead (s : State) (off : Nat) : State :=
  match regAt off with
  | none => s.observe 0
  | some r =>
    if s.busy = false ∨ r.steadyWhileBusy = true then s.observe (s.regValue r)
    else { s.observe (busyValue r (Config.freeWord s.draw)) with draw := s.draw + 1 }

/-- A write of the word at an offset: acceptance of a command (R254), DATA (R67), a lost write (R256), or no effect
(R66, R67). -/
def windowWrite (s : State) (off : Nat) (v : Word) : State :=
  match regAt off with
  | some .cmd => if s.busy then { s with overrun := true } else s.acceptCommand v
  | some .data => if s.busy then { s with overrun := true } else { s with data := v }
  | _ => s

/-- Where a host access goes: its offset in the window, or why there is none (R64, R65, R250; log 11). -/
def accessOffset (s : State) (width : Width) (addr : Nat) : Host.Outcome Nat Fault Refusal :=
  if addr < s.params.base ∨ s.params.base + 256 ≤ addr then .fault .outsideWindow
  else if s.phase = .inReset then .refused .accessInReset
  else if width ≠ .w32 then .refused .accessWidth
  else if (addr - s.params.base) % 4 ≠ 0 then .refused .accessMisaligned
  else .next (addr - s.params.base)

/-- A host read. -/
def hostRead (width : Width) (addr : Nat) (s : State) : Answer :=
  match accessOffset s width addr with
  | .next off => .next (windowRead s off)
  | .fault f => .fault f
  | .refused r => .refused r

/-- A host write. -/
def hostWrite (width : Width) (addr : Nat) (v : Word) (s : State) : Answer :=
  match accessOffset s width addr with
  | .next off => .next (windowWrite s off v)
  | .fault f => .fault f
  | .refused r => .refused r

/-- The reset input is asserted (R250): the block performs no command (log 12). -/
def assertReset (s : State) : State := { s with phase := .inReset }

/-- The reset input is released (R250): every element takes its value after reset, BUSY = 1 with the reset clear to come
(R251). Of a reset that is not asserted there is nothing to release (log 12). -/
def releaseReset (s : State) : State :=
  if s.phase = .inReset then { s.resetValues with phase := .clearing } else s

end Sys2Proof.Machine
end

