-- ==== Sys2Proof/Machine/BitBuffer.lean ====
section
/-! DEFINITION. The bit buffer: BCLR, BPUT, BGET, BRWD (spec/46_bitbuffer.md). -/

namespace Sys2Proof.Machine

/-- BCLR (R180). -/
def execBclr (s : State) : Answer := succeed { s with bitbuf := [], brp := 0 }

/-- BPUT bit (R181). -/
def execBput (bit : Bool) (s : State) : Answer :=
  if s.blen = s.params.maxbits then raise .bitbufOverflow s
  else succeed { s with bitbuf := s.bitbuf ++ [bit] }

/-- BGET (R182): at BRP = BLEN there is no bit at BRP (log 14 for a BRP above BLEN, in no reachable state). -/
def execBget (s : State) : Answer :=
  match s.bitbuf[s.brp.toNat]? with
  | none => succeed { s with eos := true }
  | some b => succeed { s with res0 := (BitVec.ofBool b).setWidth 32, brp := s.brp + 1, eos := false }

/-- BRWD (R183). -/
def execBrwd (s : State) : Answer := succeed { s with brp := 0 }

end Sys2Proof.Machine
end

