-- ==== Sys2Proof/Machine/Coder.lean ====
section
/-! DEFINITION. The encoder ENC (spec/44_encoder.md) and the decoder DEC (spec/45_decoder.md). -/

namespace Sys2Proof.Machine

/-- ENC sym (R160): c(0) is the first code bit, appended at index BLEN. -/
def execEnc (sym : Nat) (s : State) : Answer :=
  if s.badSymbol sym then raise .badSymbol s
  else if s.tv = false then raise .codeTableUnavailable s
  else if s.ctlen.read sym = 0 then raise .unknownSymbol s
  else if s.blen + (s.ctlen.read sym).toNat > s.params.maxbits then raise .bitbufOverflow s
  else succeed { s with bitbuf := s.bitbuf ++ s.codeOf sym }

/-- How the loop of DEC ends. -/
inductive DecResult where
  /-- The input ended with an empty candidate. -/
  | endOfStream
  /-- The bits left cannot complete a code (R172, R173). -/
  | truncated
  /-- A symbol was recognised after consuming this many bits. -/
  | symbol (sym : Nat) (consumed : Nat)
  deriving DecidableEq, Repr

/-- The loop of R170 over the bits not yet consumed; cand is the candidate buffer, local to one DEC (R44). -/
def decLoop (s : State) (cand : Bits) : Bits → DecResult
  | [] => if cand = [] then .endOfStream else .truncated
  | b :: rest =>
    match s.dt (cand ++ [b]) with
    | some sym => .symbol sym (cand ++ [b]).length
    | none => if (cand ++ [b]).length ≥ s.lmax then .truncated else decLoop s (cand ++ [b]) rest

/-- DEC (R170). -/
def execDec (s : State) : Answer :=
  if s.tv = false then raise .codeTableUnavailable s
  else
    match decLoop s [] (s.bitbuf.drop s.brp.toNat) with
    | .endOfStream => succeed { s with eos := true }
    | .truncated => raise .truncatedStream s
    | .symbol sym n =>
      succeed { s with res0 := BitVec.ofNat 32 sym, brp := BitVec.ofNat 32 (s.brp.toNat + n), eos := false }

end Sys2Proof.Machine
end

