-- ==== Sys2Proof/Machine/Control.lean ====
section
/-! DEFINITION. The control commands NOP and SRST (spec/48_control.md). -/

namespace Sys2Proof.Machine

/-- NOP (R210). -/
def execNop (s : State) : Answer := succeed s

/-- SRST (R211): BUSY follows the command protocol, so phase is not written here. -/
def execSrst (s : State) : Answer := succeed s.resetValues

end Sys2Proof.Machine
end

