-- ==== Sys2Proof/Machine/Frequency.lean ====
section
/-! DEFINITION. The frequency stage: CLRFREQ, COUNT, SETFREQ, GETFREQ (spec/41_frequency.md). -/

namespace Sys2Proof.Machine

/-- The largest value of TOTAL, 2^32 - 1 (R10). -/
def totalMax : Nat := 2 ^ 32 - 1

/-- CLRFREQ (R101). -/
def execClrfreq (s : State) : Answer :=
  succeed { s with
    freq := [], ctlen := [], ctcode := [], inq := []
    total := 0, node := [], nsyms := 0, root := 0, tbs := .idle }

/-- COUNT sym (R102). -/
def execCount (sym : Nat) (s : State) : Answer :=
  if s.badSymbol sym then raise .badSymbol s
  else if s.tbs ≠ .idle then raise .sequence s
  else if s.total.toNat = totalMax then raise .freqOverflow s
  else succeed { s with freq := s.freq.write sym (s.freq.read sym + 1), total := s.total + 1 }

/-- t of R103, in unbounded arithmetic: TOTAL - FREQ[sym] + v. -/
def State.newTotal (s : State) (sym : Nat) : Nat := s.total.toNat - (s.freq.read sym).toNat + s.dataCount

/-- SETFREQ sym (R103). -/
def execSetfreq (sym : Nat) (s : State) : Answer :=
  if s.badSymbol sym then raise .badSymbol s
  else if s.tbs ≠ .idle then raise .sequence s
  else if s.newTotal sym > totalMax then raise .freqOverflow s
  else succeed { s with freq := s.freq.write sym s.data, total := BitVec.ofNat 32 (s.newTotal sym) }

/-- GETFREQ sym (R104). -/
def execGetfreq (sym : Nat) (s : State) : Answer :=
  if s.badSymbol sym then raise .badSymbol s
  else succeed { s with res0 := s.freq.read sym }

end Sys2Proof.Machine
end

