-- ==== Sys2Proof/Machine/Packer.lean ====
section
/-! DEFINITION. The frame formatter: `pack` and `unpack` (spec/47_packer.md R190 to R192), PCLR, PWR, PRD, PACK, UNPACK. -/

namespace Sys2Proof.Machine

/-- byte(j) of R191: bit 8j+t of b is bit 7-t of the byte, 0 at or past the end of b. -/
def packByte (b : Bits) (j : Nat) : Byte :=
  BitVec.ofNat 8 (((List.range 8).map fun t => (b.getD (8 * j + t) false).toNat * 2 ^ (7 - t)).sum)

/-- `pack(b)` of R191. -/
def packBits (b : Bits) : List Byte :=
  be32 (BitVec.ofNat 32 b.length) ++ (List.range (ceil8 b.length)).map (packByte b)

/-- Stream bit i of a packed buffer: bit 7 - (i mod 8) of P(4 + i div 8) (R192). -/
def streamBit (p : List Byte) (i : Nat) : Bool := (p.getD (4 + i / 8) 0).getLsbD (7 - i % 8)

/-- The bit-count of R192: P(0)*2^24 + P(1)*2^16 + P(2)*2^8 + P(3). -/
def bitCount (p : List Byte) : Nat :=
  (p.getD 0 0).toNat * 2 ^ 24 + (p.getD 1 0).toNat * 2 ^ 16 + (p.getD 2 0).toNat * 2 ^ 8 + (p.getD 3 0).toNat

/-- Some pad bit is 1: a stream bit from n up to 8*ceil(n/8) - 1 (R192). -/
def padBitSet (p : List Byte) (n : Nat) : Bool :=
  (List.range (8 * ceil8 n - n)).any fun k => streamBit p (n + k)

/-- `unpack(P)` of R192, its checks in the order written; none is CORRUPT. -/
def unpackBytes (maxbits : Nat) (p : List Byte) : Option Bits :=
  if p.length < 4 then none
  else if bitCount p > maxbits then none
  else if p.length ≠ 4 + ceil8 (bitCount p) then none
  else if padBitSet p (bitCount p) then none
  else some ((List.range (bitCount p)).map (streamBit p))

/-- PCLR (R194). -/
def execPclr (s : State) : Answer := succeed { s with pbuf := [], prp := 0 }

/-- PWR (R195). -/
def execPwr (s : State) : Answer :=
  if s.plen = s.params.pbmax then raise .pbufOverflow s
  else succeed { s with pbuf := s.pbuf ++ [s.dataByte] }

/-- PRD (R197): at PRP = PLEN there is no byte at PRP (log 14 for a PRP above PLEN, in no reachable state). -/
def execPrd (s : State) : Answer :=
  match s.pbuf[s.prp.toNat]? with
  | none => succeed { s with eos := true }
  | some x => succeed { s with res0 := x.setWidth 32, prp := s.prp + 1, eos := false }

/-- PACK (R196). -/
def execPack (s : State) : Answer := succeed { s with pbuf := packBits s.bitbuf, prp := 0 }

/-- UNPACK (R198). -/
def execUnpack (s : State) : Answer :=
  match unpackBytes s.params.maxbits s.pbuf with
  | none => raise .corruptBuffer s
  | some b => succeed { s with bitbuf := b, brp := 0 }

end Sys2Proof.Machine
end

