-- ==== Sys2Proof/Machine/TreeBuilder.lean ====
section
/-! DEFINITION. The tree builder, a priority-queue state machine (spec/42_tree_builder.md): the queue, INIT, MERGE, the
commands BSTEP, BUILD and TNODE. The ASSIGN step is in CodeTable.lean. -/

namespace Sys2Proof.Machine

/-- The queue, the set { i : INQ[i] = 1 } (R25), in rising order. -/
def State.queue (s : State) : List Nat := (s.inq.filter fun e => e.2 == 1#1).map (·.1)

/-- key(i) = (NODE[i].freq, i) of R121; none where slot i is not valid. -/
def State.keyOf (s : State) (i : Nat) : Option (Nat × Nat) := (s.node[i]?).map fun nd => (nd.freq.toNat, i)

/-- The keys of the queued slots; none where some queued slot is not valid. -/
def keysOf (s : State) : List Nat → Option (List (Nat × Nat))
  | [] => some []
  | i :: is =>
    match s.keyOf i, keysOf s is with
    | some k, some ks => some (k :: ks)
    | _, _ => none

/-- The lexicographic order of R17. -/
def keyLt (x y : Nat × Nat) : Bool := decide (x.1 < y.1 ∨ (x.1 = y.1 ∧ x.2 < y.2))

/-- The least key. -/
def leastKey : List (Nat × Nat) → Option (Nat × Nat)
  | [] => none
  | k :: ks =>
    match leastKey ks with
    | none => some k
    | some m => if keyLt m k then some m else some k

/-- `extract()` of R122: the key of the queued slot with the least key, and the state without it in the queue. None where
the queue is empty or names a slot that is not valid (log 13). -/
def extract (s : State) : Option ((Nat × Nat) × State) :=
  match keysOf s s.queue with
  | none => none
  | some ks =>
    match leastKey ks with
    | none => none
    | some k => some (k, { s with inq := s.inq.write k.2 0 })

/-- The alphabet of a build: the symbols with FREQ[s] > 0, ascending (R100, R123). -/
def State.alphabet (s : State) : List Nat := (List.range s.nsym).filter fun sym => decide (s.freq.read sym ≠ 0)

/-- The leaf of a symbol (R123). -/
def State.leafOf (s : State) (sym : Nat) : Node :=
  { freq := s.freq.read sym, leaf := true, sym := BitVec.ofNat 16 sym, left := 0, right := 0 }

/-- INQ[i] <- 1 for i = 0 .. k-1 (R123). -/
def enqueueFirst (inq : Memory 1) (k : Nat) : Memory 1 := (List.range k).foldl (fun m i => m.write i 1) inq

/-- The INIT step (R123). -/
def stepInit (s : State) : State :=
  let leaves := s.alphabet.map s.leafOf
  let k := leaves.length
  let s := { s with node := leaves, inq := enqueueFirst s.inq k, nsyms := BitVec.ofNat 32 k }
  if k = 0 then { s with tbs := .done }
  else if k = 1 then { s with inq := s.inq.write 0 0, root := 0, tbs := .assign }
  else { s with tbs := .merge }

/-- The parent of the two extracted slots, given by their keys: a is the left child, b the right (R124). -/
def parentOf (a b : Nat × Nat) : Node :=
  { freq := BitVec.ofNat 32 (a.1 + b.1), leaf := false, sym := 0
    left := BitVec.ofNat 32 a.2, right := BitVec.ofNat 32 b.2 }

/-- The MERGE step after its two extractions (R124): insert the parent at slot NNODES; where it is then alone in the queue,
it is the root. -/
def insertParent (a b : Nat × Nat) (s : State) : State :=
  let n := s.nnodes
  let s := { s with node := s.node ++ [parentOf a b], inq := s.inq.write n 1 }
  if s.queue.length = 1 then { s with inq := s.inq.write n 0, root := BitVec.ofNat 32 n, tbs := .assign }
  else s

/-- The MERGE step (R124). -/
def stepMerge (s : State) : StepResult :=
  match extract s with
  | none => .broken .brokenQueue
  | some (a, s1) =>
    match extract s1 with
    | none => .broken .brokenQueue
    | some (b, s2) => .stepped (insertParent a b s2)

/-- The step of the current TBS (R120, R127). -/
def tbStep (s : State) : StepResult :=
  match s.tbs with
  | .idle => .stepped (stepInit s)
  | .merge => stepMerge s
  | .assign => stepAssign s
  | .done => .stepped s

/-- The loop of BUILD (R128): steps until DONE, at most the given number. -/
def runToDone : Nat → State → StepResult
  | 0, s => if s.tbs = .done then .stepped s else .broken .endlessBuild
  | n + 1, s =>
    if s.tbs = .done then .stepped s
    else
      match tbStep s with
      | .stepped s' => runToDone n s'
      | .tooLong => .tooLong
      | .broken f => .broken f

/-- The end of BSTEP and BUILD: on CODE_TOO_LONG the state before the command is kept (R125, R128). -/
def finishSteps (s : State) : StepResult → Answer
  | .stepped s' => succeed s'
  | .tooLong => raise .codeTooLong s
  | .broken f => .fault f

/-- BSTEP (R127). -/
def execBstep (s : State) : Answer := finishSteps s (tbStep s)

/-- BUILD (R128): at most NSYMS + 1 steps, and NSYMS <= NSYM. -/
def execBuild (s : State) : Answer := finishSteps s (runToDone (s.nsym + 1) s)

/-- RES1 of TNODE (R129): RES1[31] = leaf, RES1[30] = in queue, RES1[29:0] = symbol or left slot. -/
def tnodeWord (queued : BitVec 1) (nd : Node) : Word :=
  if nd.leaf then 0x80000000#32 ||| (queued.setWidth 32 <<< 30) ||| nd.sym.setWidth 32
  else (queued.setWidth 32 <<< 30) ||| nd.left

/-- TNODE (R129): a slot at or above NNODES has no entry in node. -/
def execTnode (s : State) : Answer :=
  match s.node[s.dataSlot]? with
  | none => raise .range s
  | some nd =>
    succeed { s with
      res0 := nd.freq
      res1 := tnodeWord (s.inq.read s.dataSlot) nd
      res2 := if nd.leaf then 0 else nd.right }

end Sys2Proof.Machine
end

