-- ==== Sys2Proof/Machine/Dispatch.lean ====
section
/-! DEFINITION. The meaning of every command, one arm per constructor of Instr. -/

namespace Sys2Proof.Machine

def exec (i : Instr) (s : State) : Host.Outcome State Fault Refusal :=
  match i with
  | .nop => Sys2Proof.Machine.execNop s
  | .srst => Sys2Proof.Machine.execSrst s
  | .clrfreq => Sys2Proof.Machine.execClrfreq s
  | .count sym => Sys2Proof.Machine.execCount sym s
  | .setfreq sym => Sys2Proof.Machine.execSetfreq sym s
  | .getfreq sym => Sys2Proof.Machine.execGetfreq sym s
  | .build => Sys2Proof.Machine.execBuild s
  | .bstep => Sys2Proof.Machine.execBstep s
  | .tnode => Sys2Proof.Machine.execTnode s
  | .lookup sym => Sys2Proof.Machine.execLookup sym s
  | .dlookup len => Sys2Proof.Machine.execDlookup len s
  | .enc sym => Sys2Proof.Machine.execEnc sym s
  | .dec => Sys2Proof.Machine.execDec s
  | .bclr => Sys2Proof.Machine.execBclr s
  | .bput bit => Sys2Proof.Machine.execBput bit s
  | .bget => Sys2Proof.Machine.execBget s
  | .brwd => Sys2Proof.Machine.execBrwd s
  | .pclr => Sys2Proof.Machine.execPclr s
  | .pwr => Sys2Proof.Machine.execPwr s
  | .prd => Sys2Proof.Machine.execPrd s
  | .pack => Sys2Proof.Machine.execPack s
  | .unpack => Sys2Proof.Machine.execUnpack s

end Sys2Proof.Machine
end

