-- ==== Sys2Proof/Machine/Engine.lean ====
section
/-! DEFINITION. The engine step (spec/70_reset_and_hazards.md R255) and the interleaving of the engine with the host
(spec/00_scope.md R13, spec/20_memory.md R70). -/

namespace Sys2Proof.Machine

/-- The engine decodes CMDL and performs the command's rule, or raises ILLEGAL_CMD (R89, R255). -/
def performLatched (s : State) : Answer :=
  match decode s.cmdl with
  | .command i => exec i s
  | .illegal _ => raise .illegalCmd s

/-- A turn of the engine. With a command latched it performs it and sets BUSY <- 0 in one transition (R255); in the reset
clear it completes the clear (R251); else it has nothing to do (R239, R250; log 15). -/
def engineTurn (s : State) : Answer :=
  match s.phase with
  | .command => performLatched s.completeCommand
  | .clearing => .next s.completeClear
  | .idle => .next s
  | .inReset => .next s

/-- What an event does to the state. -/
def takeEvent (e : Event) (s : State) : Answer :=
  match e with
  | .engineTurn => engineTurn s
  | .read width addr => hostRead width addr s
  | .write width addr v => hostWrite width addr v s
  | .resetAssert => .next (assertReset s)
  | .resetRelease => .next (releaseReset s)

/-- The next event of State.pending; where there is none, the engine moves (R263; log 3). -/
def nextMove (s : State) : Answer :=
  match s.pending with
  | [] => engineTurn s
  | e :: rest => takeEvent e { s with pending := rest }

/-- The command word w latched, and the very next turn the engine's (log 4). -/
def latchWord (s : State) (w : Word) : State :=
  { s.acceptCommand w with pending := .engineTurn :: s.pending }

end Sys2Proof.Machine
end

