-- ==== Sys2Proof/Machine/Step.lean ====
section
/-! DEFINITION. One step of the machine, and the state in which the next step runs a given command. -/

namespace Sys2Proof.Machine

/-- One step: the next event of State.pending, or a turn of the engine. -/
def step (s : State) : Host.Outcome State Fault Refusal := nextMove s

/-- s with the command whose bits are w latched as R254 latches it, and the engine's turn next (log 4). HUFFCORE fetches
nothing (R43): a command comes to run because the host writes it to CMD. -/
def State.withFetchWord (s : State) (nbits w : Nat) : State := latchWord s (BitVec.ofNat 32 (w % 2 ^ nbits))

end Sys2Proof.Machine
end

