-- ==== Sys2Proof/Machine/HostProgram.lean ====
section
/-! DEFINITION. Host programs: the bus operations of spec/30_encoding.md R94 and the pseudo-instructions of R95, as the
events of State.pending they stand for. -/

namespace Sys2Proof.Machine

/-- The bus operations of R94. -/
inductive BusOp where
  /-- `W DATA, v`. -/
  | writeData (v : Word)
  /-- `C <command>`. -/
  | command (i : Instr)
  /-- `R <register>`. -/
  | readReg (r : Reg)
  /-- `WAIT`. -/
  | wait
  deriving DecidableEq, Repr

/-- The pseudo-instructions of R95. -/
inductive Pseudo where
  | setfreq (sym : Nat) (v : Word)
  | putbyte (v : Word)
  | tnode (i : Word)
  | dlookup (n : Nat) (v : Word)
  | putbits (bits : Bits)
  | encs (syms : List Nat)
  | counts (syms : List Nat)
  deriving DecidableEq, Repr

/-- The expansions of R95. -/
def Pseudo.expand : Pseudo → List BusOp
  | .setfreq sym v => [.writeData v, .command (.setfreq sym)]
  | .putbyte v => [.writeData v, .command .pwr]
  | .tnode i => [.writeData i, .command .tnode]
  | .dlookup n v => [.writeData v, .command (.dlookup n)]
  | .putbits bits => bits.map fun b => .command (.bput b)
  | .encs syms => syms.map fun sym => .command (.enc sym)
  | .counts syms => syms.map fun sym => .command (.count sym)

/-- A 32-bit read of a register. -/
def readEvent (p : Params) (r : Reg) : Event := .read .w32 (p.base + r.offset)

/-- A 32-bit write of a register. -/
def writeEvent (p : Params) (r : Reg) (v : Word) : Event := .write .w32 (p.base + r.offset) v

/-- The WAIT loop (R253): STATUS reads that find BUSY = 1, the engine's turn, and the read that finds BUSY = 0. How many
reads come before the turn is the time LAT or RLAT takes (R12); a statement about every number is a statement about every
latency. -/
def waitEvents (p : Params) (busyReads : Nat) : List Event :=
  List.replicate busyReads (readEvent p .status) ++ [.engineTurn, readEvent p .status]

/-- The events of a bus operation of R94. -/
def BusOp.events (p : Params) (busyReads : Nat) : BusOp → List Event
  | .writeData v => [writeEvent p .data v]
  | .command i => writeEvent p .cmd (encode i) :: waitEvents p busyReads
  | .readReg r => [readEvent p r]
  | .wait => waitEvents p busyReads

/-- The events of a host program in which every WAIT loop finds BUSY = 1 the same number of times. -/
def programEvents (p : Params) (busyReads : Nat) (ops : List BusOp) : List Event :=
  ops.flatMap (BusOp.events p busyReads)

end Sys2Proof.Machine
end

