-- ==== Sys2Proof/Safety.lean ====
section
/-! DEFINITION. What counts as a safe state and a safe run, in the terms the statements use: the invariants of
spec/10_state.md R45, the groups of state a frame names, the errors of each command (spec/60_exceptions.md R227), the
hazards of the handshake (spec/70_reset_and_hazards.md R258), and runs of several commands. -/

namespace Sys2Proof.Machine

/-! ### The groups of state a frame names -/

/-- The frequency stage is unchanged. -/
structure SameFrequency (s t : State) : Prop where
  freq : t.freq = s.freq
  total : t.total = s.total

/-- The tree builder is unchanged: TBS (and so TV), NODE, NNODES, INQ, NSYMS, ROOT. -/
structure SameTree (s t : State) : Prop where
  tbs : t.tbs = s.tbs
  node : t.node = s.node
  inq : t.inq = s.inq
  nsyms : t.nsyms = s.nsyms
  root : t.root = s.root

/-- The code table is unchanged: CTLEN, CTCODE (and so DT and LMAX, where NSYM and MAXLEN are). -/
structure SameCodeTable (s t : State) : Prop where
  ctlen : t.ctlen = s.ctlen
  ctcode : t.ctcode = s.ctcode

/-- BITBUF, BLEN and BRP are unchanged. -/
structure SameBits (s t : State) : Prop where
  bitbuf : t.bitbuf = s.bitbuf
  brp : t.brp = s.brp

/-- PBUF, PLEN and PRP are unchanged. -/
structure SamePacked (s t : State) : Prop where
  pbuf : t.pbuf = s.pbuf
  prp : t.prp = s.prp

/-- RES0, RES1 and RES2 are unchanged. -/
structure SameResults (s t : State) : Prop where
  res0 : t.res0 = s.res0
  res1 : t.res1 = s.res1
  res2 : t.res2 = s.res2

/-- The parameters, DATA, BUSY, OVERRUN, CMDL and the model's own fields are unchanged. -/
structure SameInterface (s t : State) : Prop where
  params : t.params = s.params
  data : t.data = s.data
  phase : t.phase = s.phase
  overrun : t.overrun = s.overrun
  cmdl : t.cmdl = s.cmdl
  pending : t.pending = s.pending
  reads : t.reads = s.reads
  draw : t.draw = s.draw

/-- The success report (R223): ERR is OK and STICKY is unchanged. -/
structure Succeeded (s t : State) : Prop where
  err : t.err = .ok
  sticky : t.sticky = s.sticky

/-! ### The invariants of R45 -/

/-- The sum of all FREQ entries (R22). -/
def freqSum (s : State) : Nat := ((List.range s.nsym).map fun sym => (s.freq.read sym).toNat).sum

/-- Every internal memory has its canonical form. -/
structure MemoriesCanonical (s : State) : Prop where
  freq : s.freq.wf
  inq : s.inq.wf
  ctlen : s.ctlen.wf
  ctcode : s.ctcode.wf

/-- R45 item 9. -/
structure BufferBounds (s : State) : Prop where
  brp : s.brp.toNat ≤ s.blen
  blen : s.blen ≤ s.params.maxbits
  prp : s.prp.toNat ≤ s.plen
  plen : s.plen ≤ s.params.pbmax

/-- R45 item 2, the part beside the code table and TV. -/
structure IdleClean (s : State) : Prop where
  node : s.tbs = .idle → s.node = []
  nsyms : s.tbs = .idle → s.nsyms = 0
  root : s.tbs = .idle → s.root = 0
  inq : s.tbs = .idle → s.inq = []

/-- The code table is empty until the ASSIGN step has written it (R29; R45 item 2 is the case of IDLE). -/
structure NoCodesBeforeDone (s : State) : Prop where
  ctlen : s.tbs ≠ .done → s.ctlen = []
  ctcode : s.tbs ≠ .done → s.ctcode = []

/-- R45 item 4. -/
structure MergeQueue (s : State) : Prop where
  two : s.tbs = .merge → 2 ≤ s.nsyms.toNat
  low : s.tbs = .merge → s.nsyms.toNat ≤ s.nnodes
  high : s.tbs = .merge → s.nnodes + 2 ≤ 2 * s.nsyms.toNat
  count : s.tbs = .merge → s.queue.length + s.nnodes = 2 * s.nsyms.toNat
  valid : s.tbs = .merge → ∀ i ∈ s.queue, i < s.nnodes

/-- TBS is ASSIGN or DONE. -/
abbrev State.finished (s : State) : Prop := s.tbs = .assign ∨ s.tbs = .done

/-- R45 item 5. -/
structure FinishedTree (s : State) : Prop where
  queue : s.finished → s.inq = []
  none : s.finished → s.nsyms = 0 → s.node = [] ∧ s.root = 0 ∧ s.tbs = .done
  slots : s.finished → s.nsyms ≠ 0 → s.nnodes + 1 = 2 * s.nsyms.toNat
  root : s.finished → s.nsyms ≠ 0 → s.root.toNat + 1 = s.nnodes

/-- Slot i is a child of slot j, an internal node. -/
abbrev childOf (node : List Node) (i j : Nat) : Prop :=
  ∃ nd ∈ node[j]?, nd.leaf = false ∧ (nd.left.toNat = i ∨ nd.right.toNat = i)

/-- R45 items 6 and 7, and R24 of an internal slot: the first NSYMS slots are the leaves of the alphabet in ascending order
of symbol, with their counts; the rest are internal, with two distinct lower-numbered children whose frequencies they sum;
each valid slot but the root and the queued slots is the child of exactly one internal slot, and a queued slot is no child
(counting the slots gives this from the rest). -/
structure TreeShape (s : State) : Prop where
  leaves : s.tbs ≠ .idle → s.node.take s.nsyms.toNat = s.alphabet.map s.leafOf
  count : s.tbs ≠ .idle → s.nsyms.toNat = s.alphabet.length
  internal : ∀ nd ∈ s.node.drop s.nsyms.toNat, nd.leaf = false ∧ nd.sym = 0
  lower : ∀ j < s.nnodes, ∀ nd ∈ s.node[j]?, nd.leaf = false → nd.left.toNat < j ∧ nd.right.toNat < j
  distinct : ∀ nd ∈ s.node, nd.leaf = false → nd.left ≠ nd.right
  sums : ∀ nd ∈ s.node, nd.leaf = false →
    ∀ l ∈ s.node[nd.left.toNat]?, ∀ r ∈ s.node[nd.right.toNat]?, nd.freq = l.freq + r.freq
  parent : ∀ i < s.nnodes, i ∉ s.queue → ¬ (s.finished ∧ i = s.root.toNat) →
    ∃ j < s.nnodes, childOf s.node i j ∧ ∀ k < s.nnodes, childOf s.node i k → k = j
  orphans : ∀ i ∈ s.queue, ∀ k < s.nnodes, ¬ childOf s.node i k

/-- The frequency of a slot; 0 of a slot that is not valid. -/
def State.freqAt (s : State) (i : Nat) : Nat :=
  match s.node[i]? with
  | some nd => nd.freq.toNat
  | none => 0

/-- The queued slots weigh TOTAL together (R124 derives from it that no sum overflows), and so does the root (R130). -/
structure TreeWeight (s : State) : Prop where
  queued : s.tbs = .merge → (s.queue.map s.freqAt).sum = s.total.toNat
  root : s.finished → s.nsyms ≠ 0 → s.freqAt s.root.toNat = s.total.toNat

/-- R45 item 8 and the bounds of R29. -/
structure TableComplete (s : State) : Prop where
  alphabet : s.tbs = .done → ∀ sym < s.nsym, (s.ctlen.read sym ≠ 0 ↔ s.freq.read sym ≠ 0)
  bound : s.tbs = .done → ∀ sym < s.nsym, (s.ctlen.read sym).toNat ≤ s.params.maxlen
  value : s.tbs = .done → ∀ sym < s.nsym, (s.ctcode.read sym).toNat < 2 ^ (s.ctlen.read sym).toNat
  free : s.tbs = .done → ∀ x < s.nsym, ∀ y < s.nsym, s.ctlen.read x ≠ 0 → s.ctlen.read y ≠ 0 → x ≠ y →
    ¬ (s.codeOf x <+: s.codeOf y)

/-- While the reset clear is in progress every element it or a command would write has its value after reset (R250, R251). -/
structure ClearingFresh (s : State) : Prop where
  freq : s.phase = .clearing → s.freq = [] ∧ s.total = 0
  tree : s.phase = .clearing → s.tbs = .idle ∧ s.inq = []
  codes : s.phase = .clearing → s.ctlen = [] ∧ s.ctcode = []

/-- The invariant of R45 (items 1 to 9; item 3 is how TV is computed, R32), with the canonical form of the memories, the
ranges of the parameters, and the state of the reset clear. -/
structure Inv (s : State) : Prop where
  params : s.params.wf
  canonical : MemoriesCanonical s
  total : s.total.toNat = freqSum s
  idle : IdleClean s
  codes : NoCodesBeforeDone s
  merge : MergeQueue s
  finished : FinishedTree s
  tree : TreeShape s
  weight : TreeWeight s
  table : TableComplete s
  bounds : BufferBounds s
  clearing : ClearingFresh s

/-! ### The tree as R121 and R140 read it -/

/-- key(i) < key(j) of R121. -/
def State.keyBelow (s : State) (i j : Nat) : Prop :=
  s.freqAt i < s.freqAt j ∨ (s.freqAt i = s.freqAt j ∧ i < j)

/-- The slot a path leads to from slot i, 0 for each step to a left child and 1 for each to a right (R140). -/
def walk (node : List Node) (i : Nat) : Bits → Option Nat
  | [] => some i
  | b :: p =>
    match node[i]? with
    | none => none
    | some nd => if nd.leaf then none else walk node (if b then nd.right.toNat else nd.left.toNat) p

/-- The path p leads from the root to the leaf of a symbol. -/
def State.pathOf (s : State) (sym : Nat) (p : Bits) : Prop :=
  ∃ i, walk s.node s.root.toNat p = some i ∧ ∃ nd ∈ s.node[i]?, nd.leaf = true ∧ nd.sym.toNat = sym

/-! ### Encodings, by the bit positions of R82 to R85 -/

/-- OPC with format N stands for one command, and a 1 in CMD[23:0] is illegal. -/
def encodesN (opc : BitVec 8) (i : Instr) : Prop :=
  ∀ w, opcField w = opc →
    decode w = if w.extractLsb' 0 24 = 0 then .command i else .illegal .reservedBit

/-- OPC with format S takes SYM from CMD[15:0], and a 1 in CMD[23:16] is illegal. -/
def encodesS (opc : BitVec 8) (i : Nat → Instr) : Prop :=
  ∀ w, opcField w = opc →
    decode w = if w.extractLsb' 16 8 = 0 then .command (i (w.extractLsb' 0 16).toNat) else .illegal .reservedBit

/-- OPC with format B takes BIT from CMD[0], and a 1 in CMD[23:1] is illegal. -/
def encodesB (opc : BitVec 8) (i : Bool → Instr) : Prop :=
  ∀ w, opcField w = opc →
    decode w = if w.extractLsb' 1 23 = 0 then .command (i (w.getLsbD 0)) else .illegal .reservedBit

/-- OPC with format L takes LEN from CMD[7:0], and a 1 in CMD[23:8] is illegal. -/
def encodesL (opc : BitVec 8) (i : Nat → Instr) : Prop :=
  ∀ w, opcField w = opc →
    decode w = if w.extractLsb' 8 16 = 0 then .command (i (w.extractLsb' 0 8).toNat) else .illegal .reservedBit

/-- The unlisted OPC values of R90 (a). -/
def unlistedOpcode (o : Nat) : Prop :=
  (0x02 ≤ o ∧ o ≤ 0x0F) ∨ (0x14 ≤ o ∧ o ≤ 0x1F) ∨ (0x23 ≤ o ∧ o ≤ 0x2F) ∨ (0x34 ≤ o ∧ o ≤ 0x3F)
    ∨ (0x44 ≤ o ∧ o ≤ 0x4F) ∨ (0x55 ≤ o ∧ o ≤ 0xFF)

/-! ### Errors -/

/-- A command reports an error and has no other effect (R224). -/
def reports (i : Instr) (s : State) (e : Err) : Prop := exec i s = .next { s with err := e, sticky := true }

/-- The errors each command can report, first check first (R227), beside ILLEGAL_CMD of a word that does not decode. -/
def checksOf : Instr → List Err
  | .nop => []
  | .srst => []
  | .clrfreq => []
  | .count _ => [.badSymbol, .sequence, .freqOverflow]
  | .setfreq _ => [.badSymbol, .sequence, .freqOverflow]
  | .getfreq _ => [.badSymbol]
  | .build => [.codeTooLong]
  | .bstep => [.codeTooLong]
  | .tnode => [.range]
  | .lookup _ => [.badSymbol, .codeTableUnavailable, .unknownSymbol]
  | .dlookup _ => [.codeTableUnavailable, .range, .noMatch]
  | .enc _ => [.badSymbol, .codeTableUnavailable, .unknownSymbol, .bitbufOverflow]
  | .dec => [.codeTableUnavailable, .truncatedStream]
  | .bclr => []
  | .bput _ => [.bitbufOverflow]
  | .bget => []
  | .brwd => []
  | .pclr => []
  | .pwr => [.pbufOverflow]
  | .prd => []
  | .pack => []
  | .unpack => [.corruptBuffer]

/-! ### Runs of several commands -/

/-- Perform commands one after another, each from the state the one before left (R70). -/
def performAll : List Instr → State → Answer
  | [], s => .next s
  | i :: is, s =>
    match exec i s with
    | .next t => performAll is t
    | .fault f => .fault f
    | .refused r => .refused r

/-- A number of BSTEPs (R127). -/
def bsteps (n : Nat) (s : State) : Answer := performAll (List.replicate n .bstep) s

/-- The codes of a text, concatenated in text order (R161). -/
def State.codesOf (s : State) (text : List Nat) : Bits := text.flatMap s.codeOf

/-- DEC repeated returns the symbols of a text in RES0, one a DEC, and the DEC after the last sets EOS (R174). -/
def decodesTo : State → List Nat → Prop
  | s, [] => ∃ t, exec .dec s = .next t ∧ t.err = .ok ∧ t.eos = true ∧ t.res0 = s.res0
  | s, sym :: text => ∃ t, exec .dec s = .next t ∧ t.err = .ok ∧ t.eos = false ∧ t.res0.toNat = sym ∧ decodesTo t text

/-! ### The handshake -/

/-- The engine moves at the next step: it is its turn, or nothing else is pending. -/
abbrev State.enginesTurn (s : State) : Prop := s.pending = [] ∨ s.pending.head? = some .engineTurn

/-- An access inside the interface (R65, R250): 32 bits, at a multiple of 4 in the window, the reset input not asserted. -/
abbrev State.validAccess (s : State) (addr : Nat) : Prop :=
  s.phase ≠ .inReset ∧ ∃ k < 64, addr = s.params.base + 4 * k

/-- An event that only lets time pass: a turn of the engine, or a read inside the interface (the WAIT loop of R253). -/
abbrev onlyWaits (p : Params) (e : Event) : Prop :=
  e = .engineTurn ∨ ∃ k < 64, e = .read .w32 (p.base + 4 * k)

/-- A host event that respects the hazards of R258: a write of CMD or DATA, and a read of anything but STATUS, only with
BUSY = 0. -/
def respectsHazards (s : State) : Event → Prop
  | .read _ addr => s.busy = false ∨ addr = s.params.base + Reg.status.offset
  | .write _ _ _ => s.busy = false
  | .engineTurn => True
  | .resetAssert => True
  | .resetRelease => True

/-- The engine performs a command at the next step. -/
def State.performs (s : State) (i : Instr) : Prop :=
  s.enginesTurn ∧ s.phase = .command ∧ decode s.cmdl = .command i

/-- The reset input is released at the next step, or the reset clear completes. -/
def State.resets (s : State) : Prop :=
  (s.phase = .inReset ∧ s.pending.head? = some .resetRelease) ∨ (s.phase = .clearing ∧ s.enginesTurn)

/-- A host access inside the interface, of either kind, while the reset clear is in progress or a command is (R256, R257). -/
abbrev isAccess (p : Params) (e : Event) : Prop :=
  (∃ k < 64, e = .read .w32 (p.base + 4 * k)) ∨ (∃ k < 64, ∃ v, e = .write .w32 (p.base + 4 * k) v)

/-- A write of CMD or DATA. -/
abbrev writesOperand (p : Params) (e : Event) : Prop :=
  ∃ r v, (r = Reg.cmd ∨ r = Reg.data) ∧ e = writeEvent p r v

/-- A write of CMD: the host hands a command over. -/
abbrev writesCommand (p : Params) (e : Event) : Prop := ∃ w, e = writeEvent p .cmd w

/-- An event of the reset input. -/
abbrev isReset (e : Event) : Prop := e = .resetAssert ∨ e = .resetRelease

/-- The next step is a STATUS read that returns BUSY = 0, and the host writes CMD no more after it. -/
structure State.lastPoll (s : State) : Prop where
  ready : s.busy = false
  next : s.pending.head? = some (readEvent s.params .status)
  after : ∀ e ∈ s.pending.tail, ¬ writesCommand s.params e

/-- The end of a run (R264) of the host program that s.pending holds, in t after n steps: the host has performed its last
operation, and a STATUS read has returned BUSY = 0 after its last CMD write. A program that writes no CMD ends with a STATUS
read of its own too: DESIGN CHOICE (log 21). That no command is pending in t follows and is not asked. -/
structure State.runEnds (s : State) (n : Nat) (t : State) : Prop where
  steps : Sys2Proof.core.run n s = .next t
  performed : t.pending = []
  polled : ∃ k < n, ∃ u : State, Sys2Proof.core.run k s = .next u ∧ u.lastPoll

end Sys2Proof.Machine
end

