-- ==== Sys2Proof/Certificates/Slice0/Obligations.lean ====
section
/-! DEFINITION. The statements for the provers. Each docstring names the rule of spec/ it formalises. -/

open Sys2Proof Sys2Proof.Machine

/-! ### Encoding -/

/-- R82 to R89: no bit of an encoding is dropped. -/
def Obligations.DecodeInvertsEncode : Prop :=
  ∀ i : Instr, i.wellFormed = true → decode (encode i) = .command i

/-- R81, R89, R90: a word that decodes is the word of the command it decodes to, so each command has one word. -/
def Obligations.EncodeInvertsDecode : Prop :=
  ∀ (w : Word) (i : Instr), decode w = .command i → i.wellFormed = true ∧ encode i = w

/-- R88, and the examples of R93: a few words written out from the spec. -/
def Obligations.SampleWordsDecode : Prop :=
  decode 0x11000061 = .command (.count 0x61) ∧ decode 0x41000001 = .command (.bput true)
    ∧ decode 0x31000002 = .command (.dlookup 2) ∧ decode 0x20000000 = .command .build
    ∧ decode 0x54000000 = .command .unpack ∧ decode 0x41000002 = .illegal .reservedBit
    ∧ decode 0xFF000000 = .illegal .unlistedOpc

/-- R90: which words are illegal, and what performing one does. -/
def Obligations.IllegalEncodings : Prop :=
  (∀ w : Word, (∃ why, decode w = .illegal why) ↔
    unlistedOpcode (opcField w).toNat
      ∨ ∃ r ∈ opcodeRows, opcField r.pattern = opcField w ∧ w &&& r.mask &&& 0x00FFFFFF ≠ 0)
  ∧ ∀ (s : State) (why : IllegalWord), decode s.cmdl = .illegal why →
      performLatched s = .next { s with err := .illegalCmd, sticky := true }

/-! ### The engine step and the reports -/

/-- R89, R255: at its turn the engine performs the command in CMDL and sets BUSY to 0 in one transition, or raises
ILLEGAL_CMD. R251: in the reset clear it ends the clear. R239, R250: with BUSY = 0 or the reset input asserted it does nothing
(log 15, an inference of the model's). When the turn comes is State.pending's, the model's own (log 3). -/
def Obligations.StepRunsLatchedCommand : Prop :=
  ∀ s : State, s.enginesTurn →
    (s.phase = .command →
      (∀ i, decode s.cmdl = .command i → step s = exec i { s with phase := .idle, pending := s.pending.tail })
      ∧ (∀ why, decode s.cmdl = .illegal why →
          step s = .next { s with phase := .idle, pending := s.pending.tail, err := .illegalCmd, sticky := true }))
    ∧ (s.phase = .clearing →
        step s = .next { s with
          freq := [], inq := [], ctlen := [], ctcode := [], phase := .idle, pending := s.pending.tail })
    ∧ (s.phase = .idle ∨ s.phase = .inReset → step s = .next { s with pending := s.pending.tail })

/-- R223, R224: a command that reports an error writes ERR and STICKY and nothing else; one that succeeds leaves STICKY
unchanged, but for SRST, which clears it. -/
def Obligations.ReportsOfCommands : Prop :=
  (∀ (i : Instr) (s t : State), exec i s = .next t → t.err ≠ .ok → t = { s with err := t.err, sticky := true })
  ∧ (∀ (i : Instr) (s t : State), exec i s = .next t → t.err = .ok → t.sticky = if i = .srst then false else s.sticky)
  ∧ ∀ (s : State) (why : IllegalWord), decode s.cmdl = .illegal why →
      performLatched s = .next { s with err := .illegalCmd, sticky := true }

/-- R220, R227, R255: every command but BSTEP and BUILD completes in every state, no command is refused, and a command
reports no error but those of its row. -/
def Obligations.CommandsCompleteWithListedErrors : Prop :=
  (∀ (i : Instr) (s : State), i ≠ .bstep → i ≠ .build → ∃ t, exec i s = .next t)
  ∧ (∀ (i : Instr) (s : State) (r : Refusal), exec i s ≠ .refused r)
  ∧ ∀ (i : Instr) (s t : State), exec i s = .next t → t.err = .ok ∨ t.err ∈ checksOf i

/-- R225, R256: STICKY and OVERRUN, once set, are cleared only by SRST and by a reset. -/
def Obligations.StickyAndOverrunPersist : Prop :=
  ∀ s t : State, step s = .next t → ¬ s.resets → ¬ s.performs .srst →
    (s.sticky = true → t.sticky = true) ∧ (s.overrun = true → t.overrun = true)

/-! ### Results of the commands -/

/-- R210: NOP writes ERR = 0 and nothing else. -/
def Obligations.NopResult : Prop :=
  encodesN 0x00 .nop ∧ ∀ s : State, exec .nop s = .next { s with err := .ok }

/-- R46, R211: SRST puts every element at its value after reset but BUSY, and keeps the parameters; State.reset has the same
values, with BUSY = 1. CMDL, which R46 leaves unspecified, is not spoken of. -/
def Obligations.SoftResetResult : Prop :=
  encodesN 0x01 .srst
  ∧ (∀ s : State, ∃ t, exec .srst s = .next t
      ∧ t.freq = [] ∧ t.total = 0 ∧ t.tbs = .idle ∧ t.nnodes = 0 ∧ t.inq = [] ∧ t.nsyms = 0 ∧ t.root = 0
      ∧ t.ctlen = [] ∧ t.ctcode = [] ∧ t.tv = false ∧ t.lmax = 0 ∧ t.blen = 0 ∧ t.brp = 0 ∧ t.plen = 0 ∧ t.prp = 0
      ∧ t.data = 0 ∧ t.res0 = 0 ∧ t.res1 = 0 ∧ t.res2 = 0
      ∧ t.eos = false ∧ t.sticky = false ∧ t.overrun = false ∧ t.err = .ok
      ∧ t.phase = s.phase ∧ t.params = s.params ∧ t.pending = s.pending ∧ t.reads = s.reads)

/-- R46, R250: the state right after reset, every value the spec gives, the constants of R37 to R39 with the default
parameters. CMDL, which R46 leaves unspecified, is not spoken of. That the reset clear is still to complete is the model's
choice (log 5). -/
def Obligations.ResetValues : Prop :=
  State.reset.freq = [] ∧ State.reset.total = 0 ∧ State.reset.tbs = .idle ∧ State.reset.nnodes = 0
  ∧ State.reset.inq = [] ∧ State.reset.nsyms = 0 ∧ State.reset.root = 0
  ∧ State.reset.ctlen = [] ∧ State.reset.ctcode = [] ∧ State.reset.tv = false ∧ State.reset.lmax = 0
  ∧ State.reset.blen = 0 ∧ State.reset.brp = 0 ∧ State.reset.plen = 0 ∧ State.reset.prp = 0
  ∧ State.reset.data = 0 ∧ State.reset.res0 = 0 ∧ State.reset.res1 = 0 ∧ State.reset.res2 = 0
  ∧ State.reset.busy = true ∧ State.reset.phase = .clearing
  ∧ State.reset.eos = false ∧ State.reset.sticky = false ∧ State.reset.overrun = false ∧ State.reset.err = .ok
  ∧ idWord = 0x48554646 ∧ State.reset.configWord = 0x00004008 ∧ State.reset.maxbitsWord = 0x00010000

/-- R101: CLRFREQ. -/
def Obligations.ClearFrequencyResult : Prop :=
  encodesN 0x10 .clrfreq
  ∧ ∀ s : State, ∃ t, exec .clrfreq s = .next t
      ∧ (∀ sym, t.freq.read sym = 0 ∧ t.ctlen.read sym = 0 ∧ t.ctcode.read sym = 0) ∧ (∀ i, t.inq.read i = 0)
      ∧ t.total = 0 ∧ t.nnodes = 0 ∧ t.nsyms = 0 ∧ t.root = 0 ∧ t.tbs = .idle ∧ t.tv = false
      ∧ Succeeded s t ∧ SameBits s t ∧ SamePacked s t ∧ SameResults s t ∧ SameInterface s t ∧ t.eos = s.eos

/-- R102: COUNT, its checks in order and its result. The premise that FREQ is in canonical form is kept by every step
(StepKeepsCanonicalMemories). -/
def Obligations.CountResult : Prop :=
  encodesS 0x11 .count
  ∧ ∀ (s : State) (sym : Nat), s.freq.wf →
      (s.nsym ≤ sym → reports (.count sym) s .badSymbol)
      ∧ (sym < s.nsym → s.tbs ≠ .idle → reports (.count sym) s .sequence)
      ∧ (sym < s.nsym → s.tbs = .idle → s.total.toNat = 2 ^ 32 - 1 → reports (.count sym) s .freqOverflow)
      ∧ (sym < s.nsym → s.tbs = .idle → s.total.toNat ≠ 2 ^ 32 - 1 →
          ∃ t, exec (.count sym) s = .next t ∧ t.freq.read sym = s.freq.read sym + 1
            ∧ (∀ x, x ≠ sym → t.freq.read x = s.freq.read x) ∧ t.total.toNat = s.total.toNat + 1
            ∧ Succeeded s t ∧ SameTree s t ∧ SameCodeTable s t ∧ SameBits s t ∧ SamePacked s t
            ∧ SameResults s t ∧ SameInterface s t ∧ t.eos = s.eos)

/-- R103: SETFREQ, its checks in order and its result. The premises are R45 item 1 of one symbol and the canonical form. -/
def Obligations.SetFrequencyResult : Prop :=
  encodesS 0x12 .setfreq
  ∧ ∀ (s : State) (sym : Nat), s.freq.wf → (s.freq.read sym).toNat ≤ s.total.toNat →
      (s.nsym ≤ sym → reports (.setfreq sym) s .badSymbol)
      ∧ (sym < s.nsym → s.tbs ≠ .idle → reports (.setfreq sym) s .sequence)
      ∧ (sym < s.nsym → s.tbs = .idle →
          2 ^ 32 - 1 < s.total.toNat - (s.freq.read sym).toNat + s.data.toNat →
          reports (.setfreq sym) s .freqOverflow)
      ∧ (sym < s.nsym → s.tbs = .idle →
          s.total.toNat - (s.freq.read sym).toNat + s.data.toNat ≤ 2 ^ 32 - 1 →
          ∃ t, exec (.setfreq sym) s = .next t ∧ t.freq.read sym = s.data
            ∧ (∀ x, x ≠ sym → t.freq.read x = s.freq.read x)
            ∧ t.total.toNat = s.total.toNat - (s.freq.read sym).toNat + s.data.toNat
            ∧ Succeeded s t ∧ SameTree s t ∧ SameCodeTable s t ∧ SameBits s t ∧ SamePacked s t
            ∧ SameResults s t ∧ SameInterface s t ∧ t.eos = s.eos)

/-- R104: GETFREQ. -/
def Obligations.GetFrequencyResult : Prop :=
  encodesS 0x13 .getfreq
  ∧ ∀ (s : State) (sym : Nat),
      (s.nsym ≤ sym → reports (.getfreq sym) s .badSymbol)
      ∧ (sym < s.nsym → exec (.getfreq sym) s = .next { s with res0 := s.freq.read sym, err := .ok })

/-- R126: BSTEP and BUILD in DONE change nothing but ERR, and the tree and the code table stay until CLRFREQ, SRST or
reset. -/
def Obligations.DoneStepsAreNoOps : Prop :=
  (∀ s : State, s.tbs = .done →
    exec .bstep s = .next { s with err := .ok } ∧ exec .build s = .next { s with err := .ok })
  ∧ ∀ s t : State, s.tbs = .done → step s = .next t → ¬ s.resets → ¬ s.performs .clrfreq → ¬ s.performs .srst →
      SameTree s t ∧ SameCodeTable s t

/-- R100, R123: the INIT step. The premise is the part of Inv that speaks of IDLE. -/
def Obligations.InitStepResult : Prop :=
  ∀ s : State, s.params.wf → IdleClean s → s.tbs = .idle →
    ∃ t, exec .bstep s = .next t
      ∧ t.node = s.alphabet.map s.leafOf ∧ t.nsyms.toNat = s.alphabet.length ∧ t.root = 0
      ∧ (s.alphabet.length = 0 → t.tbs = .done ∧ t.queue = [])
      ∧ (s.alphabet.length = 1 → t.tbs = .assign ∧ t.queue = [])
      ∧ (2 ≤ s.alphabet.length → t.tbs = .merge ∧ t.queue = List.range s.alphabet.length)
      ∧ Succeeded s t ∧ SameFrequency s t ∧ SameCodeTable s t ∧ SameBits s t ∧ SamePacked s t ∧ SameResults s t
      ∧ SameInterface s t ∧ t.eos = s.eos

/-- R121, R122, R124: the MERGE step extracts the two least keys and inserts their parent, whose frequency is their exact
sum; where it is alone, it is the root. -/
def Obligations.MergeStepResult : Prop :=
  ∀ s : State, Inv s → s.tbs = .merge →
    ∃ t a b, exec .bstep s = .next t ∧ a ∈ s.queue ∧ b ∈ s.queue ∧ a ≠ b
      ∧ (∀ i ∈ s.queue, i ≠ a → s.keyBelow a i) ∧ (∀ i ∈ s.queue, i ≠ a → i ≠ b → s.keyBelow b i)
      ∧ (∃ nd, t.node = s.node ++ [nd] ∧ nd.freq.toNat = s.freqAt a + s.freqAt b ∧ nd.leaf = false ∧ nd.sym = 0
          ∧ nd.left.toNat = a ∧ nd.right.toNat = b)
      ∧ (2 < s.queue.length → t.tbs = .merge ∧ t.root = s.root
          ∧ ∀ i, i ∈ t.queue ↔ (i ∈ s.queue ∧ i ≠ a ∧ i ≠ b) ∨ i = s.nnodes)
      ∧ (s.queue.length = 2 → t.tbs = .assign ∧ t.root.toNat = s.nnodes ∧ t.queue = [])
      ∧ t.nsyms = s.nsyms
      ∧ Succeeded s t ∧ SameFrequency s t ∧ SameCodeTable s t ∧ SameBits s t ∧ SamePacked s t ∧ SameResults s t
      ∧ SameInterface s t ∧ t.eos = s.eos

/-- R125, R140 to R143: the ASSIGN step gives every symbol of the alphabet the path that leads from the root to its leaf, "0"
where it is the only one, and no code to any other symbol; where some path is longer than MAXLEN it raises CODE_TOO_LONG. -/
def Obligations.AssignStepResult : Prop :=
  ∀ s : State, Inv s → s.tbs = .assign →
    (s.nsyms ≠ 1 → (∃ sym p, s.pathOf sym p ∧ s.params.maxlen < p.length) → reports .bstep s .codeTooLong)
    ∧ ((∀ sym p, s.pathOf sym p → p.length ≤ s.params.maxlen) →
        ∃ t, exec .bstep s = .next t ∧ t.tbs = .done
          ∧ (∀ sym < s.nsym, s.freq.read sym = 0 → t.ctlen.read sym = 0 ∧ t.ctcode.read sym = 0)
          ∧ (s.nsyms = 1 → ∀ sym < s.nsym, s.freq.read sym ≠ 0 → t.codeOf sym = [false])
          ∧ (s.nsyms ≠ 1 → ∀ sym < s.nsym, s.freq.read sym ≠ 0 → s.pathOf sym (t.codeOf sym))
          ∧ t.node = s.node ∧ t.inq = s.inq ∧ t.nsyms = s.nsyms ∧ t.root = s.root
          ∧ Succeeded s t ∧ SameFrequency s t ∧ SameBits s t ∧ SamePacked s t ∧ SameResults s t
          ∧ SameInterface s t ∧ t.eos = s.eos)

/-- R127, R128: a BUILD that succeeds ends where some number of BSTEPs ends: at most NSYM + 1 in any state, and at most
NSYMS + 1, as R128 derives, in a state that meets the invariant. -/
def Obligations.BuildIsRepeatedBstep : Prop :=
  encodesN 0x20 .build ∧ encodesN 0x21 .bstep
  ∧ ∀ s t : State, exec .build s = .next t → t.err = .ok →
      t.tbs = .done ∧ ∃ n, 1 ≤ n ∧ n ≤ s.nsym + 1 ∧ (Inv s → n ≤ t.nsyms.toNat + 1) ∧ bsteps n s = .next t

/-- R128, R142: BUILD either ends in DONE with a success report, or keeps the state and reports CODE_TOO_LONG. It ends in DONE
where the alphabet has at most MAXLEN + 1 symbols, since a tree of m leaves has no path longer than m - 1. Where some number
of BSTEPs leads to ASSIGN, the tree they have built decides: BUILD ends in DONE with that tree where no path in it is longer
than MAXLEN, and reports CODE_TOO_LONG where one is. -/
def Obligations.BuildCompletes : Prop :=
  (∀ s : State, Inv s →
    reports .build s .codeTooLong ∨ ∃ t, exec .build s = .next t ∧ t.tbs = .done ∧ Succeeded s t)
  ∧ (∀ s : State, Inv s → s.alphabet.length ≤ s.params.maxlen + 1 →
    ∃ t, exec .build s = .next t ∧ t.tbs = .done ∧ t.nsyms.toNat = s.alphabet.length
      ∧ (∀ sym < s.nsym, (t.ctlen.read sym ≠ 0 ↔ s.freq.read sym ≠ 0))
      ∧ Succeeded s t ∧ SameFrequency s t ∧ SameBits s t ∧ SamePacked s t ∧ SameResults s t
      ∧ SameInterface s t ∧ t.eos = s.eos)
  ∧ ∀ (s u : State) (n : Nat), Inv s → bsteps n s = .next u → u.tbs = .assign →
      ((∀ sym p, u.pathOf sym p → p.length ≤ s.params.maxlen) →
        ∃ t, exec .build s = .next t ∧ t.tbs = .done ∧ t.node = u.node ∧ t.root = u.root ∧ Succeeded s t)
      ∧ ((∃ sym p, u.pathOf sym p ∧ s.params.maxlen < p.length) → reports .build s .codeTooLong)

/-- The tree and the code table are a function of FREQ alone (and of the parameters). The spec derives this in R131 from R121
to R124 and R141. -/
def Obligations.BuildDependsOnFrequenciesAlone : Prop :=
  ∀ s s' t t' : State, Inv s → Inv s' → s.tbs = .idle → s'.tbs = .idle → s.freq = s'.freq → s.params = s'.params →
    exec .build s = .next t → exec .build s' = .next t' →
    t.node = t'.node ∧ t.root = t'.root ∧ t.ctlen = t'.ctlen ∧ t.ctcode = t'.ctcode ∧ t.tbs = t'.tbs ∧ t.err = t'.err

/-- R129: TNODE. Every child is below 2^30 in a reachable state (R9, R24), so it fits RES1[29:0]. -/
def Obligations.TreeNodeResult : Prop :=
  encodesN 0x22 .tnode
  ∧ ∀ s : State,
      (s.nnodes ≤ s.data.toNat → reports .tnode s .range)
      ∧ ∀ nd, s.node[s.data.toNat]? = some nd → (nd.leaf = false → nd.left.toNat < 2 ^ 30) →
          ∃ t, exec .tnode s = .next t ∧ t.res0 = nd.freq
            ∧ t.res1.getLsbD 31 = nd.leaf ∧ t.res1.getLsbD 30 = decide (s.inq.read s.data.toNat = 1)
            ∧ (t.res1.extractLsb' 0 30).toNat = (if nd.leaf then nd.sym.toNat else nd.left.toNat)
            ∧ t.res2 = (if nd.leaf then 0 else nd.right)
            ∧ Succeeded s t ∧ SameFrequency s t ∧ SameTree s t ∧ SameCodeTable s t ∧ SameBits s t ∧ SamePacked s t
            ∧ SameInterface s t ∧ t.eos = s.eos

/-- R147: LOOKUP. -/
def Obligations.LookupResult : Prop :=
  encodesS 0x30 .lookup
  ∧ ∀ (s : State) (sym : Nat),
      (s.nsym ≤ sym → reports (.lookup sym) s .badSymbol)
      ∧ (sym < s.nsym → s.tbs ≠ .done → reports (.lookup sym) s .codeTableUnavailable)
      ∧ (sym < s.nsym → s.tbs = .done → s.ctlen.read sym = 0 → reports (.lookup sym) s .unknownSymbol)
      ∧ (sym < s.nsym → s.tbs = .done → s.ctlen.read sym ≠ 0 →
          ∃ t, exec (.lookup sym) s = .next t ∧ t.res0.toNat = (s.ctlen.read sym).toNat
            ∧ t.res2 ++ t.res1 = s.ctcode.read sym
            ∧ Succeeded s t ∧ SameFrequency s t ∧ SameTree s t ∧ SameCodeTable s t ∧ SameBits s t ∧ SamePacked s t
            ∧ SameInterface s t ∧ t.eos = s.eos)

/-- R30: the decode table is the inverse of the encode table. The premise is R45 item 8, which the spec derives (R145). -/
def Obligations.DecodeTableInvertsEncodeTable : Prop :=
  ∀ s : State, s.params.wf → TableComplete s → s.tbs = .done → ∀ (c : Bits) (sym : Nat),
    s.dt c = some sym ↔ (sym < s.nsym ∧ s.ctlen.read sym ≠ 0 ∧ s.codeOf sym = c)

/-- R148: DLOOKUP. c is the bit sequence of DATA[len-1:0], first bit most significant. -/
def Obligations.DecodeLookupResult : Prop :=
  encodesL 0x31 .dlookup
  ∧ ∀ (s : State) (len : Nat),
      (s.tbs ≠ .done → reports (.dlookup len) s .codeTableUnavailable)
      ∧ (s.tbs = .done → len = 0 ∨ 32 < len → reports (.dlookup len) s .range)
      ∧ (s.tbs = .done → 1 ≤ len → len ≤ 32 → s.dt (bitsOf len s.data.toNat) = none →
          reports (.dlookup len) s .noMatch)
      ∧ (s.tbs = .done → 1 ≤ len → len ≤ 32 → ∀ sym, s.dt (bitsOf len s.data.toNat) = some sym →
          exec (.dlookup len) s = .next { s with res0 := BitVec.ofNat 32 sym, err := .ok })

/-- R160, R162: ENC. The stored bits are those from BLEN up; every bit below BLEN is kept, and BRP with them. -/
def Obligations.EncodeResult : Prop :=
  encodesS 0x32 .enc
  ∧ ∀ (s : State) (sym : Nat),
      (s.nsym ≤ sym → reports (.enc sym) s .badSymbol)
      ∧ (sym < s.nsym → s.tbs ≠ .done → reports (.enc sym) s .codeTableUnavailable)
      ∧ (sym < s.nsym → s.tbs = .done → s.ctlen.read sym = 0 → reports (.enc sym) s .unknownSymbol)
      ∧ (sym < s.nsym → s.tbs = .done → s.ctlen.read sym ≠ 0 →
          s.params.maxbits < s.blen + (s.ctlen.read sym).toNat → reports (.enc sym) s .bitbufOverflow)
      ∧ (sym < s.nsym → s.tbs = .done → s.ctlen.read sym ≠ 0 →
          s.blen + (s.ctlen.read sym).toNat ≤ s.params.maxbits →
          ∃ t, exec (.enc sym) s = .next t ∧ t.blen = s.blen + (s.ctlen.read sym).toNat
            ∧ (∀ k < s.blen, t.bitbuf[k]? = s.bitbuf[k]?)
            ∧ (∀ j < (s.ctlen.read sym).toNat, t.bitbuf[s.blen + j]?
                = some ((s.ctcode.read sym).getLsbD ((s.ctlen.read sym).toNat - 1 - j)))
            ∧ t.brp = s.brp
            ∧ Succeeded s t ∧ SameFrequency s t ∧ SameTree s t ∧ SameCodeTable s t ∧ SamePacked s t ∧ SameResults s t
            ∧ SameInterface s t ∧ t.eos = s.eos)

/-- R170, R171: DEC of a code. -/
def Obligations.DecodeResult : Prop :=
  encodesN 0x33 .dec
  ∧ (∀ s : State, s.tbs ≠ .done → reports .dec s .codeTableUnavailable)
  ∧ (∀ s : State, s.tbs = .done → s.brp.toNat = s.blen → exec .dec s = .next { s with eos := true, err := .ok })
  ∧ ∀ (s : State) (sym : Nat) (rest : Bits), s.params.wf → TableComplete s → BufferBounds s → s.tbs = .done →
      sym < s.nsym → s.ctlen.read sym ≠ 0 → s.bitbuf.drop s.brp.toNat = s.codeOf sym ++ rest →
      ∃ t, exec .dec s = .next t ∧ t.res0.toNat = sym ∧ t.brp.toNat = s.brp.toNat + (s.ctlen.read sym).toNat
        ∧ t.eos = false ∧ t.res1 = s.res1 ∧ t.res2 = s.res2 ∧ t.bitbuf = s.bitbuf
        ∧ Succeeded s t ∧ SameFrequency s t ∧ SameTree s t ∧ SameCodeTable s t ∧ SamePacked s t ∧ SameInterface s t

/-- R172, R173: bits are left and no code is at their head: TRUNCATED_STREAM, and BRP, RES0 and EOS keep their values. -/
def Obligations.TruncatedStreamIsReported : Prop :=
  ∀ s : State, s.tbs = .done → s.bitbuf.drop s.brp.toNat ≠ [] →
    (∀ sym < s.nsym, s.ctlen.read sym ≠ 0 → ¬ (s.codeOf sym <+: s.bitbuf.drop s.brp.toNat)) →
    reports .dec s .truncatedStream

/-- Encoding a text appends the concatenation of its codes, in text order. The spec derives this in R161 from R160. -/
def Obligations.EncodingATextConcatenates : Prop :=
  ∀ (text : List Nat) (s : State), s.tbs = .done → (∀ sym ∈ text, sym < s.nsym ∧ s.ctlen.read sym ≠ 0) →
    s.blen + (s.codesOf text).length ≤ s.params.maxbits →
    ∃ t, performAll (text.map .enc) s = .next t ∧ t.bitbuf = s.bitbuf ++ s.codesOf text ∧ t.brp = s.brp
      ∧ t.sticky = s.sticky ∧ t.eos = s.eos ∧ t.err = (if text = [] then s.err else .ok)
      ∧ SameFrequency s t ∧ SameTree s t ∧ SameCodeTable s t ∧ SamePacked s t ∧ SameResults s t ∧ SameInterface s t

/-- A stream of codes from BRP on decodes to the text it encodes, and then DEC sets EOS. The spec derives this in R174 from
R170, R171 and R161. -/
def Obligations.DecodingAStreamReturnsItsText : Prop :=
  ∀ (text : List Nat) (s : State), s.params.wf → TableComplete s → BufferBounds s → s.tbs = .done →
    (∀ sym ∈ text, sym < s.nsym ∧ s.ctlen.read sym ≠ 0) →
    s.bitbuf.drop s.brp.toNat = s.codesOf text → decodesTo s text

/-- R180, R183, R194: BCLR, BRWD and PCLR. -/
def Obligations.BufferClearResults : Prop :=
  (encodesN 0x40 .bclr ∧ encodesN 0x43 .brwd ∧ encodesN 0x50 .pclr)
  ∧ ∀ s : State,
      exec .bclr s = .next { s with bitbuf := [], brp := 0, err := .ok }
      ∧ exec .brwd s = .next { s with brp := 0, err := .ok }
      ∧ exec .pclr s = .next { s with pbuf := [], prp := 0, err := .ok }

/-- R181, R182: BPUT and BGET. The premise of BGET holds in every reachable state (R45 item 9 and the range of MAXBITS). -/
def Obligations.BitPutAndGetResults : Prop :=
  (encodesB 0x41 .bput ∧ encodesN 0x42 .bget)
  ∧ (∀ (s : State) (bit : Bool),
      (s.blen = s.params.maxbits → reports (.bput bit) s .bitbufOverflow)
      ∧ (s.blen ≠ s.params.maxbits →
          ∃ t, exec (.bput bit) s = .next t ∧ t.blen = s.blen + 1 ∧ t.bitbuf[s.blen]? = some bit
            ∧ (∀ k < s.blen, t.bitbuf[k]? = s.bitbuf[k]?) ∧ t.brp = s.brp
            ∧ Succeeded s t ∧ SameFrequency s t ∧ SameTree s t ∧ SameCodeTable s t ∧ SamePacked s t ∧ SameResults s t
            ∧ SameInterface s t ∧ t.eos = s.eos))
  ∧ ∀ s : State, s.blen < 2 ^ 32 →
      (s.brp.toNat = s.blen → exec .bget s = .next { s with eos := true, err := .ok })
      ∧ ∀ b, s.bitbuf[s.brp.toNat]? = some b →
          ∃ t, exec .bget s = .next t ∧ t.res0.toNat = b.toNat ∧ t.brp.toNat = s.brp.toNat + 1 ∧ t.eos = false
            ∧ t.res1 = s.res1 ∧ t.res2 = s.res2 ∧ t.bitbuf = s.bitbuf
            ∧ Succeeded s t ∧ SameFrequency s t ∧ SameTree s t ∧ SameCodeTable s t ∧ SamePacked s t ∧ SameInterface s t

/-- R195, R197: PWR and PRD. The premise of PRD holds in every reachable state (R45 item 9 and the range of MAXBITS). -/
def Obligations.ByteWriteAndReadResults : Prop :=
  (encodesN 0x51 .pwr ∧ encodesN 0x52 .prd)
  ∧ (∀ s : State,
      (s.plen = s.params.pbmax → reports .pwr s .pbufOverflow)
      ∧ (s.plen ≠ s.params.pbmax →
          ∃ t, exec .pwr s = .next t ∧ t.plen = s.plen + 1 ∧ t.pbuf[s.plen]? = some (s.data.extractLsb' 0 8)
            ∧ (∀ j < s.plen, t.pbuf[j]? = s.pbuf[j]?) ∧ t.prp = s.prp
            ∧ Succeeded s t ∧ SameFrequency s t ∧ SameTree s t ∧ SameCodeTable s t ∧ SameBits s t ∧ SameResults s t
            ∧ SameInterface s t ∧ t.eos = s.eos))
  ∧ ∀ s : State, s.plen < 2 ^ 32 →
      (s.prp.toNat = s.plen → exec .prd s = .next { s with eos := true, err := .ok })
      ∧ ∀ x, s.pbuf[s.prp.toNat]? = some x →
          ∃ t, exec .prd s = .next t ∧ t.res0.toNat = x.toNat ∧ t.prp.toNat = s.prp.toNat + 1 ∧ t.eos = false
            ∧ t.res1 = s.res1 ∧ t.res2 = s.res2 ∧ t.pbuf = s.pbuf
            ∧ Succeeded s t ∧ SameFrequency s t ∧ SameTree s t ∧ SameCodeTable s t ∧ SameBits s t ∧ SameInterface s t

/-- R63, R190, R191, R196: what PACK leaves in the packed buffer, byte for byte and bit for bit. -/
def Obligations.PackResult : Prop :=
  encodesN 0x53 .pack
  ∧ ∀ s : State, s.blen < 2 ^ 32 →
      ∃ t, exec .pack s = .next t ∧ t.plen = 4 + (s.blen + 7) / 8 ∧ t.prp = 0
        ∧ (∀ j < 4, t.pbuf[j]? = some ((BitVec.ofNat 32 s.blen).extractLsb' (24 - 8 * j) 8))
        ∧ (∀ j k, j < (s.blen + 7) / 8 → k < 8 → ∃ x, t.pbuf[4 + j]? = some x
            ∧ x.getLsbD (7 - k) = (s.bitbuf[8 * j + k]?).getD false)
        ∧ Succeeded s t ∧ SameFrequency s t ∧ SameTree s t ∧ SameCodeTable s t ∧ SameBits s t ∧ SameResults s t
        ∧ SameInterface s t ∧ t.eos = s.eos

/-- R191, R192: unpack undoes pack on every bit sequence that fits, and pack undoes unpack on every buffer it accepts. The spec
derives this in R193. -/
def Obligations.PackIsABijection : Prop :=
  ∀ maxbits : Nat, maxbits ≤ 2 ^ 32 - 1 →
    (∀ b : Bits, b.length ≤ maxbits → unpackBytes maxbits (packBits b) = some b)
    ∧ ∀ (p : List Byte) (b : Bits), unpackBytes maxbits p = some b → packBits b = p ∧ b.length ≤ maxbits

/-- R192, R198: UNPACK restores a packed bit sequence, and reports CORRUPT_BUFFER of every other buffer. That these are the
buffers R192 accepts the spec derives in R193. -/
def Obligations.UnpackResult : Prop :=
  encodesN 0x54 .unpack
  ∧ ∀ s : State, s.params.wf →
      (∀ b : Bits, b.length ≤ s.params.maxbits → s.pbuf = packBits b →
          exec .unpack s = .next { s with bitbuf := b, brp := 0, err := .ok })
      ∧ ((∀ b : Bits, b.length ≤ s.params.maxbits → s.pbuf ≠ packBits b) → reports .unpack s .corruptBuffer)

/-! ### Frames -/

/-- R35, R104, R129, R147, R148, R170, R182, R197, R210: the commands that read leave every memory as it was. NOP, TNODE,
GETFREQ, LOOKUP and DLOOKUP change no pointer and no flag but ERR and STICKY; the streaming reads change EOS and their read
position; each writes no result register but its own. -/
def Obligations.ReadCommandsFrame : Prop :=
  ∀ (i : Instr) (s t : State), exec i s = .next t →
    ((i = .nop ∨ i = .tnode ∨ (∃ sym, i = .getfreq sym ∨ i = .lookup sym) ∨ ∃ len, i = .dlookup len) →
      SameFrequency s t ∧ SameTree s t ∧ SameCodeTable s t ∧ SameBits s t ∧ SamePacked s t ∧ SameInterface s t
        ∧ t.eos = s.eos ∧ (i = .nop → t.res0 = s.res0)
        ∧ ((i = .nop ∨ (∃ sym, i = .getfreq sym) ∨ ∃ len, i = .dlookup len) → t.res1 = s.res1 ∧ t.res2 = s.res2))
    ∧ ((i = .dec ∨ i = .bget ∨ i = .prd) →
      SameFrequency s t ∧ SameTree s t ∧ SameCodeTable s t ∧ SameInterface s t
        ∧ (∀ k : Nat, t.bitbuf[k]? = s.bitbuf[k]?) ∧ (∀ k : Nat, t.pbuf[k]? = s.pbuf[k]?)
        ∧ t.res1 = s.res1 ∧ t.res2 = s.res2 ∧ (i = .prd → t.brp = s.brp) ∧ (i ≠ .prd → t.prp = s.prp))

/-- R102, R103: COUNT and SETFREQ change the count of their symbol and TOTAL only. -/
def Obligations.FrequencyWritesFrame : Prop :=
  ∀ (i : Instr) (sym : Nat) (s t : State), (i = .count sym ∨ i = .setfreq sym) → exec i s = .next t →
    (∀ x, x ≠ sym → t.freq.read x = s.freq.read x) ∧ SameTree s t ∧ SameCodeTable s t ∧ SameBits s t ∧ SamePacked s t
      ∧ SameResults s t ∧ SameInterface s t ∧ t.eos = s.eos

/-- R123 to R128: BSTEP and BUILD change the tree and the code table only; the bytes and bits of the buffers and the counts
are as they were. -/
def Obligations.TreeStepsFrame : Prop :=
  ∀ (i : Instr) (s t : State), (i = .bstep ∨ i = .build) → exec i s = .next t →
    SameFrequency s t ∧ SameBits s t ∧ SamePacked s t ∧ SameResults s t ∧ SameInterface s t ∧ t.eos = s.eos

/-- R160, R180, R181, R183, R194, R195, R196, R198: the commands that write a buffer change that buffer only; ENC and BPUT
store from BLEN up and PWR at PLEN, and every bit and byte below is kept. -/
def Obligations.BufferWritesFrame : Prop :=
  ∀ (i : Instr) (s t : State), exec i s = .next t →
    (i = .bclr ∨ i = .brwd ∨ i = .pclr ∨ i = .pwr ∨ i = .pack ∨ i = .unpack ∨ (∃ b, i = .bput b) ∨ ∃ sym, i = .enc sym) →
    SameFrequency s t ∧ SameTree s t ∧ SameCodeTable s t ∧ SameResults s t ∧ SameInterface s t ∧ t.eos = s.eos
      ∧ ((i = .pclr ∨ i = .pwr ∨ i = .pack) → SameBits s t)
      ∧ ((i = .bclr ∨ i = .brwd ∨ i = .unpack ∨ (∃ b, i = .bput b) ∨ ∃ sym, i = .enc sym) → SamePacked s t)
      ∧ (((∃ b, i = .bput b) ∨ ∃ sym, i = .enc sym) → t.brp = s.brp ∧ ∀ k < s.blen, t.bitbuf[k]? = s.bitbuf[k]?)
      ∧ (i = .brwd → t.bitbuf = s.bitbuf) ∧ (i = .pwr → t.prp = s.prp ∧ ∀ j < s.plen, t.pbuf[j]? = s.pbuf[j]?)

/-! ### Rules of the whole machine -/

/-- R21, R105: only CLRFREQ, COUNT, SETFREQ, SRST and reset change FREQ, and COUNT and SETFREQ only in IDLE. -/
def Obligations.FrequencyTableWriters : Prop :=
  ∀ s t : State, step s = .next t → t.freq ≠ s.freq →
    s.resets ∨ s.performs .clrfreq ∨ s.performs .srst
      ∨ ∃ sym, (s.performs (.count sym) ∨ s.performs (.setfreq sym)) ∧ s.tbs = .idle

/-- R23, R126: only BSTEP, BUILD, CLRFREQ, SRST and reset change TBS, and BSTEP and BUILD do not leave DONE. -/
def Obligations.BuilderStateWriters : Prop :=
  ∀ s t : State, step s = .next t → t.tbs ≠ s.tbs →
    s.resets ∨ s.performs .clrfreq ∨ s.performs .srst ∨ ((s.performs .bstep ∨ s.performs .build) ∧ s.tbs ≠ .done)

/-- R29, R149: the code table is read-only once built. Only the ASSIGN step, which ends in DONE, writes it, and CLRFREQ, SRST
and reset clear it. -/
def Obligations.CodeTableIsReadOnly : Prop :=
  ∀ s t : State, step s = .next t → ¬ SameCodeTable s t →
    s.resets ∨ s.performs .clrfreq ∨ s.performs .srst
      ∨ ((s.performs .bstep ∨ s.performs .build) ∧ s.tbs ≠ .done ∧ t.tbs = .done)

/-- R35, R71, R256: no command but SRST writes DATA, so it cannot change while a command is in progress. -/
def Obligations.DataIsTheHosts : Prop :=
  ∀ s t : State, step s = .next t → t.data ≠ s.data →
    s.resets ∨ s.performs .srst
      ∨ (s.busy = false ∧ s.pending.head? = some (writeEvent s.params .data t.data))

/-! ### The register window and the handshake -/

/-- R36: the STATUS word, field by field; the reserved bits read 0. R23, R221: the numbers of TBS and ERR. -/
def Obligations.StatusLayout : Prop :=
  (Tbs.idle.code = 0 ∧ Tbs.merge.code = 1 ∧ Tbs.assign.code = 2 ∧ Tbs.done.code = 3)
  ∧ (Err.ok.code = 0x00 ∧ Err.illegalCmd.code = 0x01 ∧ Err.badSymbol.code = 0x02 ∧ Err.sequence.code = 0x03
    ∧ Err.freqOverflow.code = 0x04 ∧ Err.codeTableUnavailable.code = 0x05 ∧ Err.unknownSymbol.code = 0x06
    ∧ Err.truncatedStream.code = 0x07 ∧ Err.corruptBuffer.code = 0x08 ∧ Err.bitbufOverflow.code = 0x09
    ∧ Err.pbufOverflow.code = 0x0A ∧ Err.range.code = 0x0B ∧ Err.codeTooLong.code = 0x0C ∧ Err.noMatch.code = 0x0D)
  ∧ ∀ s : State,
    s.status.getLsbD 0 = s.busy ∧ s.status.getLsbD 1 = decide (s.tbs = .done) ∧ s.status.getLsbD 2 = s.eos
    ∧ s.status.getLsbD 3 = s.sticky ∧ s.status.getLsbD 4 = s.overrun ∧ s.status.extractLsb' 5 3 = 0
    ∧ s.status.extractLsb' 8 2 = s.tbs.code ∧ s.status.extractLsb' 10 6 = 0
    ∧ s.status.extractLsb' 16 8 = s.err.code ∧ s.status.extractLsb' 24 8 = 0

/-- R31, R40, R66, R67: what a host read returns with BUSY = 0, offset by offset; of LMAX, the greatest CTLEN, 0 where no symbol
has a code. The value joins State.reads, the model's own
record of what the host observes (log 16). -/
def Obligations.RegisterReads : Prop :=
  ∀ (s : State) (off : Nat) (rest : List Event), s.phase = .idle → off % 4 = 0 → off < 256 →
    s.pending = .read .w32 (s.params.base + off) :: rest →
    ∃ v, step s = .next { s with pending := rest, reads := s.reads ++ [v] }
      ∧ (off = 0x00 → v = 0) ∧ (off = 0x04 → v = s.data) ∧ (off = 0x08 → v = s.status)
      ∧ (off = 0x0C → v = s.res0) ∧ (off = 0x10 → v = s.res1) ∧ (off = 0x14 → v = s.res2)
      ∧ (off = 0x18 → v = s.total) ∧ (off = 0x1C → v = s.nsyms) ∧ (off = 0x20 → v = BitVec.ofNat 32 s.nnodes)
      ∧ (off = 0x24 → v = s.root) ∧ (off = 0x28 → v = BitVec.ofNat 32 s.blen) ∧ (off = 0x2C → v = s.brp)
      ∧ (off = 0x30 → v = BitVec.ofNat 32 s.plen) ∧ (off = 0x34 → v = s.prp)
      ∧ (off = 0x38 → (∀ sym < s.nsym, (s.ctlen.read sym).toNat ≤ v.toNat)
          ∧ ((∀ sym < s.nsym, s.ctlen.read sym = 0) → v = 0)
          ∧ ∃ sym < s.nsym, (s.ctlen.read sym).toNat = v.toNat)
      ∧ (off = 0x3C → s.params.wf → v.toNat = s.params.symw + 2 ^ 8 * s.params.maxlen)
      ∧ (off = 0x40 → v = BitVec.ofNat 32 s.params.maxbits) ∧ (off = 0x44 → v = 0x48554646)
      ∧ (0x48 ≤ off → v = 0)

/-- R68: a read changes no state of the block, whatever it reads and whether BUSY is 0 or 1. It adds to State.reads and may
use up a free value, both the model's own (log 7, log 16). -/
def Obligations.ReadsHaveNoSideEffects : Prop :=
  ∀ (width : Width) (addr : Nat) (s t : State), hostRead width addr s = .next t →
    ∃ v d, t = { s with reads := s.reads ++ [v], draw := d }

/-- R66, R257: what a host read returns while a command or the reset clear is in progress, offset by offset: STATUS reads
BUSY = 1 with its other bits those of the free value of the draw, DATA, CMD, ID, CONFIG and MAXBITS read their values, a
reserved offset reads 0, and any other register of the map reads the free value of the draw; a draw that is read is used up.
The statement holds whatever the free values are (log 7); the value joins State.reads (log 16). -/
def Obligations.ReadsWhileBusy : Prop :=
  ∀ (s : State) (off : Nat) (rest : List Event), (s.phase = .command ∨ s.phase = .clearing) → off % 4 = 0 → off < 256 →
    s.pending = .read .w32 (s.params.base + off) :: rest →
    ∃ v d, step s = .next { s with pending := rest, reads := s.reads ++ [v], draw := d }
      ∧ (off = 0x08 → v.getLsbD 0 = true ∧ (∀ k, k ≠ 0 → v.getLsbD k = (Config.freeWord s.draw).getLsbD k)
          ∧ d = s.draw + 1)
      ∧ (0x0C ≤ off → off ≤ 0x38 → v = Config.freeWord s.draw ∧ d = s.draw + 1)
      ∧ (off = 0x00 → v = 0) ∧ (off = 0x04 → v = s.data) ∧ (off = 0x3C → v = s.configWord)
      ∧ (off = 0x40 → v = s.maxbitsWord) ∧ (off = 0x44 → v = idWord) ∧ (0x48 ≤ off → v = 0)
      ∧ (off = 0x00 ∨ off = 0x04 ∨ 0x3C ≤ off → d = s.draw)

/-- R65, R250: an access of another width, or at an offset that is no multiple of 4, or while reset is asserted, has no
step. Which name the refusal bears where more than one applies is the model's choice (log 11). -/
def Obligations.InvalidAccessesAreRefused : Prop :=
  ∀ (s : State) (rest : List Event) (width : Width) (off : Nat) (v : Word) (e : Event), off < 256 →
    (e = .read width (s.params.base + off) ∨ e = .write width (s.params.base + off) v) → s.pending = e :: rest →
    (s.phase = .inReset → step s = .refused .accessInReset)
    ∧ (s.phase ≠ .inReset → width ≠ .w32 → step s = .refused .accessWidth)
    ∧ (s.phase ≠ .inReset → width = .w32 → off % 4 ≠ 0 → step s = .refused .accessMisaligned)

/-- R66, R67, R254: with BUSY = 0 a write of CMD latches the word and sets BUSY, a write of DATA stores the word, neither does
anything else, and a write of a read-only register or a reserved offset has no effect. -/
def Obligations.WritesWhileIdle : Prop :=
  ∀ (s : State) (off : Nat) (v : Word) (rest : List Event), s.phase = .idle → off % 4 = 0 → off < 256 →
    s.pending = .write .w32 (s.params.base + off) v :: rest →
    (off = 0 → step s = .next { s with cmdl := v, phase := .command, pending := rest })
    ∧ (off = 4 → step s = .next { s with data := v, pending := rest })
    ∧ (off ≠ 0 → off ≠ 4 → step s = .next { s with pending := rest })

/-- R66, R67, R256: while a command or the reset clear is in progress a write of CMD or DATA is lost and sets OVERRUN; any
other write is ignored. -/
def Obligations.WritesWhileBusy : Prop :=
  ∀ (s : State) (off : Nat) (v : Word) (rest : List Event), (s.phase = .command ∨ s.phase = .clearing) → off % 4 = 0 →
    off < 256 → s.pending = .write .w32 (s.params.base + off) v :: rest →
    (off = 0 ∨ off = 4 → step s = .next { s with overrun := true, pending := rest })
    ∧ (off ≠ 0 → off ≠ 4 → step s = .next { s with pending := rest })

/-- R250, R251, R256: after a release with any host accesses during the clear, the state with BUSY = 0 is the reset state, and
STATUS is 0, or 0x10 where CMD or DATA was written during the clear. The spec derives the values of STATUS in R252. That the
clear is modelled, and ends at the engine's turn, is the model's choice (log 3, log 5). The assertion of reset drops a command
in progress and writes no element but BUSY (log 20), and a release while the input is not asserted changes nothing (log 12, the model's
choice); the release gives every element its value after reset (R46), with the clear to come. -/
def Obligations.ResetSequence : Prop :=
  (∀ (s : State) (rest : List Event), s.pending = .resetAssert :: rest →
    step s = .next { s with phase := .inReset, pending := rest })
  ∧ (∀ (s : State) (rest : List Event), s.pending = .resetRelease :: rest →
    (s.phase ≠ .inReset → step s = .next { s with pending := rest })
    ∧ (s.phase = .inReset → ∃ c d, step s = .next
        { State.reset with params := s.params, pending := rest, reads := s.reads, cmdl := c, draw := d }))
  ∧ ∀ (s : State) (during : List Event), s.params.wf → s.phase = .inReset → (∀ e ∈ during, isAccess s.params e) →
    s.pending = [.resetRelease] ++ during ++ [.engineTurn] →
    ∃ t, Sys2Proof.core.run (during.length + 2) s = .next t ∧ t.phase = .idle ∧ t.pending = []
      ∧ ((∃ e ∈ during, writesOperand s.params e) → t.status = 0x10)
      ∧ ((∀ e ∈ during, ¬ writesOperand s.params e) → t.status = 0)
      ∧ t.freq = [] ∧ t.total = 0 ∧ t.tbs = .idle ∧ t.node = [] ∧ t.inq = [] ∧ t.nsyms = 0 ∧ t.root = 0
      ∧ t.ctlen = [] ∧ t.ctcode = [] ∧ t.bitbuf = [] ∧ t.brp = 0 ∧ t.pbuf = [] ∧ t.prp = 0
      ∧ t.data = 0 ∧ t.res0 = 0 ∧ t.res1 = 0 ∧ t.res2 = 0

/-- R263: a command or a reset clear in progress completes after finitely many steps while the host only waits. The model's
own order of turns stands for LAT and RLAT (log 3). R264: where a run has ended (log 21), no command is pending, and BUSY is 0
unless the reset input was used; R94, R253: the write of any word to CMD and the WAIT loop after it, whatever number of STATUS
reads find BUSY = 1, are a run that ends. -/
def Obligations.BusyEnds : Prop :=
  (∀ s : State, Inv s → (s.phase = .command ∨ s.phase = .clearing) → (∀ e ∈ s.pending, onlyWaits s.params e) →
    ∃ t, Sys2Proof.core.run (s.pending.length + 1) s = .next t ∧ t.busy = false ∧ t.pending = [])
  ∧ (∀ (s t : State) (n : Nat), s.runEnds n t →
      t.phase ≠ .command ∧ ((∀ e ∈ s.pending, ¬ isReset e) → t.busy = false))
  ∧ ∀ (s : State) (w : Word) (k : Nat), Inv s → s.phase = .idle →
      s.pending = writeEvent s.params .cmd w :: waitEvents s.params k → ∃ t, s.runEnds (k + 3) t

/-- R258: a host that respects the hazards loses no write and reads no unspecified value but STATUS. -/
def Obligations.HazardFreeHostLosesNothing : Prop :=
  ∀ (e : Event) (s t : State), respectsHazards s e → takeEvent e s = .next t →
    (s.overrun = false → t.overrun = false)
    ∧ (∀ width addr, e = .read width addr → addr ≠ s.params.base + Reg.status.offset → t.draw = s.draw)
    ∧ (∀ v, e = writeEvent s.params .data v → t.data = v)
    ∧ (∀ w, e = writeEvent s.params .cmd w → t.cmdl = w ∧ t.phase = .command)

/-! ### Invariants -/

/-- The invariants of R45, which the spec derives from its rules, hold at the state after reset. -/
def Obligations.ResetMeetsInvariant : Prop := Inv State.reset

/-- Every step from a state that meets the invariants of R45, which the spec derives from its rules, gives one that meets
them. -/
def Obligations.StepKeepsInvariant : Prop := ∀ s t : State, Inv s → step s = .next t → Inv t

/-- Every step keeps the canonical form of the four memories (log 9). -/
def Obligations.StepKeepsCanonicalMemories : Prop :=
  ∀ s t : State, MemoriesCanonical s → step s = .next t → MemoriesCanonical t

/-- Every step keeps the bounds of the two buffers, R45 item 9, which the spec derives. -/
def Obligations.StepKeepsBufferBounds : Prop :=
  ∀ s t : State, s.params.wf → BufferBounds s → step s = .next t → BufferBounds t ∧ t.params = s.params

/-- R220, R229: from a state that meets the invariant a step faults only on a host access outside the window, which the model
gives a fault of its own (log 11); the other faults are the model's own stops (log 13). -/
def Obligations.StepFaultsOnlyOutsideWindow : Prop :=
  ∀ (s : State) (f : Fault), Inv s → step s = .fault f → f = .outsideWindow
end

