-- ==== Sys2Proof/Laws/Memory.lean ====
section
/-! SUPPORT. The laws of the internal memories: what a read sees of a write, and that every write keeps the canonical
form. -/

namespace Sys2Proof.Machine

variable {w : Nat}

@[simp] theorem Memory.read_nil (a : Nat) : Memory.read ([] : Memory w) a = 0#w := rfl

theorem Memory.wf_nil : Memory.wf ([] : Memory w) := ⟨List.Pairwise.nil, fun _ h => nomatch h⟩

theorem Memory.wf_tail {e : Nat × BitVec w} {m : Memory w} (h : Memory.wf (e :: m)) : Memory.wf m :=
  ⟨(List.pairwise_cons.1 h.1).2, fun x hx => h.2 x (List.mem_cons_of_mem e hx)⟩

theorem Memory.wf_head_lt {e x : Nat × BitVec w} {m : Memory w} (h : Memory.wf (e :: m)) (hx : x ∈ m) : e.1 < x.1 :=
  (List.pairwise_cons.1 h.1).1 x hx

/-- An index below every listed one reads 0. -/
theorem Memory.read_eq_zero {m : Memory w} {a : Nat} (h : ∀ e ∈ m, e.1 ≠ a) : Memory.read m a = 0#w := by
  induction m with
  | nil => rfl
  | cons e m ih =>
    obtain ⟨k, x⟩ := e
    have hk : k ≠ a := h (k, x) (by simp)
    simp only [Memory.read, if_neg hk]
    exact ih fun e he => h e (List.mem_cons_of_mem _ he)

/-- In canonical form, what a listed entry holds is what its index reads. -/
theorem Memory.read_of_mem {m : Memory w} (h : Memory.wf m) {a : Nat} {v : BitVec w} (hm : (a, v) ∈ m) :
    Memory.read m a = v := by
  induction m with
  | nil => simp at hm
  | cons e m ih =>
    obtain ⟨k, x⟩ := e
    rcases List.mem_cons.1 hm with he | he
    · cases he
      simp [Memory.read]
    · have hlt := Memory.wf_head_lt h he
      have hk : k ≠ a := Nat.ne_of_lt hlt
      simp only [Memory.read, if_neg hk]
      exact ih (Memory.wf_tail h) he

/-- An index that reads something else than 0 is listed. -/
theorem Memory.mem_of_read_ne {m : Memory w} {a : Nat} (h : Memory.read m a ≠ 0#w) : (a, Memory.read m a) ∈ m := by
  induction m with
  | nil => simp at h
  | cons e m ih =>
    obtain ⟨k, x⟩ := e
    by_cases hk : k = a
    · subst hk
      simp [Memory.read]
    · simp only [Memory.read, if_neg hk] at h ⊢
      exact List.mem_cons_of_mem _ (ih h)

theorem Memory.mem_iff_read {m : Memory w} (h : Memory.wf m) {a : Nat} {v : BitVec w} :
    (a, v) ∈ m ↔ Memory.read m a = v ∧ v ≠ 0#w := by
  constructor
  · intro hm
    exact ⟨Memory.read_of_mem h hm, h.2 _ hm⟩
  · rintro ⟨rfl, hv⟩
    exact Memory.mem_of_read_ne hv

/-- Another index reads as before a write. -/
theorem Memory.read_write_other {m : Memory w} {a b : Nat} {v : BitVec w} (hab : b ≠ a) :
    Memory.read (Memory.write m a v) b = Memory.read m b := by
  have hab' : a ≠ b := fun h => hab h.symm
  induction m with
  | nil =>
    by_cases hv : v = 0#w <;> simp [Memory.write, Memory.read, hv, hab']
  | cons e m ih =>
    obtain ⟨k, x⟩ := e
    simp only [Memory.write]
    by_cases h1 : a < k
    · by_cases hv : v = 0#w <;> simp [h1, hv, Memory.read, hab']
    · by_cases h2 : a = k
      · subst h2
        by_cases hv : v = 0#w <;> simp [hv, Memory.read, hab']
      · simp only [if_neg h1, if_neg h2, Memory.read, ih]

/-- In canonical form, the written index reads the value written. -/
theorem Memory.read_write_self {m : Memory w} (h : Memory.wf m) (a : Nat) (v : BitVec w) :
    Memory.read (Memory.write m a v) a = v := by
  induction m with
  | nil =>
    by_cases hv : v = 0#w <;> simp [Memory.write, Memory.read, hv]
  | cons e m ih =>
    obtain ⟨k, x⟩ := e
    have hlt : ∀ y ∈ m, k < y.1 := fun y hy => Memory.wf_head_lt h hy
    simp only [Memory.write]
    by_cases h1 : a < k
    · by_cases hv : v = 0#w
      · subst hv
        rw [if_pos h1, if_pos rfl]
        refine Memory.read_eq_zero fun y hy => ?_
        rcases List.mem_cons.1 hy with hy | hy
        · subst hy
          exact Nat.ne_of_gt h1
        · have := hlt y hy
          omega
      · simp [h1, hv, Memory.read]
    · by_cases h2 : a = k
      · subst h2
        by_cases hv : v = 0#w
        · subst hv
          rw [if_neg h1, if_pos rfl, if_pos rfl]
          exact Memory.read_eq_zero fun y hy => Nat.ne_of_gt (hlt y hy)
        · simp [hv, Memory.read]
      · have hk : k ≠ a := fun hh => h2 hh.symm
        simp only [if_neg h1, if_neg h2, Memory.read, if_neg hk]
        exact ih (Memory.wf_tail h)

/-- Both at once. -/
theorem Memory.read_write {m : Memory w} (h : Memory.wf m) (a b : Nat) (v : BitVec w) :
    Memory.read (Memory.write m a v) b = if b = a then v else Memory.read m b := by
  by_cases hb : b = a
  · subst hb
    rw [if_pos rfl, Memory.read_write_self h]
  · rw [if_neg hb, Memory.read_write_other hb]

/-- What a write lists: the written pair, unless it is 0, and entries that were listed. -/
theorem Memory.mem_write {m : Memory w} {a : Nat} {v : BitVec w} {e : Nat × BitVec w} (he : e ∈ Memory.write m a v) :
    (e = (a, v) ∧ v ≠ 0#w) ∨ e ∈ m := by
  induction m with
  | nil =>
    by_cases hv : v = 0#w
    · simp [Memory.write, hv] at he
    · simp only [Memory.write, if_neg hv, List.mem_singleton] at he
      exact .inl ⟨he, hv⟩
  | cons f m ih =>
    obtain ⟨k, x⟩ := f
    simp only [Memory.write] at he
    by_cases h1 : a < k
    · by_cases hv : v = 0#w
      · simp only [if_pos h1, if_pos hv] at he
        exact .inr he
      · simp only [if_pos h1, if_neg hv] at he
        rcases List.mem_cons.1 he with he | he
        · exact .inl ⟨he, hv⟩
        · exact .inr he
    · by_cases h2 : a = k
      · by_cases hv : v = 0#w
        · simp only [if_neg h1, if_pos h2, if_pos hv] at he
          exact .inr (List.mem_cons_of_mem _ he)
        · simp only [if_neg h1, if_pos h2, if_neg hv] at he
          rcases List.mem_cons.1 he with he | he
          · exact .inl ⟨he, hv⟩
          · exact .inr (List.mem_cons_of_mem _ he)
      · simp only [if_neg h1, if_neg h2] at he
        rcases List.mem_cons.1 he with he | he
        · exact .inr (he ▸ List.mem_cons_self)
        · rcases ih he with h | h
          · exact .inl h
          · exact .inr (List.mem_cons_of_mem _ h)

/-- A write keeps the canonical form. -/
theorem Memory.write_wf {m : Memory w} (h : Memory.wf m) (a : Nat) (v : BitVec w) : Memory.wf (Memory.write m a v) := by
  refine ⟨?_, ?_⟩
  · induction m with
    | nil => by_cases hv : v = 0#w <;> simp [Memory.write, hv]
    | cons e m ih =>
      obtain ⟨k, x⟩ := e
      have hlt : ∀ y ∈ m, k < y.1 := fun y hy => Memory.wf_head_lt h hy
      simp only [Memory.write]
      by_cases h1 : a < k
      · by_cases hv : v = 0#w
        · simpa only [if_pos h1, if_pos hv] using h.1
        · simp only [if_pos h1, if_neg hv]
          refine List.pairwise_cons.2 ⟨fun y hy => ?_, h.1⟩
          rcases List.mem_cons.1 hy with hy | hy
          · subst hy
            exact h1
          · exact Nat.lt_trans h1 (hlt y hy)
      · by_cases h2 : a = k
        · by_cases hv : v = 0#w
          · simpa only [if_neg h1, if_pos h2, if_pos hv] using (Memory.wf_tail h).1
          · simp only [if_neg h1, if_pos h2, if_neg hv]
            refine List.pairwise_cons.2 ⟨fun y hy => ?_, (Memory.wf_tail h).1⟩
            exact h2 ▸ hlt y hy
        · simp only [if_neg h1, if_neg h2]
          refine List.pairwise_cons.2 ⟨fun y hy => ?_, ih (Memory.wf_tail h)⟩
          rcases Memory.mem_write hy with ⟨hy, -⟩ | hy
          · subst hy
            show k < a
            omega
          · exact hlt y hy
  · intro e he
    rcases Memory.mem_write he with ⟨rfl, hv⟩ | he
    · exact hv
    · exact h.2 e he

/-- Folding writes keeps the canonical form. -/
theorem Memory.foldl_write_wf {α : Type} (key : α → Nat) (value : α → BitVec w) (l : List α) {m : Memory w}
    (h : Memory.wf m) : Memory.wf (l.foldl (fun m e => Memory.write m (key e) (value e)) m) := by
  induction l generalizing m with
  | nil => exact h
  | cons e l ih => exact ih (Memory.write_wf h (key e) (value e))

/-- Two memories in canonical form that read alike are equal. -/
theorem Memory.ext_of_wf {m n : Memory w} (hm : Memory.wf m) (hn : Memory.wf n)
    (h : ∀ a, Memory.read m a = Memory.read n a) : m = n := by
  have hs : ∀ {l : Memory w}, Memory.wf l → l.Pairwise fun x y => x.1 < y.1 := fun hl => hl.1
  have hmem : ∀ e, e ∈ m ↔ e ∈ n := by
    rintro ⟨a, v⟩
    rw [Memory.mem_iff_read hm, Memory.mem_iff_read hn, h a]
  have nd : ∀ {l : Memory w}, Memory.wf l → l.Nodup := fun hl =>
    (hs hl).imp fun {x y} hxy hh => by subst hh; omega
  refine List.Perm.eq_of_pairwise (le := fun x y : Nat × BitVec w => x.1 < y.1) ?_ (hs hm) (hs hn)
    ((List.perm_ext_iff_of_nodup (nd hm) (nd hn)).2 hmem)
  intro x y _ _ h1 h2
  omega

end Sys2Proof.Machine
end

