-- ==== Sys2Proof/Laws/Paths.lean ====
section
/-! SUPPORT. Bit sequences, walks in the tree, and the list of paths the code assignment makes. -/

namespace Sys2Proof.Machine

/-! ### Bit sequences -/

@[simp] theorem bitsOf_length (n v : Nat) : (bitsOf n v).length = n := by
  induction n with
  | zero => rfl
  | succ n ih => simp [bitsOf, ih]

theorem val_lt (b : Bits) : val b < 2 ^ b.length := by
  induction b with
  | nil => simp [val]
  | cons x b ih =>
    rw [val, List.length_cons, Nat.pow_succ]
    cases x <;> simp <;> omega

theorem bitsOf_mod (n v : Nat) : bitsOf n (v % 2 ^ n) = bitsOf n v := by
  have h : ∀ k m, k ≤ m → bitsOf k (v % 2 ^ m) = bitsOf k v := by
    intro k m hk
    induction k with
    | zero => rfl
    | succ k ih =>
      rw [bitsOf, bitsOf, ih (by omega), Nat.testBit_mod_two_pow]
      simp [show k < m by omega]
  exact h n n (Nat.le_refl n)

theorem val_bitsOf (n v : Nat) : val (bitsOf n v) = v % 2 ^ n := by
  induction n with
  | zero => simp [bitsOf, val, Nat.mod_one]
  | succ n ih =>
    have hb : (v.testBit n).toNat = v / 2 ^ n % 2 := by
      rw [Nat.testBit_eq_decide_div_mod_eq]
      rcases Nat.mod_two_eq_zero_or_one (v / 2 ^ n) with h | h <;> simp [h]
    rw [bitsOf, val, ih, bitsOf_length, hb, Nat.mod_pow_succ, Nat.add_comm, Nat.mul_comm]

theorem bitsOf_val (b : Bits) : bitsOf b.length (val b) = b := by
  induction b with
  | nil => rfl
  | cons x b ih =>
    rw [List.length_cons, bitsOf, val]
    have hl := val_lt b
    have h1 : (x.toNat * 2 ^ b.length + val b).testBit b.length = x := by
      rw [Nat.mul_comm, Nat.testBit_two_pow_mul_add _ hl]
      simp
      cases x <;> rfl
    have h2 : bitsOf b.length (x.toNat * 2 ^ b.length + val b) = b := by
      rw [← bitsOf_mod, Nat.mul_comm, Nat.mul_add_mod, Nat.mod_eq_of_lt hl, ih]
    rw [h1, h2]

theorem bitsOf_injective {n v w : Nat} (hv : v < 2 ^ n) (hw : w < 2 ^ n) (h : bitsOf n v = bitsOf n w) : v = w := by
  have := congrArg val h
  rwa [val_bitsOf, val_bitsOf, Nat.mod_eq_of_lt hv, Nat.mod_eq_of_lt hw] at this

/-! ### Walks -/

theorem walk_append (node : List Node) (i : Nat) (p q : Bits) :
    walk node i (p ++ q) = (walk node i p).bind fun j => walk node j q := by
  induction p generalizing i with
  | nil => rfl
  | cons b p ih =>
    rw [List.cons_append, walk, walk]
    split
    · rfl
    · split
      · rfl
      · exact ih _

/-- A walk does not go on from a leaf. -/
theorem walk_leaf {node : List Node} {j : Nat} {nd : Node} (hj : node[j]? = some nd) (hl : nd.leaf = true) {q : Bits}
    (hq : q ≠ []) : walk node j q = none := by
  cases q with
  | nil => exact absurd rfl hq
  | cons b q => simp [walk, hj, hl]

/-- No path to a leaf is a proper beginning of a path to a slot. -/
theorem walk_leaf_beginning {node : List Node} {i j k : Nat} {nd : Node} {p q : Bits} (hp : walk node i p = some j)
    (hj : node[j]? = some nd) (hl : nd.leaf = true) (hq : walk node i q = some k) (hpq : p <+: q) : q = p := by
  obtain ⟨r, rfl⟩ := hpq
  rw [walk_append, hp] at hq
  by_cases hr : r = []
  · simp [hr]
  · have : walk node j r = some k := hq
    rw [walk_leaf hj hl hr] at this
    cases this

/-- The children of every internal slot are lower-numbered (R24). -/
abbrev childrenLower (node : List Node) : Prop :=
  ∀ j < node.length, ∀ nd ∈ node[j]?, nd.leaf = false → nd.left.toNat < j ∧ nd.right.toNat < j

/-- A walk goes down. -/
theorem walk_le {node : List Node} (h : childrenLower node) {i j : Nat} {p : Bits} (hi : i < node.length)
    (hw : walk node i p = some j) : j ≤ i ∧ j < node.length := by
  induction p generalizing i with
  | nil =>
    cases hw
    exact ⟨Nat.le_refl _, hi⟩
  | cons b p ih =>
    rw [walk] at hw
    split at hw
    · cases hw
    · next nd hnd =>
      split at hw
      · cases hw
      · next hl =>
        have hc := h i hi nd hnd (by simpa using hl)
        cases b
        · have := ih (i := nd.left.toNat) (by omega) (by simpa using hw)
          omega
        · have := ih (i := nd.right.toNat) (by omega) (by simpa using hw)
          omega

/-- Each step of a walk goes to a lower slot, so a walk is no longer than the slots it leaves behind. -/
theorem walk_length {node : List Node} (h : childrenLower node) {i j : Nat} {p : Bits} (hi : i < node.length)
    (hw : walk node i p = some j) : p.length + j ≤ i := by
  induction p generalizing i with
  | nil =>
    cases hw
    simp
  | cons b p ih =>
    rw [walk] at hw
    split at hw
    · cases hw
    · next nd hnd =>
      split at hw
      · cases hw
      · next hl =>
        have hc := h i hi nd hnd (by simpa using hl)
        rw [List.length_cons]
        cases b
        · have := ih (i := nd.left.toNat) (by omega) (by simpa using hw)
          omega
        · have := ih (i := nd.right.toNat) (by omega) (by simpa using hw)
          omega

/-- The paths the assignment lists: exactly the walks that end at a leaf, with that leaf's symbol. The list exists
wherever the children are lower-numbered and the depth allowed exceeds the slot. -/
theorem paths_spec {node : List Node} (h : childrenLower node) {depth i : Nat} (p : Bits) (hi : i < node.length)
    (hd : i < depth) :
    ∃ l, paths node depth i p = some l ∧
      ∀ sym q, (sym, q) ∈ l ↔ ∃ r j, q = p ++ r ∧ walk node i r = some j ∧ ∃ nd ∈ node[j]?, nd.leaf = true ∧ nd.sym.toNat = sym := by
  induction depth generalizing i p with
  | zero => omega
  | succ depth ih =>
    have hnd : node[i]? = some node[i] := List.getElem?_eq_getElem hi
    rw [paths, hnd]
    simp only
    by_cases hl : node[i].leaf = true
    · rw [if_pos hl]
      refine ⟨_, rfl, fun sym q => ?_⟩
      rw [List.mem_singleton]
      constructor
      · intro hq
        cases hq
        exact ⟨[], i, by simp, rfl, node[i], hnd, hl, rfl⟩
      · rintro ⟨r, j, rfl, hw, nd, hj, hleaf, rfl⟩
        by_cases hr : r = []
        · subst hr
          cases hw
          have hj : node[i]? = some nd := hj
          rw [hnd] at hj
          cases hj
          simp
        · rw [walk_leaf hnd hl hr] at hw
          cases hw
    · rw [if_neg hl]
      have hf : node[i].leaf = false := by simpa using hl
      obtain ⟨hlo, hro⟩ := h i hi node[i] hnd hf
      obtain ⟨l1, e1, m1⟩ := ih (i := node[i].left.toNat) (p ++ [false]) (by omega) (by omega)
      obtain ⟨l2, e2, m2⟩ := ih (i := node[i].right.toNat) (p ++ [true]) (by omega) (by omega)
      rw [e1, e2]
      refine ⟨l1 ++ l2, rfl, fun sym q => ?_⟩
      rw [List.mem_append, m1, m2]
      constructor
      · rintro (⟨r, j, rfl, hw, hj⟩ | ⟨r, j, rfl, hw, hj⟩)
        · exact ⟨false :: r, j, by simp, by simpa [walk, hnd, hf] using hw, hj⟩
        · exact ⟨true :: r, j, by simp, by simpa [walk, hnd, hf] using hw, hj⟩
      · rintro ⟨r, j, rfl, hw, hj⟩
        cases r with
        | nil =>
          cases hw
          obtain ⟨nd, hj, hleaf, -⟩ := hj
          have hj : node[i]? = some nd := hj
          rw [hnd] at hj
          cases hj
          exact absurd hleaf hl
        | cons b r =>
          cases b
          · exact .inl ⟨r, j, by simp, by simpa [walk, hnd, hf] using hw, hj⟩
          · exact .inr ⟨r, j, by simp, by simpa [walk, hnd, hf] using hw, hj⟩

/-! ### Folding writes -/

/-- An index no entry names reads as before the writes. -/
theorem foldl_write_read_other {w : Nat} {α : Type} (key : α → Nat) (value : α → BitVec w) {l : List α} {m : Memory w}
    {a : Nat} (h : ∀ e ∈ l, key e ≠ a) : Memory.read (l.foldl (fun m e => Memory.write m (key e) (value e)) m) a = Memory.read m a := by
  induction l generalizing m with
  | nil => rfl
  | cons e l ih =>
    rw [List.foldl_cons, ih fun x hx => h x (List.mem_cons_of_mem _ hx)]
    exact Memory.read_write_other fun hh => h e (by simp) hh.symm

/-- An index that some entry names, every such entry with the same value, reads that value after the writes. -/
theorem foldl_write_read_self {w : Nat} {α : Type} (key : α → Nat) (value : α → BitVec w) {l : List α} {m : Memory w}
    (hm : Memory.wf m) {a : Nat} {v : BitVec w} (hex : ∃ e ∈ l, key e = a) (hall : ∀ e ∈ l, key e = a → value e = v) :
    Memory.read (l.foldl (fun m e => Memory.write m (key e) (value e)) m) a = v := by
  induction l generalizing m with
  | nil => simp at hex
  | cons e l ih =>
    rw [List.foldl_cons]
    by_cases hl : ∃ x ∈ l, key x = a
    · exact ih (Memory.write_wf hm _ _) hl fun x hx => hall x (List.mem_cons_of_mem _ hx)
    · rw [foldl_write_read_other key value fun x hx hxa => hl ⟨x, hx, hxa⟩]
      obtain ⟨x, hx, hxa⟩ := hex
      rcases List.mem_cons.1 hx with rfl | hx
      · rw [← hxa, Memory.read_write_self hm]
        exact hall x (by simp) hxa
      · exact absurd ⟨x, hx, hxa⟩ hl

end Sys2Proof.Machine
end

