-- ==== Sys2Proof/Laws/State.lean ====
section
/-! SUPPORT. One lemma per field per named update of the state: what each update leaves in each field. -/

namespace Sys2Proof.Machine

/-! ### the success report -/

@[simp] theorem State.reportOk_params (s : State) : s.reportOk.params = s.params := rfl
@[simp] theorem State.reportOk_freq (s : State) : s.reportOk.freq = s.freq := rfl
@[simp] theorem State.reportOk_total (s : State) : s.reportOk.total = s.total := rfl
@[simp] theorem State.reportOk_tbs (s : State) : s.reportOk.tbs = s.tbs := rfl
@[simp] theorem State.reportOk_node (s : State) : s.reportOk.node = s.node := rfl
@[simp] theorem State.reportOk_inq (s : State) : s.reportOk.inq = s.inq := rfl
@[simp] theorem State.reportOk_nsyms (s : State) : s.reportOk.nsyms = s.nsyms := rfl
@[simp] theorem State.reportOk_root (s : State) : s.reportOk.root = s.root := rfl
@[simp] theorem State.reportOk_ctlen (s : State) : s.reportOk.ctlen = s.ctlen := rfl
@[simp] theorem State.reportOk_ctcode (s : State) : s.reportOk.ctcode = s.ctcode := rfl
@[simp] theorem State.reportOk_bitbuf (s : State) : s.reportOk.bitbuf = s.bitbuf := rfl
@[simp] theorem State.reportOk_brp (s : State) : s.reportOk.brp = s.brp := rfl
@[simp] theorem State.reportOk_pbuf (s : State) : s.reportOk.pbuf = s.pbuf := rfl
@[simp] theorem State.reportOk_prp (s : State) : s.reportOk.prp = s.prp := rfl
@[simp] theorem State.reportOk_data (s : State) : s.reportOk.data = s.data := rfl
@[simp] theorem State.reportOk_res0 (s : State) : s.reportOk.res0 = s.res0 := rfl
@[simp] theorem State.reportOk_res1 (s : State) : s.reportOk.res1 = s.res1 := rfl
@[simp] theorem State.reportOk_res2 (s : State) : s.reportOk.res2 = s.res2 := rfl
@[simp] theorem State.reportOk_phase (s : State) : s.reportOk.phase = s.phase := rfl
@[simp] theorem State.reportOk_eos (s : State) : s.reportOk.eos = s.eos := rfl
@[simp] theorem State.reportOk_sticky (s : State) : s.reportOk.sticky = s.sticky := rfl
@[simp] theorem State.reportOk_overrun (s : State) : s.reportOk.overrun = s.overrun := rfl
@[simp] theorem State.reportOk_err (s : State) : s.reportOk.err = .ok := rfl
@[simp] theorem State.reportOk_cmdl (s : State) : s.reportOk.cmdl = s.cmdl := rfl
@[simp] theorem State.reportOk_pending (s : State) : s.reportOk.pending = s.pending := rfl
@[simp] theorem State.reportOk_reads (s : State) : s.reportOk.reads = s.reads := rfl
@[simp] theorem State.reportOk_draw (s : State) : s.reportOk.draw = s.draw := rfl

/-! ### the error report -/

@[simp] theorem State.reportErr_params (e : Err) (s : State) : (s.reportErr e).params = s.params := rfl
@[simp] theorem State.reportErr_freq (e : Err) (s : State) : (s.reportErr e).freq = s.freq := rfl
@[simp] theorem State.reportErr_total (e : Err) (s : State) : (s.reportErr e).total = s.total := rfl
@[simp] theorem State.reportErr_tbs (e : Err) (s : State) : (s.reportErr e).tbs = s.tbs := rfl
@[simp] theorem State.reportErr_node (e : Err) (s : State) : (s.reportErr e).node = s.node := rfl
@[simp] theorem State.reportErr_inq (e : Err) (s : State) : (s.reportErr e).inq = s.inq := rfl
@[simp] theorem State.reportErr_nsyms (e : Err) (s : State) : (s.reportErr e).nsyms = s.nsyms := rfl
@[simp] theorem State.reportErr_root (e : Err) (s : State) : (s.reportErr e).root = s.root := rfl
@[simp] theorem State.reportErr_ctlen (e : Err) (s : State) : (s.reportErr e).ctlen = s.ctlen := rfl
@[simp] theorem State.reportErr_ctcode (e : Err) (s : State) : (s.reportErr e).ctcode = s.ctcode := rfl
@[simp] theorem State.reportErr_bitbuf (e : Err) (s : State) : (s.reportErr e).bitbuf = s.bitbuf := rfl
@[simp] theorem State.reportErr_brp (e : Err) (s : State) : (s.reportErr e).brp = s.brp := rfl
@[simp] theorem State.reportErr_pbuf (e : Err) (s : State) : (s.reportErr e).pbuf = s.pbuf := rfl
@[simp] theorem State.reportErr_prp (e : Err) (s : State) : (s.reportErr e).prp = s.prp := rfl
@[simp] theorem State.reportErr_data (e : Err) (s : State) : (s.reportErr e).data = s.data := rfl
@[simp] theorem State.reportErr_res0 (e : Err) (s : State) : (s.reportErr e).res0 = s.res0 := rfl
@[simp] theorem State.reportErr_res1 (e : Err) (s : State) : (s.reportErr e).res1 = s.res1 := rfl
@[simp] theorem State.reportErr_res2 (e : Err) (s : State) : (s.reportErr e).res2 = s.res2 := rfl
@[simp] theorem State.reportErr_phase (e : Err) (s : State) : (s.reportErr e).phase = s.phase := rfl
@[simp] theorem State.reportErr_eos (e : Err) (s : State) : (s.reportErr e).eos = s.eos := rfl
@[simp] theorem State.reportErr_sticky (e : Err) (s : State) : (s.reportErr e).sticky = true := rfl
@[simp] theorem State.reportErr_overrun (e : Err) (s : State) : (s.reportErr e).overrun = s.overrun := rfl
@[simp] theorem State.reportErr_err (e : Err) (s : State) : (s.reportErr e).err = e := rfl
@[simp] theorem State.reportErr_cmdl (e : Err) (s : State) : (s.reportErr e).cmdl = s.cmdl := rfl
@[simp] theorem State.reportErr_pending (e : Err) (s : State) : (s.reportErr e).pending = s.pending := rfl
@[simp] theorem State.reportErr_reads (e : Err) (s : State) : (s.reportErr e).reads = s.reads := rfl
@[simp] theorem State.reportErr_draw (e : Err) (s : State) : (s.reportErr e).draw = s.draw := rfl

/-! ### the values after reset -/

@[simp] theorem State.resetValues_params (s : State) : s.resetValues.params = s.params := rfl
@[simp] theorem State.resetValues_freq (s : State) : s.resetValues.freq = [] := rfl
@[simp] theorem State.resetValues_total (s : State) : s.resetValues.total = 0 := rfl
@[simp] theorem State.resetValues_tbs (s : State) : s.resetValues.tbs = .idle := rfl
@[simp] theorem State.resetValues_node (s : State) : s.resetValues.node = [] := rfl
@[simp] theorem State.resetValues_inq (s : State) : s.resetValues.inq = [] := rfl
@[simp] theorem State.resetValues_nsyms (s : State) : s.resetValues.nsyms = 0 := rfl
@[simp] theorem State.resetValues_root (s : State) : s.resetValues.root = 0 := rfl
@[simp] theorem State.resetValues_ctlen (s : State) : s.resetValues.ctlen = [] := rfl
@[simp] theorem State.resetValues_ctcode (s : State) : s.resetValues.ctcode = [] := rfl
@[simp] theorem State.resetValues_bitbuf (s : State) : s.resetValues.bitbuf = [] := rfl
@[simp] theorem State.resetValues_brp (s : State) : s.resetValues.brp = 0 := rfl
@[simp] theorem State.resetValues_pbuf (s : State) : s.resetValues.pbuf = [] := rfl
@[simp] theorem State.resetValues_prp (s : State) : s.resetValues.prp = 0 := rfl
@[simp] theorem State.resetValues_data (s : State) : s.resetValues.data = 0 := rfl
@[simp] theorem State.resetValues_res0 (s : State) : s.resetValues.res0 = 0 := rfl
@[simp] theorem State.resetValues_res1 (s : State) : s.resetValues.res1 = 0 := rfl
@[simp] theorem State.resetValues_res2 (s : State) : s.resetValues.res2 = 0 := rfl
@[simp] theorem State.resetValues_phase (s : State) : s.resetValues.phase = s.phase := rfl
@[simp] theorem State.resetValues_eos (s : State) : s.resetValues.eos = false := rfl
@[simp] theorem State.resetValues_sticky (s : State) : s.resetValues.sticky = false := rfl
@[simp] theorem State.resetValues_overrun (s : State) : s.resetValues.overrun = false := rfl
@[simp] theorem State.resetValues_err (s : State) : s.resetValues.err = .ok := rfl
@[simp] theorem State.resetValues_cmdl (s : State) : s.resetValues.cmdl = Config.freeWord s.draw := rfl
@[simp] theorem State.resetValues_pending (s : State) : s.resetValues.pending = s.pending := rfl
@[simp] theorem State.resetValues_reads (s : State) : s.resetValues.reads = s.reads := rfl
@[simp] theorem State.resetValues_draw (s : State) : s.resetValues.draw = s.draw + 1 := rfl

/-! ### the end of the reset clear -/

@[simp] theorem State.completeClear_params (s : State) : s.completeClear.params = s.params := rfl
@[simp] theorem State.completeClear_freq (s : State) : s.completeClear.freq = [] := rfl
@[simp] theorem State.completeClear_total (s : State) : s.completeClear.total = s.total := rfl
@[simp] theorem State.completeClear_tbs (s : State) : s.completeClear.tbs = s.tbs := rfl
@[simp] theorem State.completeClear_node (s : State) : s.completeClear.node = s.node := rfl
@[simp] theorem State.completeClear_inq (s : State) : s.completeClear.inq = [] := rfl
@[simp] theorem State.completeClear_nsyms (s : State) : s.completeClear.nsyms = s.nsyms := rfl
@[simp] theorem State.completeClear_root (s : State) : s.completeClear.root = s.root := rfl
@[simp] theorem State.completeClear_ctlen (s : State) : s.completeClear.ctlen = [] := rfl
@[simp] theorem State.completeClear_ctcode (s : State) : s.completeClear.ctcode = [] := rfl
@[simp] theorem State.completeClear_bitbuf (s : State) : s.completeClear.bitbuf = s.bitbuf := rfl
@[simp] theorem State.completeClear_brp (s : State) : s.completeClear.brp = s.brp := rfl
@[simp] theorem State.completeClear_pbuf (s : State) : s.completeClear.pbuf = s.pbuf := rfl
@[simp] theorem State.completeClear_prp (s : State) : s.completeClear.prp = s.prp := rfl
@[simp] theorem State.completeClear_data (s : State) : s.completeClear.data = s.data := rfl
@[simp] theorem State.completeClear_res0 (s : State) : s.completeClear.res0 = s.res0 := rfl
@[simp] theorem State.completeClear_res1 (s : State) : s.completeClear.res1 = s.res1 := rfl
@[simp] theorem State.completeClear_res2 (s : State) : s.completeClear.res2 = s.res2 := rfl
@[simp] theorem State.completeClear_phase (s : State) : s.completeClear.phase = .idle := rfl
@[simp] theorem State.completeClear_eos (s : State) : s.completeClear.eos = s.eos := rfl
@[simp] theorem State.completeClear_sticky (s : State) : s.completeClear.sticky = s.sticky := rfl
@[simp] theorem State.completeClear_overrun (s : State) : s.completeClear.overrun = s.overrun := rfl
@[simp] theorem State.completeClear_err (s : State) : s.completeClear.err = s.err := rfl
@[simp] theorem State.completeClear_cmdl (s : State) : s.completeClear.cmdl = s.cmdl := rfl
@[simp] theorem State.completeClear_pending (s : State) : s.completeClear.pending = s.pending := rfl
@[simp] theorem State.completeClear_reads (s : State) : s.completeClear.reads = s.reads := rfl
@[simp] theorem State.completeClear_draw (s : State) : s.completeClear.draw = s.draw := rfl

/-! ### the end of a command -/

@[simp] theorem State.completeCommand_params (s : State) : s.completeCommand.params = s.params := rfl
@[simp] theorem State.completeCommand_freq (s : State) : s.completeCommand.freq = s.freq := rfl
@[simp] theorem State.completeCommand_total (s : State) : s.completeCommand.total = s.total := rfl
@[simp] theorem State.completeCommand_tbs (s : State) : s.completeCommand.tbs = s.tbs := rfl
@[simp] theorem State.completeCommand_node (s : State) : s.completeCommand.node = s.node := rfl
@[simp] theorem State.completeCommand_inq (s : State) : s.completeCommand.inq = s.inq := rfl
@[simp] theorem State.completeCommand_nsyms (s : State) : s.completeCommand.nsyms = s.nsyms := rfl
@[simp] theorem State.completeCommand_root (s : State) : s.completeCommand.root = s.root := rfl
@[simp] theorem State.completeCommand_ctlen (s : State) : s.completeCommand.ctlen = s.ctlen := rfl
@[simp] theorem State.completeCommand_ctcode (s : State) : s.completeCommand.ctcode = s.ctcode := rfl
@[simp] theorem State.completeCommand_bitbuf (s : State) : s.completeCommand.bitbuf = s.bitbuf := rfl
@[simp] theorem State.completeCommand_brp (s : State) : s.completeCommand.brp = s.brp := rfl
@[simp] theorem State.completeCommand_pbuf (s : State) : s.completeCommand.pbuf = s.pbuf := rfl
@[simp] theorem State.completeCommand_prp (s : State) : s.completeCommand.prp = s.prp := rfl
@[simp] theorem State.completeCommand_data (s : State) : s.completeCommand.data = s.data := rfl
@[simp] theorem State.completeCommand_res0 (s : State) : s.completeCommand.res0 = s.res0 := rfl
@[simp] theorem State.completeCommand_res1 (s : State) : s.completeCommand.res1 = s.res1 := rfl
@[simp] theorem State.completeCommand_res2 (s : State) : s.completeCommand.res2 = s.res2 := rfl
@[simp] theorem State.completeCommand_phase (s : State) : s.completeCommand.phase = .idle := rfl
@[simp] theorem State.completeCommand_eos (s : State) : s.completeCommand.eos = s.eos := rfl
@[simp] theorem State.completeCommand_sticky (s : State) : s.completeCommand.sticky = s.sticky := rfl
@[simp] theorem State.completeCommand_overrun (s : State) : s.completeCommand.overrun = s.overrun := rfl
@[simp] theorem State.completeCommand_err (s : State) : s.completeCommand.err = s.err := rfl
@[simp] theorem State.completeCommand_cmdl (s : State) : s.completeCommand.cmdl = s.cmdl := rfl
@[simp] theorem State.completeCommand_pending (s : State) : s.completeCommand.pending = s.pending := rfl
@[simp] theorem State.completeCommand_reads (s : State) : s.completeCommand.reads = s.reads := rfl
@[simp] theorem State.completeCommand_draw (s : State) : s.completeCommand.draw = s.draw := rfl

/-! ### acceptance of a command -/

@[simp] theorem State.acceptCommand_params (s : State) (w : Word) : (s.acceptCommand w).params = s.params := rfl
@[simp] theorem State.acceptCommand_freq (s : State) (w : Word) : (s.acceptCommand w).freq = s.freq := rfl
@[simp] theorem State.acceptCommand_total (s : State) (w : Word) : (s.acceptCommand w).total = s.total := rfl
@[simp] theorem State.acceptCommand_tbs (s : State) (w : Word) : (s.acceptCommand w).tbs = s.tbs := rfl
@[simp] theorem State.acceptCommand_node (s : State) (w : Word) : (s.acceptCommand w).node = s.node := rfl
@[simp] theorem State.acceptCommand_inq (s : State) (w : Word) : (s.acceptCommand w).inq = s.inq := rfl
@[simp] theorem State.acceptCommand_nsyms (s : State) (w : Word) : (s.acceptCommand w).nsyms = s.nsyms := rfl
@[simp] theorem State.acceptCommand_root (s : State) (w : Word) : (s.acceptCommand w).root = s.root := rfl
@[simp] theorem State.acceptCommand_ctlen (s : State) (w : Word) : (s.acceptCommand w).ctlen = s.ctlen := rfl
@[simp] theorem State.acceptCommand_ctcode (s : State) (w : Word) : (s.acceptCommand w).ctcode = s.ctcode := rfl
@[simp] theorem State.acceptCommand_bitbuf (s : State) (w : Word) : (s.acceptCommand w).bitbuf = s.bitbuf := rfl
@[simp] theorem State.acceptCommand_brp (s : State) (w : Word) : (s.acceptCommand w).brp = s.brp := rfl
@[simp] theorem State.acceptCommand_pbuf (s : State) (w : Word) : (s.acceptCommand w).pbuf = s.pbuf := rfl
@[simp] theorem State.acceptCommand_prp (s : State) (w : Word) : (s.acceptCommand w).prp = s.prp := rfl
@[simp] theorem State.acceptCommand_data (s : State) (w : Word) : (s.acceptCommand w).data = s.data := rfl
@[simp] theorem State.acceptCommand_res0 (s : State) (w : Word) : (s.acceptCommand w).res0 = s.res0 := rfl
@[simp] theorem State.acceptCommand_res1 (s : State) (w : Word) : (s.acceptCommand w).res1 = s.res1 := rfl
@[simp] theorem State.acceptCommand_res2 (s : State) (w : Word) : (s.acceptCommand w).res2 = s.res2 := rfl
@[simp] theorem State.acceptCommand_phase (s : State) (w : Word) : (s.acceptCommand w).phase = .command := rfl
@[simp] theorem State.acceptCommand_eos (s : State) (w : Word) : (s.acceptCommand w).eos = s.eos := rfl
@[simp] theorem State.acceptCommand_sticky (s : State) (w : Word) : (s.acceptCommand w).sticky = s.sticky := rfl
@[simp] theorem State.acceptCommand_overrun (s : State) (w : Word) : (s.acceptCommand w).overrun = s.overrun := rfl
@[simp] theorem State.acceptCommand_err (s : State) (w : Word) : (s.acceptCommand w).err = s.err := rfl
@[simp] theorem State.acceptCommand_cmdl (s : State) (w : Word) : (s.acceptCommand w).cmdl = w := rfl
@[simp] theorem State.acceptCommand_pending (s : State) (w : Word) : (s.acceptCommand w).pending = s.pending := rfl
@[simp] theorem State.acceptCommand_reads (s : State) (w : Word) : (s.acceptCommand w).reads = s.reads := rfl
@[simp] theorem State.acceptCommand_draw (s : State) (w : Word) : (s.acceptCommand w).draw = s.draw := rfl

/-! ### an observation -/

@[simp] theorem State.observe_params (s : State) (v : Word) : (s.observe v).params = s.params := rfl
@[simp] theorem State.observe_freq (s : State) (v : Word) : (s.observe v).freq = s.freq := rfl
@[simp] theorem State.observe_total (s : State) (v : Word) : (s.observe v).total = s.total := rfl
@[simp] theorem State.observe_tbs (s : State) (v : Word) : (s.observe v).tbs = s.tbs := rfl
@[simp] theorem State.observe_node (s : State) (v : Word) : (s.observe v).node = s.node := rfl
@[simp] theorem State.observe_inq (s : State) (v : Word) : (s.observe v).inq = s.inq := rfl
@[simp] theorem State.observe_nsyms (s : State) (v : Word) : (s.observe v).nsyms = s.nsyms := rfl
@[simp] theorem State.observe_root (s : State) (v : Word) : (s.observe v).root = s.root := rfl
@[simp] theorem State.observe_ctlen (s : State) (v : Word) : (s.observe v).ctlen = s.ctlen := rfl
@[simp] theorem State.observe_ctcode (s : State) (v : Word) : (s.observe v).ctcode = s.ctcode := rfl
@[simp] theorem State.observe_bitbuf (s : State) (v : Word) : (s.observe v).bitbuf = s.bitbuf := rfl
@[simp] theorem State.observe_brp (s : State) (v : Word) : (s.observe v).brp = s.brp := rfl
@[simp] theorem State.observe_pbuf (s : State) (v : Word) : (s.observe v).pbuf = s.pbuf := rfl
@[simp] theorem State.observe_prp (s : State) (v : Word) : (s.observe v).prp = s.prp := rfl
@[simp] theorem State.observe_data (s : State) (v : Word) : (s.observe v).data = s.data := rfl
@[simp] theorem State.observe_res0 (s : State) (v : Word) : (s.observe v).res0 = s.res0 := rfl
@[simp] theorem State.observe_res1 (s : State) (v : Word) : (s.observe v).res1 = s.res1 := rfl
@[simp] theorem State.observe_res2 (s : State) (v : Word) : (s.observe v).res2 = s.res2 := rfl
@[simp] theorem State.observe_phase (s : State) (v : Word) : (s.observe v).phase = s.phase := rfl
@[simp] theorem State.observe_eos (s : State) (v : Word) : (s.observe v).eos = s.eos := rfl
@[simp] theorem State.observe_sticky (s : State) (v : Word) : (s.observe v).sticky = s.sticky := rfl
@[simp] theorem State.observe_overrun (s : State) (v : Word) : (s.observe v).overrun = s.overrun := rfl
@[simp] theorem State.observe_err (s : State) (v : Word) : (s.observe v).err = s.err := rfl
@[simp] theorem State.observe_cmdl (s : State) (v : Word) : (s.observe v).cmdl = s.cmdl := rfl
@[simp] theorem State.observe_pending (s : State) (v : Word) : (s.observe v).pending = s.pending := rfl
@[simp] theorem State.observe_reads (s : State) (v : Word) : (s.observe v).reads = s.reads ++ [v] := rfl
@[simp] theorem State.observe_draw (s : State) (v : Word) : (s.observe v).draw = s.draw := rfl

/-! ### assertion of the reset input -/

@[simp] theorem assertReset_params (s : State) : (assertReset s).params = s.params := rfl
@[simp] theorem assertReset_freq (s : State) : (assertReset s).freq = s.freq := rfl
@[simp] theorem assertReset_total (s : State) : (assertReset s).total = s.total := rfl
@[simp] theorem assertReset_tbs (s : State) : (assertReset s).tbs = s.tbs := rfl
@[simp] theorem assertReset_node (s : State) : (assertReset s).node = s.node := rfl
@[simp] theorem assertReset_inq (s : State) : (assertReset s).inq = s.inq := rfl
@[simp] theorem assertReset_nsyms (s : State) : (assertReset s).nsyms = s.nsyms := rfl
@[simp] theorem assertReset_root (s : State) : (assertReset s).root = s.root := rfl
@[simp] theorem assertReset_ctlen (s : State) : (assertReset s).ctlen = s.ctlen := rfl
@[simp] theorem assertReset_ctcode (s : State) : (assertReset s).ctcode = s.ctcode := rfl
@[simp] theorem assertReset_bitbuf (s : State) : (assertReset s).bitbuf = s.bitbuf := rfl
@[simp] theorem assertReset_brp (s : State) : (assertReset s).brp = s.brp := rfl
@[simp] theorem assertReset_pbuf (s : State) : (assertReset s).pbuf = s.pbuf := rfl
@[simp] theorem assertReset_prp (s : State) : (assertReset s).prp = s.prp := rfl
@[simp] theorem assertReset_data (s : State) : (assertReset s).data = s.data := rfl
@[simp] theorem assertReset_res0 (s : State) : (assertReset s).res0 = s.res0 := rfl
@[simp] theorem assertReset_res1 (s : State) : (assertReset s).res1 = s.res1 := rfl
@[simp] theorem assertReset_res2 (s : State) : (assertReset s).res2 = s.res2 := rfl
@[simp] theorem assertReset_phase (s : State) : (assertReset s).phase = .inReset := rfl
@[simp] theorem assertReset_eos (s : State) : (assertReset s).eos = s.eos := rfl
@[simp] theorem assertReset_sticky (s : State) : (assertReset s).sticky = s.sticky := rfl
@[simp] theorem assertReset_overrun (s : State) : (assertReset s).overrun = s.overrun := rfl
@[simp] theorem assertReset_err (s : State) : (assertReset s).err = s.err := rfl
@[simp] theorem assertReset_cmdl (s : State) : (assertReset s).cmdl = s.cmdl := rfl
@[simp] theorem assertReset_pending (s : State) : (assertReset s).pending = s.pending := rfl
@[simp] theorem assertReset_reads (s : State) : (assertReset s).reads = s.reads := rfl
@[simp] theorem assertReset_draw (s : State) : (assertReset s).draw = s.draw := rfl

/-! ### a latched command word -/

@[simp] theorem latchWord_params (s : State) (w : Word) : (latchWord s w).params = s.params := rfl
@[simp] theorem latchWord_freq (s : State) (w : Word) : (latchWord s w).freq = s.freq := rfl
@[simp] theorem latchWord_total (s : State) (w : Word) : (latchWord s w).total = s.total := rfl
@[simp] theorem latchWord_tbs (s : State) (w : Word) : (latchWord s w).tbs = s.tbs := rfl
@[simp] theorem latchWord_node (s : State) (w : Word) : (latchWord s w).node = s.node := rfl
@[simp] theorem latchWord_inq (s : State) (w : Word) : (latchWord s w).inq = s.inq := rfl
@[simp] theorem latchWord_nsyms (s : State) (w : Word) : (latchWord s w).nsyms = s.nsyms := rfl
@[simp] theorem latchWord_root (s : State) (w : Word) : (latchWord s w).root = s.root := rfl
@[simp] theorem latchWord_ctlen (s : State) (w : Word) : (latchWord s w).ctlen = s.ctlen := rfl
@[simp] theorem latchWord_ctcode (s : State) (w : Word) : (latchWord s w).ctcode = s.ctcode := rfl
@[simp] theorem latchWord_bitbuf (s : State) (w : Word) : (latchWord s w).bitbuf = s.bitbuf := rfl
@[simp] theorem latchWord_brp (s : State) (w : Word) : (latchWord s w).brp = s.brp := rfl
@[simp] theorem latchWord_pbuf (s : State) (w : Word) : (latchWord s w).pbuf = s.pbuf := rfl
@[simp] theorem latchWord_prp (s : State) (w : Word) : (latchWord s w).prp = s.prp := rfl
@[simp] theorem latchWord_data (s : State) (w : Word) : (latchWord s w).data = s.data := rfl
@[simp] theorem latchWord_res0 (s : State) (w : Word) : (latchWord s w).res0 = s.res0 := rfl
@[simp] theorem latchWord_res1 (s : State) (w : Word) : (latchWord s w).res1 = s.res1 := rfl
@[simp] theorem latchWord_res2 (s : State) (w : Word) : (latchWord s w).res2 = s.res2 := rfl
@[simp] theorem latchWord_phase (s : State) (w : Word) : (latchWord s w).phase = .command := rfl
@[simp] theorem latchWord_eos (s : State) (w : Word) : (latchWord s w).eos = s.eos := rfl
@[simp] theorem latchWord_sticky (s : State) (w : Word) : (latchWord s w).sticky = s.sticky := rfl
@[simp] theorem latchWord_overrun (s : State) (w : Word) : (latchWord s w).overrun = s.overrun := rfl
@[simp] theorem latchWord_err (s : State) (w : Word) : (latchWord s w).err = s.err := rfl
@[simp] theorem latchWord_cmdl (s : State) (w : Word) : (latchWord s w).cmdl = w := rfl
@[simp] theorem latchWord_pending (s : State) (w : Word) : (latchWord s w).pending = .engineTurn :: s.pending := rfl
@[simp] theorem latchWord_reads (s : State) (w : Word) : (latchWord s w).reads = s.reads := rfl
@[simp] theorem latchWord_draw (s : State) (w : Word) : (latchWord s w).draw = s.draw := rfl

end Sys2Proof.Machine
end

