-- ==== Sys2Proof/Laws/TreeBuilder.lean ====
section
/-! SUPPORT. The laws of the tree builder: the queue, the extraction of the least key, what INIT and MERGE write, and that
what every step keeps the loop of BUILD keeps. -/

namespace Sys2Proof.Machine

/-! ### The queue -/

theorem bit_eq_one_of_ne {b : BitVec 1} (h : b ≠ 0) : b = 1 := by
  revert b
  decide

/-- In canonical form the queue is the list of listed slots. -/
theorem queue_eq_map {s : State} (h : s.inq.wf) : s.queue = s.inq.map (·.1) := by
  unfold State.queue
  rw [List.filter_eq_self.2]
  intro e he
  have := bit_eq_one_of_ne (h.2 e he)
  simp [this]

theorem mem_queue {s : State} (h : s.inq.wf) {i : Nat} : i ∈ s.queue ↔ s.inq.read i = 1 := by
  rw [queue_eq_map h]
  constructor
  · intro hi
    obtain ⟨⟨k, v⟩, he, rfl⟩ := List.mem_map.1 hi
    exact (Memory.read_of_mem h he).trans (bit_eq_one_of_ne (h.2 _ he))
  · intro hi
    have hm := Memory.mem_of_read_ne (m := s.inq) (a := i) (by rw [hi]; decide)
    exact List.mem_map.2 ⟨_, hm, rfl⟩

theorem queue_sorted {s : State} (h : s.inq.wf) : s.queue.Pairwise (· < ·) := by
  rw [queue_eq_map h, List.pairwise_map]
  exact h.1

theorem queue_nodup {s : State} (h : s.inq.wf) : s.queue.Nodup :=
  (queue_sorted h).imp fun hab => Nat.ne_of_lt hab

/-- Two queues in canonical form with the same members are equal. -/
theorem queue_eq_of_mem_iff {s : State} {l : List Nat} (h : s.inq.wf) (hl : l.Pairwise (· < ·))
    (hm : ∀ i, i ∈ s.queue ↔ i ∈ l) : s.queue = l :=
  List.Perm.eq_of_pairwise (le := (· < ·)) (by intro x y _ _ h1 h2; omega) (queue_sorted h) hl
    ((List.perm_ext_iff_of_nodup (queue_nodup h) (hl.imp fun hab => Nat.ne_of_lt hab)).2 hm)

theorem inq_eq_nil_of_queue {s : State} (h : s.inq.wf) (hq : s.queue = []) : s.inq = [] := by
  rw [queue_eq_map h] at hq
  exact List.map_eq_nil_iff.1 hq

/-- Taking a slot out of the queue. -/
theorem mem_queue_dequeue {s : State} (h : s.inq.wf) {i j : Nat} :
    j ∈ State.queue { s with inq := s.inq.write i 0 } ↔ j ∈ s.queue ∧ j ≠ i := by
  rw [mem_queue (s := { s with inq := s.inq.write i 0 }) (Memory.write_wf h i 0), mem_queue h, Memory.read_write h]
  by_cases hj : j = i
  · subst hj
    simp
  · simp [hj]

/-- Putting a slot into the queue. -/
theorem mem_queue_enqueue {s : State} (h : s.inq.wf) {i j : Nat} :
    j ∈ State.queue { s with inq := s.inq.write i 1 } ↔ j ∈ s.queue ∨ j = i := by
  rw [mem_queue (s := { s with inq := s.inq.write i 1 }) (Memory.write_wf h i 1), mem_queue h, Memory.read_write h]
  by_cases hj : j = i
  · subst hj
    simp
  · simp [hj]

theorem queue_dequeue_perm {s : State} (h : s.inq.wf) {i : Nat} (hi : i ∈ s.queue) :
    s.queue.Perm (i :: State.queue { s with inq := s.inq.write i 0 }) := by
  refine (List.perm_ext_iff_of_nodup (queue_nodup h) (List.nodup_cons.2
    ⟨fun hh => ((mem_queue_dequeue h).1 hh).2 rfl,
      queue_nodup (s := { s with inq := s.inq.write i 0 }) (Memory.write_wf h i 0)⟩)).2 fun j => ?_
  rw [List.mem_cons, mem_queue_dequeue h]
  by_cases hj : j = i
  · subst hj
    simp [hi]
  · simp [hj]

theorem queue_enqueue_perm {s : State} (h : s.inq.wf) {i : Nat} (hi : i ∉ s.queue) :
    (State.queue { s with inq := s.inq.write i 1 }).Perm (i :: s.queue) := by
  refine (List.perm_ext_iff_of_nodup (queue_nodup (s := { s with inq := s.inq.write i 1 }) (Memory.write_wf h i 1))
    (List.nodup_cons.2 ⟨hi, queue_nodup h⟩)).2 fun j => ?_
  rw [List.mem_cons, mem_queue_enqueue h, or_comm]

/-! ### Extraction -/

theorem freqAt_eq {s : State} {i : Nat} {nd : Node} (h : s.node[i]? = some nd) : s.freqAt i = nd.freq.toNat := by
  simp [State.freqAt, h]

/-- The keys of valid slots. -/
theorem keysOf_valid {s : State} {is : List Nat} (h : ∀ i ∈ is, i < s.nnodes) :
    keysOf s is = some (is.map fun i => (s.freqAt i, i)) := by
  induction is with
  | nil => rfl
  | cons i is ih =>
    have hi : s.node[i]? = some (s.node[i]'(h i (by simp))) := List.getElem?_eq_getElem _
    rw [keysOf, ih fun j hj => h j (List.mem_cons_of_mem _ hj)]
    simp [State.keyOf, hi, State.freqAt]

/-- Where keysOf answers, every slot is valid. -/
theorem valid_of_keysOf {s : State} {is : List Nat} {ks : List (Nat × Nat)} (h : keysOf s is = some ks) :
    ∀ i ∈ is, i < s.nnodes := by
  induction is generalizing ks with
  | nil => simp
  | cons i is ih =>
    rw [keysOf] at h
    split at h
    · next k ks' hk hks =>
      intro j hj
      rcases List.mem_cons.1 hj with rfl | hj
      · by_contra hlt
        have : s.node[j]? = none := List.getElem?_eq_none (Nat.le_of_not_lt hlt)
        simp [State.keyOf, this] at hk
      · exact ih hks j hj
    · cases h

theorem keyLt_iff {x y : Nat × Nat} : keyLt x y = true ↔ x.1 < y.1 ∨ (x.1 = y.1 ∧ x.2 < y.2) := by
  simp [keyLt]

/-- The least key is one of the keys, and no other is below it. -/
theorem leastKey_some {ks : List (Nat × Nat)} {k : Nat × Nat} (h : leastKey ks = some k) :
    k ∈ ks ∧ ∀ x ∈ ks, x = k ∨ keyLt k x = true := by
  induction ks generalizing k with
  | nil => cases h
  | cons x ks ih =>
    rw [leastKey] at h
    split at h
    · next hn =>
      cases h
      refine ⟨by simp, fun y hy => ?_⟩
      rcases List.mem_cons.1 hy with rfl | hy
      · exact .inl rfl
      · cases ks with
        | nil => simp at hy
        | cons z zs =>
          rw [leastKey] at hn
          split at hn
          · cases hn
          · split at hn <;> cases hn
    · next m hm =>
      obtain ⟨hmem, hle⟩ := ih hm
      by_cases hlt : keyLt m x = true
      · rw [if_pos hlt] at h
        cases h
        refine ⟨List.mem_cons_of_mem _ hmem, fun y hy => ?_⟩
        rcases List.mem_cons.1 hy with rfl | hy
        · exact .inr hlt
        · exact hle y hy
      · rw [if_neg hlt] at h
        cases h
        refine ⟨by simp, fun y hy => ?_⟩
        rcases List.mem_cons.1 hy with rfl | hy
        · exact .inl rfl
        · by_cases hyx : y = x
          · exact .inl hyx
          · right
            have hne : ¬ (y.1 = x.1 ∧ y.2 = x.2) := fun hh => hyx (Prod.ext hh.1 hh.2)
            rw [keyLt_iff] at hlt ⊢
            rcases hle y hy with hy' | hy'
            · subst hy'
              omega
            · rw [keyLt_iff] at hy'
              omega

theorem leastKey_eq_none {ks : List (Nat × Nat)} (h : leastKey ks = none) : ks = [] := by
  cases ks with
  | nil => rfl
  | cons z zs =>
    rw [leastKey] at h
    split at h
    · cases h
    · split at h <;> cases h

/-- Extraction answers where the queue is not empty and names valid slots only: the slot with the least key. -/
theorem extract_valid {s : State} (hv : ∀ i ∈ s.queue, i < s.nnodes) (hne : s.queue ≠ []) :
    ∃ i ∈ s.queue, extract s = some ((s.freqAt i, i), { s with inq := s.inq.write i 0 })
      ∧ ∀ j ∈ s.queue, j ≠ i → s.keyBelow i j := by
  unfold extract
  rw [keysOf_valid hv]
  cases hk : leastKey (s.queue.map fun i => (s.freqAt i, i)) with
  | none => exact absurd (List.map_eq_nil_iff.1 (leastKey_eq_none hk)) hne
  | some k =>
    obtain ⟨hmem, hle⟩ := leastKey_some hk
    obtain ⟨i, hi, rfl⟩ := List.mem_map.1 hmem
    refine ⟨i, hi, by simp only [hk], fun j hj hji => ?_⟩
    rcases hle (s.freqAt j, j) (List.mem_map.2 ⟨j, hj, rfl⟩) with h | h
    · exact absurd (congrArg Prod.snd h) hji
    · exact keyLt_iff.1 h

/-- What extraction answers: a queued valid slot with the least key, and the state without it in the queue. -/
theorem extract_some {s s1 : State} {k : Nat × Nat} (h : extract s = some (k, s1)) :
    (∀ i ∈ s.queue, i < s.nnodes) ∧ k.2 ∈ s.queue ∧ k.1 = s.freqAt k.2 ∧ s1 = { s with inq := s.inq.write k.2 0 }
      ∧ ∀ j ∈ s.queue, j ≠ k.2 → s.keyBelow k.2 j := by
  have hv : ∀ i ∈ s.queue, i < s.nnodes := by
    unfold extract at h
    cases hk : keysOf s s.queue with
    | none => rw [hk] at h; cases h
    | some ks => exact valid_of_keysOf hk
  have hne : s.queue ≠ [] := by
    intro hq
    unfold extract at h
    rw [hq] at h
    cases h
  obtain ⟨i, hi, he, hle⟩ := extract_valid hv hne
  rw [he] at h
  cases h
  exact ⟨hv, hi, rfl, rfl, hle⟩

/-! ### The steps -/

theorem stepMerge_stepped {s t : State} (h : stepMerge s = .stepped t) :
    ∃ a b s1 s2, extract s = some (a, s1) ∧ extract s1 = some (b, s2) ∧ t = insertParent a b s2 := by
  unfold stepMerge at h
  split at h
  · cases h
  · next a s1 h1 =>
    split at h
    · cases h
    · next b s2 h2 =>
      cases h
      exact ⟨a, b, s1, s2, h1, h2, rfl⟩

theorem stepMerge_ne_tooLong {s : State} : stepMerge s ≠ .tooLong := by
  unfold stepMerge
  split
  · nofun
  · split <;> nofun

theorem stepMerge_broken {s : State} {f : Fault} (h : stepMerge s = .broken f) :
    f = .brokenQueue ∧ (extract s = none ∨ ∃ a s1, extract s = some (a, s1) ∧ extract s1 = none) := by
  unfold stepMerge at h
  split at h
  · next h1 =>
    cases h
    exact ⟨rfl, .inl h1⟩
  · next a s1 h1 =>
    split at h
    · next h2 =>
      cases h
      exact ⟨rfl, .inr ⟨a, s1, h1, h2⟩⟩
    · cases h

theorem stepAssign_stepped {s t : State} (h : stepAssign s = .stepped t) :
    ∃ codes, s.assignment = some codes ∧ (∀ e ∈ codes, e.2.length ≤ s.params.maxlen)
      ∧ t = { s with ctlen := writeLengths s.ctlen codes, ctcode := writeCodes s.ctcode codes, tbs := .done } := by
  unfold stepAssign at h
  split at h
  · cases h
  · next codes hc =>
    split at h
    · cases h
    · next hl =>
      cases h
      refine ⟨codes, hc, fun e he => ?_, rfl⟩
      simp only [List.any_eq_true, decide_eq_true_eq, not_exists, not_and] at hl
      exact Nat.le_of_not_lt (hl e he)

theorem stepAssign_tooLong {s : State} (h : stepAssign s = .tooLong) :
    ∃ codes, s.assignment = some codes ∧ ∃ e ∈ codes, s.params.maxlen < e.2.length := by
  unfold stepAssign at h
  split at h
  · cases h
  · next codes hc =>
    split at h
    · next hl =>
      simp only [List.any_eq_true, decide_eq_true_eq] at hl
      exact ⟨codes, hc, hl⟩
    · cases h

theorem stepAssign_broken {s : State} {f : Fault} (h : stepAssign s = .broken f) :
    f = .brokenTree ∧ s.assignment = none := by
  unfold stepAssign at h
  split at h
  · next hc =>
    cases h
    exact ⟨rfl, hc⟩
  · split at h <;> cases h

/-- The state a step of the tree builder gives. -/
theorem tbStep_stepped {s t : State} (h : tbStep s = .stepped t) :
    (s.tbs = .idle ∧ t = stepInit s) ∨ (s.tbs = .merge ∧ stepMerge s = .stepped t)
      ∨ (s.tbs = .assign ∧ stepAssign s = .stepped t) ∨ (s.tbs = .done ∧ t = s) := by
  unfold tbStep at h
  cases hs : s.tbs <;> rw [hs] at h
  · cases h
    exact .inl ⟨rfl, rfl⟩
  · exact .inr (.inl ⟨rfl, h⟩)
  · exact .inr (.inr (.inl ⟨rfl, h⟩))
  · cases h
    exact .inr (.inr (.inr ⟨rfl, rfl⟩))

/-- What every step of the tree builder keeps, the loop of BUILD keeps; it ends in DONE. -/
theorem runToDone_induction {P : State → Prop} (keep : ∀ s t, P s → tbStep s = .stepped t → P t) {n : Nat} {s t : State}
    (hs : P s) (h : runToDone n s = .stepped t) : P t ∧ t.tbs = .done := by
  induction n generalizing s with
  | zero =>
    rw [runToDone] at h
    split at h
    · next hd =>
      cases h
      exact ⟨hs, hd⟩
    · cases h
  | succ n ih =>
    rw [runToDone] at h
    split at h
    · next hd =>
      cases h
      exact ⟨hs, hd⟩
    · split at h
      · next s' hs' => exact ih (keep s s' hs hs') h
      · cases h
      · cases h

end Sys2Proof.Machine
end

