-- ==== Sys2Proof/Laws/Alphabet.lean ====
section
/-! SUPPORT. The alphabet of a build, the sum of the counts, and what the INIT step makes of them. -/

namespace Sys2Proof.Machine

theorem nsym_le {s : State} (h : s.params.wf) : s.nsym ≤ 65536 :=
  Nat.le_trans (Nat.pow_le_pow_right (by omega) h.1.2) (by decide)

theorem mem_alphabet {s : State} {sym : Nat} : sym ∈ s.alphabet ↔ sym < s.nsym ∧ s.freq.read sym ≠ 0 := by
  simp [State.alphabet]

theorem alphabet_sorted (s : State) : s.alphabet.Pairwise (· < ·) := List.pairwise_lt_range.filter _

theorem alphabet_nodup (s : State) : s.alphabet.Nodup := (alphabet_sorted s).imp fun h => Nat.ne_of_lt h

theorem alphabet_length_le (s : State) : s.alphabet.length ≤ s.nsym := by
  have := List.length_filter_le (fun sym => decide (s.freq.read sym ≠ 0)) (List.range s.nsym)
  rwa [List.length_range] at this

/-- The alphabet has at most 2^16 symbols (R6). -/
theorem alphabet_length_le_of_wf {s : State} (h : s.params.wf) : s.alphabet.length ≤ 65536 :=
  Nat.le_trans (alphabet_length_le s) (nsym_le h)

/-- The symbols outside the alphabet add nothing to the sum of the counts. -/
theorem sum_alphabet (s : State) : (s.alphabet.map fun sym => (s.freq.read sym).toNat).sum = freqSum s := by
  unfold freqSum State.alphabet
  induction List.range s.nsym with
  | nil => rfl
  | cons x l ih =>
    rw [List.filter_cons, List.map_cons, List.sum_cons, ← ih]
    by_cases hx : s.freq.read x = 0
    · rw [if_neg (by simpa using hx), hx]
      simp
    · rw [if_pos (by simpa using hx), List.map_cons, List.sum_cons]

theorem freq_le_freqSum {s : State} {sym : Nat} (h : sym < s.nsym) : (s.freq.read sym).toNat ≤ freqSum s :=
  List.single_le_sum (by simp) _ (List.mem_map.2 ⟨sym, List.mem_range.2 h, rfl⟩)

/-- Writing one count changes the sum by the difference (R102, R103). -/
theorem freqSum_write {s t : State} (hs : s.freq.wf) {sym : Nat} {v : Word} (h : sym < s.nsym) (hp : t.params = s.params)
    (hf : t.freq = s.freq.write sym v) : freqSum t + (s.freq.read sym).toNat = freqSum s + v.toNat := by
  unfold freqSum
  have hn : t.nsym = s.nsym := by rw [State.nsym, State.nsym, hp]
  rw [hn, hf]
  have key : ∀ l : List Nat, l.Nodup →
      ((l.map fun x => ((s.freq.write sym v).read x).toNat).sum + (if sym ∈ l then (s.freq.read sym).toNat else 0)
        = (l.map fun x => (s.freq.read x).toNat).sum + if sym ∈ l then v.toNat else 0) := by
    intro l hl
    induction l with
    | nil => rfl
    | cons x l ih =>
      obtain ⟨hx, hl⟩ := List.nodup_cons.1 hl
      have := ih hl
      rw [List.map_cons, List.sum_cons, List.map_cons, List.sum_cons, Memory.read_write hs]
      by_cases hxs : x = sym
      · subst hxs
        simp only [hx, if_true, if_false, List.mem_cons, true_or] at this ⊢
        omega
      · have hsx : sym ≠ x := fun hh => hxs hh.symm
        simp only [List.mem_cons, hsx, hxs, false_or, if_false] at this ⊢
        omega
  have := key (List.range s.nsym) List.nodup_range
  simpa only [List.mem_range, h, if_true] using this

/-! ### The INIT step -/

theorem enqueueFirst_wf {m : Memory 1} (h : Memory.wf m) (k : Nat) : Memory.wf (enqueueFirst m k) :=
  Memory.foldl_write_wf (fun i => i) (fun _ => 1#1) (List.range k) h

theorem read_enqueueFirst (k i : Nat) : (enqueueFirst [] k).read i = if i < k then 1#1 else 0#1 := by
  unfold enqueueFirst
  by_cases h : i < k
  · rw [if_pos h]
    exact foldl_write_read_self (fun i => i) (fun _ => 1#1) Memory.wf_nil ⟨i, List.mem_range.2 h, rfl⟩ fun _ _ _ => rfl
  · rw [if_neg h]
    exact foldl_write_read_other (m := []) (fun i => i) (fun _ => 1#1) fun e he hei => h (hei ▸ List.mem_range.1 he)

theorem queue_enqueueFirst {s : State} {k : Nat} (h : s.inq = enqueueFirst [] k) : s.queue = List.range k := by
  have hw : s.inq.wf := h ▸ enqueueFirst_wf Memory.wf_nil k
  refine queue_eq_of_mem_iff hw List.pairwise_lt_range fun i => ?_
  rw [mem_queue hw, h, read_enqueueFirst, List.mem_range]
  by_cases hi : i < k <;> simp [hi]

/-- What INIT makes of an empty queue, by the size of the alphabet. -/
theorem stepInit_eq {s : State} (hq : s.inq = []) :
    stepInit s =
      if s.alphabet.length = 0 then
        { s with node := s.alphabet.map s.leafOf, inq := [], nsyms := 0, tbs := .done }
      else if s.alphabet.length = 1 then
        { s with node := s.alphabet.map s.leafOf, inq := [], nsyms := 1, root := 0, tbs := .assign }
      else
        { s with node := s.alphabet.map s.leafOf, inq := enqueueFirst [] s.alphabet.length
                 nsyms := BitVec.ofNat 32 s.alphabet.length, tbs := .merge } := by
  unfold stepInit
  simp only [List.length_map, hq]
  split_ifs with h0 h1
  · rw [h0]
    rfl
  · rw [h1]
    rfl
  · rfl

theorem getElem_leaves {s : State} {i : Nat} {nd : Node} (h : (s.alphabet.map s.leafOf)[i]? = some nd) :
    ∃ sym, s.alphabet[i]? = some sym ∧ nd = s.leafOf sym := by
  rw [List.getElem?_map] at h
  cases hs : s.alphabet[i]? with
  | none => rw [hs] at h; cases h
  | some sym =>
    rw [hs] at h
    cases h
    exact ⟨sym, rfl, rfl⟩

/-- The leaves weigh what the symbols count. -/
theorem freqAt_leaves {s t : State} (h : t.node = s.alphabet.map s.leafOf) :
    ((List.range s.alphabet.length).map t.freqAt).sum = freqSum s := by
  rw [← sum_alphabet]
  congr 1
  apply List.ext_getElem
  · simp
  · intro i h1 h2
    have hi : i < s.alphabet.length := by simpa using h1
    simp [State.freqAt, h, List.getElem?_eq_getElem hi, State.leafOf]

end Sys2Proof.Machine
end

