-- ==== Sys2Proof/Laws/Assign.lean ====
section
/-! SUPPORT. The ASSIGN step (spec/43_code_table.md R140 to R143): the codes of a finished tree, the table they make, and
that the step keeps the invariant. -/

namespace Sys2Proof.Machine

/-! ### The walks of a finished tree -/

/-- One more bit at the end of a walk goes to a child. -/
theorem walk_snoc {node : List Node} {i j : Nat} {p : Bits} {b : Bool} (h : walk node i (p ++ [b]) = some j) :
    ∃ k nd, walk node i p = some k ∧ node[k]? = some nd ∧ nd.leaf = false
      ∧ j = if b then nd.right.toNat else nd.left.toNat := by
  rw [walk_append] at h
  cases hk : walk node i p with
  | none => rw [hk] at h; cases h
  | some k =>
    rw [hk] at h
    have h : walk node k [b] = some j := h
    rw [walk] at h
    cases hn : node[k]? with
    | none => rw [hn] at h; cases h
    | some nd =>
      rw [hn] at h
      simp only at h
      split at h
      · cases h
      · next hl =>
        cases h
        exact ⟨k, nd, rfl, hn, by simpa using hl, rfl⟩

theorem walk_snoc_eq {node : List Node} {i k : Nat} {nd : Node} {p : Bits} (h : walk node i p = some k)
    (hn : node[k]? = some nd) (hl : nd.leaf = false) (b : Bool) :
    walk node i (p ++ [b]) = some (if b then nd.right.toNat else nd.left.toNat) := by
  rw [walk_append, h]
  show walk node k [b] = _
  simp [walk, hn, hl]

/-- The tree of ASSIGN and DONE, with at least one symbol. -/
structure TreeFacts (s : State) : Prop where
  root : s.root.toNat + 1 = s.nnodes
  lower : childrenLower s.node
  distinct : ∀ nd ∈ s.node, nd.leaf = false → nd.left ≠ nd.right
  parent : ∀ i < s.nnodes, i ≠ s.root.toNat →
    ∃ j < s.nnodes, childOf s.node i j ∧ ∀ k < s.nnodes, childOf s.node i k → k = j

theorem treeFacts {s : State} (h : Inv s) (hs : s.finished) (hn : s.nsyms ≠ 0) : TreeFacts s := by
  refine ⟨h.finished.root hs hn, h.tree.lower, h.tree.distinct, fun i hi hr => h.tree.parent i hi ?_ fun hh => hr hh.2⟩
  rw [State.queue, h.finished.queue hs]
  exact List.not_mem_nil

/-- Every slot is on a walk from the root. -/
theorem reached {s : State} (h : TreeFacts s) {j : Nat} (hj : j < s.nnodes) :
    ∃ p, walk s.node s.root.toNat p = some j := by
  have hroot := h.root
  have key : ∀ n, ∀ j, j < s.nnodes → s.nnodes - j ≤ n → ∃ p, walk s.node s.root.toNat p = some j := by
    intro n
    induction n with
    | zero => intro j h1 h2; omega
    | succ n ih =>
      intro j h1 h2
      by_cases hjr : j = s.root.toNat
      · exact ⟨[], by rw [hjr]; rfl⟩
      · obtain ⟨k, hk, ⟨nd, hnd, hl, hc⟩, -⟩ := h.parent j h1 hjr
        have hlow := h.lower k hk nd hnd hl
        obtain ⟨p, hp⟩ := ih k hk (by omega)
        rcases hc with hc | hc
        · exact ⟨p ++ [false], by rw [walk_snoc_eq hp hnd hl]; simp [hc]⟩
        · exact ⟨p ++ [true], by rw [walk_snoc_eq hp hnd hl]; simp [hc]⟩
  exact key _ j hj (Nat.le_refl _)

/-- At most one walk leads to a slot. -/
theorem walk_unique {s : State} (h : TreeFacts s) {p q : Bits} {j : Nat} (hp : walk s.node s.root.toNat p = some j)
    (hq : walk s.node s.root.toNat q = some j) : p = q := by
  have hroot := h.root
  have hrl : s.root.toNat < s.node.length := by
    show s.root.toNat < s.nnodes
    omega
  have below : ∀ {p b j}, walk s.node s.root.toNat (p ++ [b]) = some j → ∃ k nd, walk s.node s.root.toNat p = some k
      ∧ s.node[k]? = some nd ∧ nd.leaf = false ∧ (j = if b then nd.right.toNat else nd.left.toNat)
      ∧ k < s.nnodes ∧ j < k ∧ k ≤ s.root.toNat ∧ childOf s.node j k := by
    intro p b j hw
    obtain ⟨k, nd, hk, hn, hl, rfl⟩ := walk_snoc hw
    obtain ⟨hk1, hk2⟩ := walk_le h.lower hrl hk
    have hlow := h.lower k hk2 nd hn hl
    refine ⟨k, nd, hk, hn, hl, rfl, hk2, ?_, hk1, ⟨nd, hn, hl, ?_⟩⟩
    · cases b <;> simp [hlow]
    · cases b <;> simp
  induction p using List.reverseRecOn generalizing q j with
  | nil =>
    cases hp
    rcases List.eq_nil_or_concat q with rfl | ⟨q, b, rfl⟩
    · rfl
    · obtain ⟨k, -, -, -, -, -, -, h1, h2, -⟩ := below (by simpa using hq)
      omega
  | append_singleton p b ih =>
    obtain ⟨k, nd, hk, hn, hl, hj, hkn, hjk, hkr, hc⟩ := below hp
    rcases List.eq_nil_or_concat q with rfl | ⟨q, c, rfl⟩
    · cases hq
      omega
    · rw [List.concat_eq_append] at hq ⊢
      obtain ⟨k', nd', hk', hn', hl', hj', hkn', hjk', hkr', hc'⟩ := below hq
      obtain ⟨m, -, -, hu⟩ := h.parent j (by omega) (by omega)
      have hkk : k' = k := (hu k' hkn' hc').trans (hu k hkn hc).symm
      subst hkk
      rw [hn] at hn'
      cases hn'
      have hd := h.distinct nd (List.mem_of_getElem? hn) hl
      have hbc : b = c := by
        have hd' : nd.left.toNat ≠ nd.right.toNat := fun hh => hd (BitVec.eq_of_toNat_eq hh)
        rw [hj] at hj'
        cases b <;> cases c <;> simp at hj' ⊢ <;> omega
      rw [ih hk hk', hbc]

/-! ### The slots of the leaves -/

/-- The leaf of a symbol of the alphabet has a slot. -/
theorem leaf_slot {s : State} (h : Inv s) (hs : s.tbs ≠ .idle) {sym : Nat} (hsym : sym ∈ s.alphabet) :
    ∃ i < s.nnodes, s.node[i]? = some (s.leafOf sym) := by
  obtain ⟨i, hi⟩ := List.mem_iff_getElem?.1 hsym
  have ht : (s.node.take s.nsyms.toNat)[i]? = some (s.leafOf sym) := by
    rw [h.tree.leaves hs, List.getElem?_map, hi]
    rfl
  have hlt : i < s.nsyms.toNat := by
    by_contra hge
    rw [List.getElem?_take_eq_none (by omega)] at ht
    cases ht
  rw [List.getElem?_take_of_lt hlt] at ht
  exact ⟨i, (List.getElem?_eq_some_iff.1 ht).1, ht⟩

/-- A leaf slot is the slot of one symbol of the alphabet, and no other slot is. -/
theorem slot_leaf {s : State} (h : Inv s) (hs : s.tbs ≠ .idle) {i : Nat} {nd : Node} (hi : s.node[i]? = some nd)
    (hl : nd.leaf = true) : ∃ sym, s.alphabet[i]? = some sym ∧ nd = s.leafOf sym := by
  have hlt : i < s.nsyms.toNat := by
    by_contra hge
    have : nd ∈ s.node.drop s.nsyms.toNat := by
      apply List.mem_of_getElem? (i := i - s.nsyms.toNat)
      rw [List.getElem?_drop, Nat.add_sub_cancel' (by omega)]
      exact hi
    rw [(h.tree.internal nd this).1] at hl
    cases hl
  have ht : (s.node.take s.nsyms.toNat)[i]? = some nd := by rw [List.getElem?_take_of_lt hlt, hi]
  rw [h.tree.leaves hs] at ht
  exact getElem_leaves ht

/-- The symbol a leaf carries is the symbol it counts: 16 bits hold it. -/
theorem leafOf_sym {s : State} (h : s.params.wf) {sym : Nat} (hsym : sym ∈ s.alphabet) : (s.leafOf sym).sym.toNat = sym := by
  show (BitVec.ofNat 16 sym).toNat = sym
  have := (mem_alphabet.1 hsym).1
  have := nsym_le h
  rw [BitVec.toNat_ofNat, Nat.mod_eq_of_lt (by omega)]

/-! ### Paths and symbols -/

theorem pathOf_alphabet {s : State} (h : Inv s) (hs : s.tbs ≠ .idle) {sym : Nat} {p : Bits} (hp : s.pathOf sym p) :
    sym ∈ s.alphabet := by
  obtain ⟨i, -, nd, hnd, hl, rfl⟩ := hp
  obtain ⟨x, hx, rfl⟩ := slot_leaf h hs hnd hl
  have hm := List.mem_of_getElem? hx
  rwa [leafOf_sym h.params hm]

theorem pathOf_exists {s : State} (h : Inv s) (hs : s.finished) (hn : s.nsyms ≠ 0) {sym : Nat} (hsym : sym ∈ s.alphabet) :
    ∃ p, s.pathOf sym p := by
  have hne : s.tbs ≠ .idle := by
    rcases hs with hs | hs <;> rw [hs] <;> decide
  obtain ⟨i, hi, hnd⟩ := leaf_slot h hne hsym
  obtain ⟨p, hp⟩ := reached (treeFacts h hs hn) hi
  exact ⟨p, i, hp, _, hnd, rfl, leafOf_sym h.params hsym⟩

/-- No path to a leaf is a proper beginning of another: two paths, one a beginning of the other, are one, of one symbol. -/
theorem pathOf_beginning {s : State} {x y : Nat} {p q : Bits} (hp : s.pathOf x p) (hq : s.pathOf y q) (hpq : p <+: q) :
    p = q ∧ x = y := by
  obtain ⟨i, hi, nd, hnd, hl, rfl⟩ := hp
  obtain ⟨j, hj, nd', hnd', hl', rfl⟩ := hq
  have hpq := walk_leaf_beginning hi hnd hl hj hpq
  subst hpq
  rw [hi] at hj
  cases hj
  have hnd : s.node[i]? = some nd := hnd
  rw [hnd] at hnd'
  cases hnd'
  exact ⟨rfl, rfl⟩

theorem pathOf_unique {s : State} (h : Inv s) (hs : s.finished) (hn : s.nsyms ≠ 0) {sym : Nat} {p q : Bits}
    (hp : s.pathOf sym p) (hq : s.pathOf sym q) : p = q := by
  have hne : s.tbs ≠ .idle := by
    rcases hs with hs | hs <;> rw [hs] <;> decide
  obtain ⟨i, hi, nd, hnd, hl, hx⟩ := hp
  obtain ⟨j, hj, nd', hnd', hl', hy⟩ := hq
  obtain ⟨x, hxi, rfl⟩ := slot_leaf h hne hnd hl
  obtain ⟨y, hyj, rfl⟩ := slot_leaf h hne hnd' hl'
  rw [leafOf_sym h.params (List.mem_of_getElem? hxi)] at hx
  rw [leafOf_sym h.params (List.mem_of_getElem? hyj)] at hy
  subst hx hy
  have hij : i = j := by
    have hil := (List.getElem?_eq_some_iff.1 hxi).1
    exact (List.getElem?_inj hil (alphabet_nodup s)).1 (hxi.trans hyj.symm)
  subst hij
  exact walk_unique (treeFacts h hs hn) hi hj

/-- With two symbols or more the root is no leaf, so no path is empty. -/
theorem pathOf_ne_nil {s : State} (h : Inv s) (hs : s.finished) (h2 : 2 ≤ s.nsyms.toNat) {sym : Nat} {p : Bits}
    (hp : s.pathOf sym p) : p ≠ [] := by
  rintro rfl
  have hne : s.tbs ≠ .idle := by
    rcases hs with hs | hs <;> rw [hs] <;> decide
  have hn : s.nsyms ≠ 0 := by
    intro hh
    rw [hh] at h2
    exact absurd h2 (by decide)
  obtain ⟨i, hi, nd, hnd, hl, -⟩ := hp
  cases hi
  obtain ⟨x, hx, -⟩ := slot_leaf h hne hnd hl
  have h1 := (List.getElem?_eq_some_iff.1 hx).1
  have h3 := h.tree.count hne
  have h4 := h.finished.slots hs hn
  have h5 := h.finished.root hs hn
  omega

/-! ### The assignment -/

/-- A list of codes that gives each symbol of the alphabet one code, and no other symbol any, prefix-free, within MAXLEN. -/
structure GoodCodes (s : State) (codes : List (Nat × Bits)) : Prop where
  alphabet : ∀ e ∈ codes, e.1 ∈ s.alphabet
  each : ∀ sym ∈ s.alphabet, ∃ p, (sym, p) ∈ codes
  ne : ∀ e ∈ codes, e.2 ≠ []
  free : ∀ e ∈ codes, ∀ f ∈ codes, e.2 <+: f.2 → e = f
  same : ∀ e ∈ codes, ∀ f ∈ codes, e.1 = f.1 → e = f

/-- The assignment of a finished tree: "0" for the only symbol, else the paths from the root. -/
theorem assignment_spec {s : State} (h : Inv s) (hs : s.tbs = .assign) :
    ∃ codes, s.assignment = some codes ∧ GoodCodes s codes
      ∧ (s.nsyms = 1 → ∀ e ∈ codes, e.2 = [false])
      ∧ (s.nsyms ≠ 1 → ∀ sym p, (sym, p) ∈ codes ↔ s.pathOf sym p) := by
  have hne : s.tbs ≠ .idle := by rw [hs]; decide
  have hf : s.finished := .inl hs
  have hn : s.nsyms ≠ 0 := by
    intro hh
    have := (h.finished.none hf hh).2.2
    rw [hs] at this
    cases this
  have hcount := h.tree.count hne
  unfold State.assignment
  by_cases h1 : s.nsyms = 1
  · rw [if_pos h1]
    have h1' : s.alphabet.length = 1 := by
      rw [← hcount, h1]
      rfl
    obtain ⟨sym, hsym⟩ := List.length_eq_one_iff.1 h1'
    have ht := h.tree.leaves hne
    rw [hsym, h1] at ht
    have h0 : s.node[0]? = some (s.leafOf sym) := by
      have := congrArg (fun l => l[0]?) ht
      simpa using this
    have hmem : sym ∈ s.alphabet := by rw [hsym]; simp
    rw [h0]
    refine ⟨_, rfl, ⟨?_, ?_, ?_, ?_, ?_⟩, ?_, fun hh => absurd h1 hh⟩
    · intro e he
      rw [List.mem_singleton] at he
      subst he
      rwa [leafOf_sym h.params hmem]
    · intro x hx
      rw [hsym, List.mem_singleton] at hx
      subst hx
      exact ⟨[false], by rw [leafOf_sym h.params hmem]; simp⟩
    · intro e he
      rw [List.mem_singleton] at he
      subst he
      simp
    · intro e he f hf _
      rw [List.mem_singleton] at he hf
      rw [he, hf]
    · intro e he f hf _
      rw [List.mem_singleton] at he hf
      rw [he, hf]
    · intro _ e he
      rw [List.mem_singleton] at he
      rw [he]
  · rw [if_neg h1]
    have h2 : 2 ≤ s.nsyms.toNat := by
      have hx : s.nsyms.toNat ≠ 0 := fun hh => hn (BitVec.eq_of_toNat_eq hh)
      have hy : s.nsyms.toNat ≠ 1 := fun hh => h1 (BitVec.eq_of_toNat_eq hh)
      omega
    have hroot := h.finished.root hf hn
    obtain ⟨codes, hc, hm⟩ := paths_spec (node := s.node) h.tree.lower (depth := s.nnodes) (i := s.root.toNat) []
      (show s.root.toNat < s.nnodes by omega) (by omega)
    have hm : ∀ sym p, (sym, p) ∈ codes ↔ s.pathOf sym p := by
      intro sym p
      rw [hm]
      constructor
      · rintro ⟨r, j, rfl, hw, hj⟩
        exact ⟨j, hw, hj⟩
      · rintro ⟨j, hw, hj⟩
        exact ⟨p, j, rfl, hw, hj⟩
    refine ⟨codes, hc, ⟨?_, ?_, ?_, ?_, ?_⟩, fun hh => absurd hh h1, fun _ => hm⟩
    · rintro ⟨x, p⟩ he
      exact pathOf_alphabet h hne ((hm x p).1 he)
    · intro x hx
      obtain ⟨p, hp⟩ := pathOf_exists h hf hn hx
      exact ⟨p, (hm x p).2 hp⟩
    · rintro ⟨x, p⟩ he
      exact pathOf_ne_nil h hf h2 ((hm x p).1 he)
    · rintro ⟨x, p⟩ he ⟨y, q⟩ hf' hpq
      obtain ⟨h1, h2⟩ := pathOf_beginning ((hm x p).1 he) ((hm y q).1 hf') hpq
      have h1 : p = q := h1
      rw [h1, h2]
    · rintro ⟨x, p⟩ he ⟨y, q⟩ hf' hxy
      have hxy : x = y := hxy
      subst hxy
      rw [pathOf_unique h hf hn ((hm x p).1 he) ((hm x q).1 hf')]

/-! ### The table a list of codes makes -/

/-- What the table holds after the codes are written to an empty one. -/
structure TableOf (s t : State) (codes : List (Nat × Bits)) : Prop where
  code : ∀ e ∈ codes, (t.ctlen.read e.1).toNat = e.2.length ∧ (t.ctcode.read e.1).toNat = val e.2 ∧ t.codeOf e.1 = e.2
  none : ∀ sym, sym ∉ s.alphabet → t.ctlen.read sym = 0 ∧ t.ctcode.read sym = 0

theorem tableOf {s t : State} {codes : List (Nat × Bits)} (hg : GoodCodes s codes) (hl : ∀ e ∈ codes, e.2.length ≤ 64)
    (hlen : t.ctlen = writeLengths [] codes) (hcode : t.ctcode = writeCodes [] codes) : TableOf s t codes := by
  constructor
  · intro e he
    have e1 : t.ctlen.read e.1 = BitVec.ofNat 7 e.2.length := by
      rw [hlen]
      exact foldl_write_read_self (fun e : Nat × Bits => e.1) (fun e => BitVec.ofNat 7 e.2.length) Memory.wf_nil
        ⟨e, he, rfl⟩ fun f hf hfe => by rw [hg.same f hf e he hfe]
    have e2 : t.ctcode.read e.1 = BitVec.ofNat 64 (val e.2) := by
      rw [hcode]
      exact foldl_write_read_self (fun e : Nat × Bits => e.1) (fun e => BitVec.ofNat 64 (val e.2)) Memory.wf_nil
        ⟨e, he, rfl⟩ fun f hf hfe => by rw [hg.same f hf e he hfe]
    have hle := hl e he
    have h1 : (t.ctlen.read e.1).toNat = e.2.length := by
      rw [e1, BitVec.toNat_ofNat, Nat.mod_eq_of_lt (by omega)]
    have h2 : (t.ctcode.read e.1).toNat = val e.2 := by
      rw [e2, BitVec.toNat_ofNat, Nat.mod_eq_of_lt]
      exact Nat.lt_of_lt_of_le (val_lt e.2) (Nat.pow_le_pow_right (by omega) hle)
    exact ⟨h1, h2, by rw [State.codeOf, h1, h2, bitsOf_val]⟩
  · intro sym hsym
    have hx : ∀ e ∈ codes, e.1 ≠ sym := fun e he hh => hsym (hh ▸ hg.alphabet e he)
    constructor
    · rw [hlen]
      exact foldl_write_read_other (fun e : Nat × Bits => e.1) (fun e => BitVec.ofNat 7 e.2.length) hx
    · rw [hcode]
      exact foldl_write_read_other (fun e : Nat × Bits => e.1) (fun e => BitVec.ofNat 64 (val e.2)) hx

/-- The table of such codes meets R45 item 8. -/
theorem tableComplete_of {s t : State} {codes : List (Nat × Bits)} (hg : GoodCodes s codes)
    (hb : ∀ e ∈ codes, e.2.length ≤ s.params.maxlen) (ht : TableOf s t codes) (hp : t.params = s.params)
    (hf : t.freq = s.freq) : TableComplete t := by
  have hn : t.nsym = s.nsym := by rw [State.nsym, State.nsym, hp]
  have hcode : ∀ sym < s.nsym, s.freq.read sym ≠ 0 → ∃ p, (sym, p) ∈ codes := fun sym h1 h2 => hg.each sym (mem_alphabet.2 ⟨h1, h2⟩)
  have hnone : ∀ sym, s.freq.read sym = 0 → t.ctlen.read sym = 0 ∧ t.ctcode.read sym = 0 :=
    fun sym h => ht.none sym fun hh => (mem_alphabet.1 hh).2 h
  have hnz : ∀ e ∈ codes, t.ctlen.read e.1 ≠ 0 := by
    intro e he hh
    have h1 := (ht.code e he).1
    rw [hh] at h1
    exact hg.ne e he (List.length_eq_zero_iff.1 h1.symm)
  constructor
  · intro _ sym hsym
    rw [hn] at hsym
    rw [hf]
    constructor
    · intro h1 h2
      exact h1 (hnone sym h2).1
    · intro h1
      obtain ⟨p, hp⟩ := hcode sym hsym h1
      exact hnz _ hp
  · intro _ sym hsym
    rw [hn] at hsym
    by_cases h0 : s.freq.read sym = 0
    · rw [(hnone sym h0).1]
      exact Nat.zero_le _
    · obtain ⟨p, hp'⟩ := hcode sym hsym h0
      rw [(ht.code _ hp').1, hp]
      exact hb _ hp'
  · intro _ sym hsym
    rw [hn] at hsym
    by_cases h0 : s.freq.read sym = 0
    · rw [(hnone sym h0).1, (hnone sym h0).2]
      decide
    · obtain ⟨p, hp'⟩ := hcode sym hsym h0
      rw [(ht.code _ hp').1, (ht.code _ hp').2.1]
      exact val_lt p
  · intro _ x hx y hy hlx hly hxy hpre
    rw [hn] at hx hy
    have h1 : s.freq.read x ≠ 0 := fun hh => hlx (hnone x hh).1
    have h2 : s.freq.read y ≠ 0 := fun hh => hly (hnone y hh).1
    obtain ⟨p, hp'⟩ := hcode x hx h1
    obtain ⟨q, hq'⟩ := hcode y hy h2
    rw [(ht.code _ hp').2.2, (ht.code _ hq').2.2] at hpre
    exact hxy (congrArg Prod.fst (hg.free _ hp' _ hq' hpre))

/-- ASSIGN keeps the invariant. -/
theorem stepAssign_inv {s t : State} (h : Inv s) (hs : s.tbs = .assign) (hc : s.phase ≠ .clearing)
    (ht : stepAssign s = .stepped t) : Inv t := by
  obtain ⟨codes, ha, hg, -⟩ := assignment_spec h hs
  obtain ⟨codes', ha', hb, rfl⟩ := stepAssign_stepped ht
  rw [ha] at ha'
  cases ha'
  have hct := h.codes.ctlen (by rw [hs]; decide)
  have hcc := h.codes.ctcode (by rw [hs]; decide)
  have hf : s.finished := .inl hs
  have hml := h.params.2.1.2
  have hne : s.tbs ≠ .idle := by rw [hs]; decide
  refine ⟨h.params, ⟨h.canonical.freq, h.canonical.inq, ?_, ?_⟩, h.total, ⟨?_, ?_, ?_, ?_⟩,
    ⟨?_, ?_⟩, ⟨?_, ?_, ?_, ?_, ?_⟩, ⟨?_, ?_, ?_, ?_⟩, ⟨?_, ?_, h.tree.internal, h.tree.lower, h.tree.distinct, h.tree.sums, ?_, h.tree.orphans⟩,
    ⟨?_, ?_⟩, ?_, ⟨h.bounds.brp, h.bounds.blen, h.bounds.prp, h.bounds.plen⟩, ⟨?_, ?_, ?_⟩⟩
  · exact Memory.foldl_write_wf (fun e : Nat × Bits => e.1) (fun e => BitVec.ofNat 7 e.2.length) codes h.canonical.ctlen
  · exact Memory.foldl_write_wf (fun e : Nat × Bits => e.1) (fun e => BitVec.ofNat 64 (val e.2)) codes h.canonical.ctcode
  iterate 4 exact nofun
  iterate 2 exact fun hh => absurd rfl hh
  iterate 5 exact nofun
  · exact fun _ => h.finished.queue hf
  · intro _ hz
    have := (h.finished.none hf hz).2.2
    rw [hs] at this
    cases this
  · exact fun _ => h.finished.slots hf
  · exact fun _ => h.finished.root hf
  · exact fun _ => h.tree.leaves hne
  · exact fun _ => h.tree.count hne
  · intro i hi hq hr
    exact h.tree.parent i hi hq fun hh => hr ⟨.inr rfl, hh.2⟩
  · exact nofun
  · exact fun _ => h.weight.root hf
  · refine tableComplete_of hg hb (tableOf (s := s) hg (fun e he => Nat.le_trans (hb e he) hml) ?_ ?_) rfl rfl
    · rw [hct]
    · rw [hcc]
  iterate 3 exact fun hh => absurd hh hc

end Sys2Proof.Machine
end

