-- ==== Sys2Proof/Laws/Coding.lean ====
section
/-! SUPPORT. The laws of the codes: the length of a code, when a bit sequence is one, and how the loop of DEC ends. -/

namespace Sys2Proof.Machine

@[simp] theorem codeOf_length (s : State) (sym : Nat) : (s.codeOf sym).length = (s.ctlen.read sym).toNat := bitsOf_length _ _

theorem ctlen_ne_zero_iff {s : State} {sym : Nat} : s.ctlen.read sym ≠ 0 ↔ (s.ctlen.read sym).toNat ≠ 0 :=
  ⟨fun h hh => h (BitVec.eq_of_toNat_eq hh), fun h hh => h (by rw [hh]; rfl)⟩

/-- Bit j of bits_n(v) is bit n-1-j of v (R16). -/
theorem bitsOf_getElem? {n v j : Nat} (h : j < n) : (bitsOf n v)[j]? = some (v.testBit (n - 1 - j)) := by
  induction n generalizing j with
  | zero => omega
  | succ n ih =>
    cases j with
    | zero => simp [bitsOf]
    | succ j =>
      rw [bitsOf, List.getElem?_cons_succ, ih (by omega)]
      congr 2
      omega

/-- A sequence that passes the test of R30 is the code of the symbol. -/
theorem codeOf_of_isCode {s : State} {c : Bits} {sym : Nat} (h : s.isCode c sym = true) : s.codeOf sym = c := by
  unfold State.isCode at h
  rw [Bool.and_eq_true, beq_iff_eq, beq_iff_eq] at h
  rw [State.codeOf, h.1, h.2, bitsOf_val]

/-- The code of a symbol passes the test of R30, where CTCODE is below 2^CTLEN (R29). -/
theorem isCode_codeOf {s : State} {sym : Nat} (h : (s.ctcode.read sym).toNat < 2 ^ (s.ctlen.read sym).toNat) :
    s.isCode (s.codeOf sym) sym = true := by
  unfold State.isCode
  rw [Bool.and_eq_true, beq_iff_eq, beq_iff_eq, codeOf_length, State.codeOf, val_bitsOf, Nat.mod_eq_of_lt h]
  exact ⟨rfl, rfl⟩

/-- What the decode table answers is a symbol with that code. -/
theorem dt_some {s : State} {c : Bits} {sym : Nat} (h : s.dt c = some sym) :
    sym < s.nsym ∧ s.codeOf sym = c ∧ s.ctlen.read sym ≠ 0 ∧ 1 ≤ c.length ∧ c.length ≤ s.params.maxlen := by
  unfold State.dt at h
  split_ifs at h with h1
  have hc := codeOf_of_isCode (List.find?_some h)
  refine ⟨List.mem_range.1 (List.mem_of_find?_eq_some h), hc, ?_, h1⟩
  rw [ctlen_ne_zero_iff, ← codeOf_length, hc]
  omega

/-- A code's entry in the decode table, in a complete table: at most one symbol has it. -/
theorem dt_codeOf {s : State} (ht : TableComplete s) (hs : s.tbs = .done) {sym : Nat} (h : sym < s.nsym)
    (hl : s.ctlen.read sym ≠ 0) : s.dt (s.codeOf sym) = some sym := by
  have hl' := ctlen_ne_zero_iff.1 hl
  have hb := ht.bound hs sym h
  unfold State.dt
  rw [if_pos ⟨by rw [codeOf_length]; omega, by rw [codeOf_length]; exact hb⟩]
  have hi := isCode_codeOf (ht.value hs sym h)
  cases hf : (List.range s.nsym).find? (s.isCode (s.codeOf sym)) with
  | none =>
    rw [List.find?_eq_none] at hf
    exact absurd hi (hf sym (List.mem_range.2 h))
  | some x =>
    have hx := codeOf_of_isCode (List.find?_some hf)
    have hxn := List.mem_range.1 (List.mem_of_find?_eq_some hf)
    by_cases hxs : x = sym
    · rw [hxs]
    · refine absurd ?_ (ht.free hs x hxn sym h ?_ hl hxs)
      · rw [hx]
      · rw [ctlen_ne_zero_iff, ← codeOf_length, hx, codeOf_length]
        exact hl'

/-- A proper beginning of a code is no code. -/
theorem dt_beginning {s : State} (ht : TableComplete s) (hs : s.tbs = .done) {sym : Nat} (h : sym < s.nsym)
    (hl : s.ctlen.read sym ≠ 0) {c : Bits} (hc : c <+: s.codeOf sym) (hne : c ≠ s.codeOf sym) : s.dt c = none := by
  cases hd : s.dt c with
  | none => rfl
  | some x =>
    obtain ⟨h1, h2, h3, -, -⟩ := dt_some hd
    by_cases hx : x = sym
    · subst hx
      exact absurd h2.symm hne
    · exact absurd (h2 ▸ hc) (ht.free hs x h1 sym h h3 hl hx)

/-- LMAX is at least every code length (R31). -/
theorem ctlen_le_lmax {s : State} {sym : Nat} (h : sym < s.nsym) : (s.ctlen.read sym).toNat ≤ s.lmax := by
  have key : ∀ (l : List Nat) (n : Nat), n ≤ l.foldl (fun n sym => max n (s.ctlen.read sym).toNat) n
      ∧ ∀ x ∈ l, (s.ctlen.read x).toNat ≤ l.foldl (fun n sym => max n (s.ctlen.read sym).toNat) n := by
    intro l
    induction l with
    | nil => exact fun n => ⟨Nat.le_refl _, nofun⟩
    | cons y l ih =>
      intro n
      obtain ⟨h1, h2⟩ := ih (max n (s.ctlen.read y).toNat)
      refine ⟨Nat.le_trans (Nat.le_max_left _ _) h1, fun x hx => ?_⟩
      rcases List.mem_cons.1 hx with rfl | hx
      · exact Nat.le_trans (Nat.le_max_right _ _) h1
      · exact h2 x hx
  exact (key (List.range s.nsym) 0).2 sym (List.mem_range.2 h)

/-- LMAX is the length of some code, or 0 where no symbol has one (R31). -/
theorem lmax_reached (s : State) : ∃ sym < s.nsym, (s.ctlen.read sym).toNat = s.lmax := by
  have hn : 0 < s.nsym := Nat.pos_of_ne_zero (by simp [State.nsym, Params.nsym])
  have key (l : List Nat) (n : Nat) :
      l.foldl (fun n sym => max n (s.ctlen.read sym).toNat) n = n
        ∨ ∃ sym ∈ l, (s.ctlen.read sym).toNat = l.foldl (fun n sym => max n (s.ctlen.read sym).toNat) n := by
    induction l generalizing n with
    | nil => exact .inl rfl
    | cons a l ih =>
      rw [List.foldl_cons]
      rcases ih (max n (s.ctlen.read a).toNat) with h | ⟨sym, hs, h⟩
      · rw [h]
        rcases Nat.le_total n (s.ctlen.read a).toNat with hm | hm
        · exact .inr ⟨a, List.mem_cons_self, by omega⟩
        · exact .inl (by omega)
      · exact .inr ⟨sym, List.mem_cons_of_mem _ hs, h⟩
  rcases key (List.range s.nsym) 0 with h | ⟨sym, hs, h⟩
  · have := ctlen_le_lmax hn
    change s.lmax = 0 at h
    exact ⟨0, hn, by omega⟩
  · exact ⟨sym, List.mem_range.1 hs, h⟩

/-- The loop of DEC recognises the code at the head of the bits left (R170, R171). -/
theorem decLoop_code {s : State} (ht : TableComplete s) (hs : s.tbs = .done) {sym : Nat} (h : sym < s.nsym)
    (hl : s.ctlen.read sym ≠ 0) {cand tail rest : Bits} (hc : cand ++ tail = s.codeOf sym) (hne : tail ≠ []) :
    decLoop s cand (tail ++ rest) = .symbol sym (s.ctlen.read sym).toNat := by
  induction tail generalizing cand with
  | nil => exact absurd rfl hne
  | cons b tail ih =>
    rw [List.cons_append, decLoop]
    have hc' : (cand ++ [b]) ++ tail = s.codeOf sym := by simpa using hc
    have hlen := congrArg List.length hc'
    rw [List.length_append, codeOf_length] at hlen
    cases tail with
    | nil =>
      rw [List.append_nil] at hc'
      rw [hc', dt_codeOf ht hs h hl]
      simp
    | cons d tail =>
      rw [dt_beginning ht hs h hl (c := cand ++ [b]) ⟨d :: tail, hc'⟩ (by
        intro hh
        rw [← hh] at hc'
        simp at hc')]
      have hlm := ctlen_le_lmax (s := s) h
      simp only
      rw [List.length_cons] at hlen
      rw [if_neg (by omega)]
      exact ih hc' (by simp)

/-- The loop of DEC where no code is at the head of the bits left (R172, R173). -/
theorem decLoop_truncated {s : State} {cand rest : Bits}
    (h : ∀ sym < s.nsym, s.ctlen.read sym ≠ 0 → ¬ (s.codeOf sym <+: cand ++ rest)) (hne : cand ++ rest ≠ []) :
    decLoop s cand rest = .truncated := by
  induction rest generalizing cand with
  | nil =>
    rw [decLoop, if_neg (by simpa using hne)]
  | cons b rest ih =>
    rw [decLoop]
    have he : cand ++ b :: rest = (cand ++ [b]) ++ rest := by simp
    cases hd : s.dt (cand ++ [b]) with
    | some x =>
      obtain ⟨h1, h2, h3, -, -⟩ := dt_some hd
      refine absurd ?_ (h x h1 h3)
      rw [h2, he]
      exact ⟨rest, rfl⟩
    | none =>
      simp only
      split_ifs
      · rfl
      · exact ih (he ▸ h) (by simp)

/-- DEC consumes no more bits than are left. -/
theorem decLoop_consumed {s : State} {cand rest : Bits} {sym n : Nat} (h : decLoop s cand rest = .symbol sym n) :
    n ≤ cand.length + rest.length := by
  induction rest generalizing cand with
  | nil =>
    rw [decLoop] at h
    split at h <;> cases h
  | cons b rest ih =>
    rw [decLoop] at h
    split at h
    · cases h
      simp
    · split at h
      · cases h
      · have := ih h
        simp only [List.length_append, List.length_cons, List.length_nil] at this ⊢
        omega

/-- The end of the stream: no bits are left, and none was taken. -/
theorem decLoop_endOfStream {s : State} {cand rest : Bits} (h : decLoop s cand rest = .endOfStream) :
    cand = [] ∧ rest = [] := by
  induction rest generalizing cand with
  | nil =>
    rw [decLoop] at h
    split at h
    · next hc => exact ⟨hc, rfl⟩
    · cases h
  | cons b rest ih =>
    rw [decLoop] at h
    split at h
    · cases h
    · split at h
      · cases h
      · have := (ih h).1
        simp at this

end Sys2Proof.Machine
end

