-- ==== Sys2Proof/Laws/Commands.lean ====
section
/-! SUPPORT. What each command can do, said once: if its meaning answers a next state, that is an error report of the state
before, with the condition it is made under, or the success report of the state the command writes. -/

namespace Sys2Proof.Machine

theorem succeed_eq_next {s t : State} : succeed s = .next t ↔ t = s.reportOk :=
  ⟨fun h => by cases h; rfl, fun h => by rw [h]; rfl⟩

theorem raise_eq_next {e : Err} {s t : State} : raise e s = .next t ↔ t = s.reportErr e :=
  ⟨fun h => by cases h; rfl, fun h => by rw [h]; rfl⟩

theorem succeed_ne_fault {s : State} {f : Fault} : succeed s ≠ .fault f := nofun

theorem raise_ne_fault {e : Err} {s : State} {f : Fault} : raise e s ≠ .fault f := nofun

theorem execNop_next {s t : State} (h : execNop s = .next t) : t = s.reportOk := succeed_eq_next.1 h

theorem execSrst_next {s t : State} (h : execSrst s = .next t) : t = s.resetValues.reportOk := succeed_eq_next.1 h

theorem execClrfreq_next {s t : State} (h : execClrfreq s = .next t) :
    t = State.reportOk { s with
      freq := [], ctlen := [], ctcode := [], inq := []
      total := 0, node := [], nsyms := 0, root := 0, tbs := .idle } := succeed_eq_next.1 h

theorem execCount_next {sym : Nat} {s t : State} (h : execCount sym s = .next t) :
    (s.nsym ≤ sym ∧ t = s.reportErr .badSymbol)
    ∨ (sym < s.nsym ∧ s.tbs ≠ .idle ∧ t = s.reportErr .sequence)
    ∨ (sym < s.nsym ∧ s.tbs = .idle ∧ s.total.toNat = totalMax ∧ t = s.reportErr .freqOverflow)
    ∨ (sym < s.nsym ∧ s.tbs = .idle ∧ s.total.toNat ≠ totalMax
        ∧ t = State.reportOk { s with freq := s.freq.write sym (s.freq.read sym + 1), total := s.total + 1 }) := by
  unfold execCount at h
  split_ifs at h with h1 h2 h3
  · exact .inl ⟨h1, raise_eq_next.1 h⟩
  · exact .inr (.inl ⟨Nat.lt_of_not_le h1, h2, raise_eq_next.1 h⟩)
  · exact .inr (.inr (.inl ⟨Nat.lt_of_not_le h1, not_not.1 h2, h3, raise_eq_next.1 h⟩))
  · exact .inr (.inr (.inr ⟨Nat.lt_of_not_le h1, not_not.1 h2, h3, succeed_eq_next.1 h⟩))

theorem execSetfreq_next {sym : Nat} {s t : State} (h : execSetfreq sym s = .next t) :
    (s.nsym ≤ sym ∧ t = s.reportErr .badSymbol)
    ∨ (sym < s.nsym ∧ s.tbs ≠ .idle ∧ t = s.reportErr .sequence)
    ∨ (sym < s.nsym ∧ s.tbs = .idle ∧ totalMax < s.newTotal sym ∧ t = s.reportErr .freqOverflow)
    ∨ (sym < s.nsym ∧ s.tbs = .idle ∧ s.newTotal sym ≤ totalMax
        ∧ t = State.reportOk { s with
            freq := s.freq.write sym s.data, total := BitVec.ofNat 32 (s.newTotal sym) }) := by
  unfold execSetfreq at h
  split_ifs at h with h1 h2 h3
  · exact .inl ⟨h1, raise_eq_next.1 h⟩
  · exact .inr (.inl ⟨Nat.lt_of_not_le h1, h2, raise_eq_next.1 h⟩)
  · exact .inr (.inr (.inl ⟨Nat.lt_of_not_le h1, not_not.1 h2, h3, raise_eq_next.1 h⟩))
  · exact .inr (.inr (.inr ⟨Nat.lt_of_not_le h1, not_not.1 h2, Nat.le_of_not_lt h3, succeed_eq_next.1 h⟩))

theorem execGetfreq_next {sym : Nat} {s t : State} (h : execGetfreq sym s = .next t) :
    (s.nsym ≤ sym ∧ t = s.reportErr .badSymbol)
    ∨ (sym < s.nsym ∧ t = State.reportOk { s with res0 := s.freq.read sym }) := by
  unfold execGetfreq at h
  split_ifs at h with h1
  · exact .inl ⟨h1, raise_eq_next.1 h⟩
  · exact .inr ⟨Nat.lt_of_not_le h1, succeed_eq_next.1 h⟩

theorem finishSteps_next {s t : State} {r : StepResult} (h : finishSteps s r = .next t) :
    (∃ s', r = .stepped s' ∧ t = s'.reportOk) ∨ (r = .tooLong ∧ t = s.reportErr .codeTooLong) := by
  cases r with
  | stepped s' => exact .inl ⟨s', rfl, succeed_eq_next.1 h⟩
  | tooLong => exact .inr ⟨rfl, raise_eq_next.1 h⟩
  | broken f => cases h

theorem execBstep_next {s t : State} (h : execBstep s = .next t) :
    (∃ s', tbStep s = .stepped s' ∧ t = s'.reportOk) ∨ (tbStep s = .tooLong ∧ t = s.reportErr .codeTooLong) :=
  finishSteps_next h

theorem execBuild_next {s t : State} (h : execBuild s = .next t) :
    (∃ s', runToDone (s.nsym + 1) s = .stepped s' ∧ t = s'.reportOk)
    ∨ (runToDone (s.nsym + 1) s = .tooLong ∧ t = s.reportErr .codeTooLong) :=
  finishSteps_next h

theorem execTnode_next {s t : State} (h : execTnode s = .next t) :
    (s.node[s.dataSlot]? = none ∧ t = s.reportErr .range)
    ∨ ∃ nd, s.node[s.dataSlot]? = some nd ∧ t = State.reportOk { s with
        res0 := nd.freq
        res1 := tnodeWord (s.inq.read s.dataSlot) nd
        res2 := if nd.leaf then 0 else nd.right } := by
  unfold execTnode at h
  split at h
  · next h1 => exact .inl ⟨h1, raise_eq_next.1 h⟩
  · next nd h1 => exact .inr ⟨nd, h1, succeed_eq_next.1 h⟩

theorem execLookup_next {sym : Nat} {s t : State} (h : execLookup sym s = .next t) :
    (s.nsym ≤ sym ∧ t = s.reportErr .badSymbol)
    ∨ (sym < s.nsym ∧ s.tv = false ∧ t = s.reportErr .codeTableUnavailable)
    ∨ (sym < s.nsym ∧ s.tv = true ∧ s.ctlen.read sym = 0 ∧ t = s.reportErr .unknownSymbol)
    ∨ (sym < s.nsym ∧ s.tv = true ∧ s.ctlen.read sym ≠ 0 ∧ t = State.reportOk { s with
        res0 := (s.ctlen.read sym).setWidth 32
        res1 := (s.ctcode.read sym).extractLsb' 0 32
        res2 := (s.ctcode.read sym).extractLsb' 32 32 }) := by
  unfold execLookup at h
  split_ifs at h with h1 h2 h3
  · exact .inl ⟨h1, raise_eq_next.1 h⟩
  · exact .inr (.inl ⟨Nat.lt_of_not_le h1, h2, raise_eq_next.1 h⟩)
  · exact .inr (.inr (.inl ⟨Nat.lt_of_not_le h1, by simpa using h2, h3, raise_eq_next.1 h⟩))
  · exact .inr (.inr (.inr ⟨Nat.lt_of_not_le h1, by simpa using h2, h3, succeed_eq_next.1 h⟩))

theorem execDlookup_next {len : Nat} {s t : State} (h : execDlookup len s = .next t) :
    (s.tv = false ∧ t = s.reportErr .codeTableUnavailable)
    ∨ (s.tv = true ∧ (len = 0 ∨ len > 32) ∧ t = s.reportErr .range)
    ∨ (s.tv = true ∧ ¬ (len = 0 ∨ len > 32) ∧ s.dt (s.dataCode len) = none ∧ t = s.reportErr .noMatch)
    ∨ (s.tv = true ∧ ¬ (len = 0 ∨ len > 32) ∧ ∃ sym, s.dt (s.dataCode len) = some sym
        ∧ t = State.reportOk { s with res0 := BitVec.ofNat 32 sym }) := by
  unfold execDlookup at h
  split_ifs at h with h1 h2
  · exact .inl ⟨h1, raise_eq_next.1 h⟩
  · exact .inr (.inl ⟨by simpa using h1, h2, raise_eq_next.1 h⟩)
  · split at h
    · next h3 => exact .inr (.inr (.inl ⟨by simpa using h1, h2, h3, raise_eq_next.1 h⟩))
    · next sym h3 => exact .inr (.inr (.inr ⟨by simpa using h1, h2, sym, h3, succeed_eq_next.1 h⟩))

theorem execEnc_next {sym : Nat} {s t : State} (h : execEnc sym s = .next t) :
    (s.nsym ≤ sym ∧ t = s.reportErr .badSymbol)
    ∨ (sym < s.nsym ∧ s.tv = false ∧ t = s.reportErr .codeTableUnavailable)
    ∨ (sym < s.nsym ∧ s.tv = true ∧ s.ctlen.read sym = 0 ∧ t = s.reportErr .unknownSymbol)
    ∨ (sym < s.nsym ∧ s.tv = true ∧ s.ctlen.read sym ≠ 0
        ∧ s.params.maxbits < s.blen + (s.ctlen.read sym).toNat ∧ t = s.reportErr .bitbufOverflow)
    ∨ (sym < s.nsym ∧ s.tv = true ∧ s.ctlen.read sym ≠ 0
        ∧ s.blen + (s.ctlen.read sym).toNat ≤ s.params.maxbits
        ∧ t = State.reportOk { s with bitbuf := s.bitbuf ++ s.codeOf sym }) := by
  unfold execEnc at h
  split_ifs at h with h1 h2 h3 h4
  · exact .inl ⟨h1, raise_eq_next.1 h⟩
  · exact .inr (.inl ⟨Nat.lt_of_not_le h1, h2, raise_eq_next.1 h⟩)
  · exact .inr (.inr (.inl ⟨Nat.lt_of_not_le h1, by simpa using h2, h3, raise_eq_next.1 h⟩))
  · exact .inr (.inr (.inr (.inl ⟨Nat.lt_of_not_le h1, by simpa using h2, h3, h4, raise_eq_next.1 h⟩)))
  · exact .inr (.inr (.inr (.inr
      ⟨Nat.lt_of_not_le h1, by simpa using h2, h3, Nat.le_of_not_lt h4, succeed_eq_next.1 h⟩)))

theorem execDec_next {s t : State} (h : execDec s = .next t) :
    (s.tv = false ∧ t = s.reportErr .codeTableUnavailable)
    ∨ (s.tv = true ∧ decLoop s [] (s.bitbuf.drop s.brp.toNat) = .endOfStream
        ∧ t = State.reportOk { s with eos := true })
    ∨ (s.tv = true ∧ decLoop s [] (s.bitbuf.drop s.brp.toNat) = .truncated ∧ t = s.reportErr .truncatedStream)
    ∨ (s.tv = true ∧ ∃ sym n, decLoop s [] (s.bitbuf.drop s.brp.toNat) = .symbol sym n
        ∧ t = State.reportOk { s with
            res0 := BitVec.ofNat 32 sym, brp := BitVec.ofNat 32 (s.brp.toNat + n), eos := false }) := by
  unfold execDec at h
  split_ifs at h with h1
  · exact .inl ⟨h1, raise_eq_next.1 h⟩
  · split at h
    · next h3 => exact .inr (.inl ⟨by simpa using h1, h3, succeed_eq_next.1 h⟩)
    · next h3 => exact .inr (.inr (.inl ⟨by simpa using h1, h3, raise_eq_next.1 h⟩))
    · next sym n h3 => exact .inr (.inr (.inr ⟨by simpa using h1, sym, n, h3, succeed_eq_next.1 h⟩))

theorem execBclr_next {s t : State} (h : execBclr s = .next t) :
    t = State.reportOk { s with bitbuf := [], brp := 0 } := succeed_eq_next.1 h

theorem execBput_next {bit : Bool} {s t : State} (h : execBput bit s = .next t) :
    (s.blen = s.params.maxbits ∧ t = s.reportErr .bitbufOverflow)
    ∨ (s.blen ≠ s.params.maxbits ∧ t = State.reportOk { s with bitbuf := s.bitbuf ++ [bit] }) := by
  unfold execBput at h
  split_ifs at h with h1
  · exact .inl ⟨h1, raise_eq_next.1 h⟩
  · exact .inr ⟨h1, succeed_eq_next.1 h⟩

theorem execBget_next {s t : State} (h : execBget s = .next t) :
    (s.bitbuf[s.brp.toNat]? = none ∧ t = State.reportOk { s with eos := true })
    ∨ ∃ b, s.bitbuf[s.brp.toNat]? = some b ∧ t = State.reportOk { s with
        res0 := (BitVec.ofBool b).setWidth 32, brp := s.brp + 1, eos := false } := by
  unfold execBget at h
  split at h
  · next h1 => exact .inl ⟨h1, succeed_eq_next.1 h⟩
  · next b h1 => exact .inr ⟨b, h1, succeed_eq_next.1 h⟩

theorem execBrwd_next {s t : State} (h : execBrwd s = .next t) : t = State.reportOk { s with brp := 0 } :=
  succeed_eq_next.1 h

theorem execPclr_next {s t : State} (h : execPclr s = .next t) :
    t = State.reportOk { s with pbuf := [], prp := 0 } := succeed_eq_next.1 h

theorem execPwr_next {s t : State} (h : execPwr s = .next t) :
    (s.plen = s.params.pbmax ∧ t = s.reportErr .pbufOverflow)
    ∨ (s.plen ≠ s.params.pbmax ∧ t = State.reportOk { s with pbuf := s.pbuf ++ [s.dataByte] }) := by
  unfold execPwr at h
  split_ifs at h with h1
  · exact .inl ⟨h1, raise_eq_next.1 h⟩
  · exact .inr ⟨h1, succeed_eq_next.1 h⟩

theorem execPrd_next {s t : State} (h : execPrd s = .next t) :
    (s.pbuf[s.prp.toNat]? = none ∧ t = State.reportOk { s with eos := true })
    ∨ ∃ x, s.pbuf[s.prp.toNat]? = some x ∧ t = State.reportOk { s with
        res0 := x.setWidth 32, prp := s.prp + 1, eos := false } := by
  unfold execPrd at h
  split at h
  · next h1 => exact .inl ⟨h1, succeed_eq_next.1 h⟩
  · next x h1 => exact .inr ⟨x, h1, succeed_eq_next.1 h⟩

theorem execPack_next {s t : State} (h : execPack s = .next t) :
    t = State.reportOk { s with pbuf := packBits s.bitbuf, prp := 0 } := succeed_eq_next.1 h

theorem execUnpack_next {s t : State} (h : execUnpack s = .next t) :
    (unpackBytes s.params.maxbits s.pbuf = none ∧ t = s.reportErr .corruptBuffer)
    ∨ ∃ b, unpackBytes s.params.maxbits s.pbuf = some b ∧ t = State.reportOk { s with bitbuf := b, brp := 0 } := by
  unfold execUnpack at h
  split at h
  · next h1 => exact .inl ⟨h1, raise_eq_next.1 h⟩
  · next b h1 => exact .inr ⟨b, h1, succeed_eq_next.1 h⟩

end Sys2Proof.Machine
end

