-- ==== Sys2Proof/Laws/Decode.lean ====
section
/-! SUPPORT. The laws of the decoder and the encoder: the row an opcode selects, what a row's mask tests, and the fields of
an encoded word. -/

namespace Sys2Proof

@[simp] theorem opcField_append (o : BitVec 8) (x : BitVec 24) : opcField (o ++ x) = o := by
  unfold opcField
  ext i hi
  rw [BitVec.getElem_extractLsb', BitVec.getLsbD_append]
  rw [if_neg (by omega), show 24 + i - 24 = i by omega, BitVec.getLsbD_eq_getElem hi]

theorem getLsbD_append_low {k n : Nat} (o : BitVec k) (x : BitVec n) {i : Nat} (hi : i < n) :
    (o ++ x).getLsbD i = x.getLsbD i := by
  rw [BitVec.getLsbD_append, if_pos hi]

/-- Bits 24 and up of a word are its OPC. -/
theorem getLsbD_of_opcField {w p : Word} (h : opcField w = opcField p) {i : Nat} (hi : 24 ≤ i) :
    w.getLsbD i = p.getLsbD i := by
  by_cases h32 : i < 32
  · have := congrArg (fun v => v.getLsbD (i - 24)) h
    simp only [opcField, BitVec.getLsbD_extractLsb', show 24 + (i - 24) = i by omega,
      show decide (i - 24 < 8) = true by simp; omega, Bool.true_and] at this
    exact this
  · rw [BitVec.getLsbD_of_ge _ _ (by omega), BitVec.getLsbD_of_ge _ _ (by omega)]

/-- A mask that tests the bits from k up finds the pattern exactly where the OPC is the pattern's and the reserved bits
from k to 23 are 0. -/
theorem and_mask_eq_iff {w mask p : Word} (k : Nat) (hk24 : k ≤ 24) (hm : ∀ i < 32, mask.getLsbD i = decide (k ≤ i))
    (hp : ∀ i < 24, p.getLsbD i = false) (h : opcField w = opcField p) :
    w &&& mask = p ↔ w.extractLsb' k (24 - k) = 0 := by
  constructor
  · intro hw
    apply BitVec.eq_of_getLsbD_eq
    intro i hi
    have hb := congrArg (fun v => v.getLsbD (k + i)) hw
    simp only [BitVec.getLsbD_and, hm (k + i) (by omega), hp (k + i) (by omega),
      show decide (k ≤ k + i) = true by simp, Bool.and_true] at hb
    rw [BitVec.getLsbD_extractLsb', hb]
    simp
  · intro hw
    apply BitVec.eq_of_getLsbD_eq
    intro i hi
    rw [BitVec.getLsbD_and, hm i hi]
    by_cases hk : k ≤ i
    · by_cases h24 : i < 24
      · have hb := congrArg (fun v => v.getLsbD (i - k)) hw
        simp only [BitVec.getLsbD_extractLsb', show k + (i - k) = i by omega,
          show decide (i - k < 24 - k) = true by simp; omega, Bool.true_and] at hb
        rw [hb, hp i h24]
        simp
      · rw [getLsbD_of_opcField h (by omega)]
        have : k ≤ i := hk
        simp [this]
    · rw [hp i (by omega)]
      simp [hk]

/-- What decode answers for a word whose OPC selects a row whose mask tests the bits from k up. -/
theorem decode_of_row {w : Word} {r : OpcodeRow} (k : Nat) (hk24 : k ≤ 24) (hr : rowOf w = some r)
    (hm : ∀ i < 32, r.mask.getLsbD i = decide (k ≤ i)) (hp : ∀ i < 24, r.pattern.getLsbD i = false)
    (h : opcField w = opcField r.pattern) :
    decode w = if w.extractLsb' k (24 - k) = 0 then .command (r.read w) else .illegal .reservedBit := by
  unfold decode
  rw [hr]
  by_cases hc : w &&& r.mask = r.pattern
  · rw [if_pos ((and_mask_eq_iff k hk24 hm hp h).1 hc)]
    exact if_pos hc
  · rw [if_neg (fun hh => hc ((and_mask_eq_iff k hk24 hm hp h).2 hh))]
    exact if_neg hc

/-- A row is selected only by its own OPC. -/
theorem opcField_of_rowOf {w : Word} {r : OpcodeRow} (h : rowOf w = some r) : opcField r.pattern = opcField w := by
  have := List.find?_some h
  simpa using this

theorem mem_of_rowOf {w : Word} {r : OpcodeRow} (h : rowOf w = some r) : r ∈ opcodeRows := List.mem_of_find?_eq_some h

/-! ### The fields of an encoded word -/

@[simp] theorem opcField_wordN (o : BitVec 8) : opcField (wordN o) = o := opcField_append o _

@[simp] theorem opcField_wordS (o : BitVec 8) (sym : Nat) : opcField (wordS o sym) = o := opcField_append o _

@[simp] theorem opcField_wordB (o : BitVec 8) (bit : Bool) : opcField (wordB o bit) = o := opcField_append o _

@[simp] theorem opcField_wordL (o : BitVec 8) (len : Nat) : opcField (wordL o len) = o := opcField_append o _

theorem reserved_wordN (o : BitVec 8) : (wordN o).extractLsb' 0 24 = 0 := by
  apply BitVec.eq_of_getLsbD_eq
  intro i hi
  rw [BitVec.getLsbD_extractLsb', wordN, getLsbD_append_low _ _ (by omega)]
  simp

theorem reserved_wordS (o : BitVec 8) (sym : Nat) : (wordS o sym).extractLsb' 16 8 = 0 := by
  apply BitVec.eq_of_getLsbD_eq
  intro i hi
  rw [BitVec.getLsbD_extractLsb', wordS, getLsbD_append_low _ _ (by omega), BitVec.getLsbD_append, if_neg (by omega)]
  simp

theorem reserved_wordB (o : BitVec 8) (bit : Bool) : (wordB o bit).extractLsb' 1 23 = 0 := by
  apply BitVec.eq_of_getLsbD_eq
  intro i hi
  rw [BitVec.getLsbD_extractLsb', wordB, getLsbD_append_low _ _ (by omega), BitVec.getLsbD_append, if_neg (by omega)]
  simp

theorem reserved_wordL (o : BitVec 8) (len : Nat) : (wordL o len).extractLsb' 8 16 = 0 := by
  apply BitVec.eq_of_getLsbD_eq
  intro i hi
  rw [BitVec.getLsbD_extractLsb', wordL, getLsbD_append_low _ _ (by omega), BitVec.getLsbD_append, if_neg (by omega)]
  simp

theorem symField_wordS (o : BitVec 8) {sym : Nat} (h : symFits sym = true) : symField (wordS o sym) = sym := by
  have hv : (wordS o sym).extractLsb' 0 16 = BitVec.ofNat 16 sym := by
    apply BitVec.eq_of_getLsbD_eq
    intro i hi
    rw [BitVec.getLsbD_extractLsb', wordS, getLsbD_append_low _ _ (by omega), BitVec.getLsbD_append, if_pos (by omega)]
    simp [hi]
  rw [symField, hv, BitVec.toNat_ofNat]
  exact Nat.mod_eq_of_lt (by simpa [symFits] using h)

theorem bitField_wordB (o : BitVec 8) (bit : Bool) : bitField (wordB o bit) = bit := by
  rw [bitField, wordB, getLsbD_append_low _ _ (by omega), BitVec.getLsbD_append, if_pos (by omega)]
  cases bit <;> rfl

theorem lenField_wordL (o : BitVec 8) {len : Nat} (h : lenFits len = true) : lenField (wordL o len) = len := by
  have hv : (wordL o len).extractLsb' 0 8 = BitVec.ofNat 8 len := by
    apply BitVec.eq_of_getLsbD_eq
    intro i hi
    rw [BitVec.getLsbD_extractLsb', wordL, getLsbD_append_low _ _ (by omega), BitVec.getLsbD_append, if_pos (by omega)]
    simp [hi]
  rw [lenField, hv, BitVec.toNat_ofNat]
  exact Nat.mod_eq_of_lt (by simpa [lenFits] using h)

end Sys2Proof
end

