-- ==== Sys2Proof/Laws/Encoding.lean ====
section
/-! SUPPORT. The opcode map, row by row: which command each OPC stands for (spec/30_encoding.md R88), and which OPC values
have no row. -/

namespace Sys2Proof.Machine

theorem encodesN_of_row {o : BitVec 8} {i : Instr} {p : Word}
    (hr : ∀ w, opcField w = o → rowOf w = some ⟨p, 0xFFFFFFFF, fun _ => i⟩) (hp : ∀ k < 24, p.getLsbD k = false)
    (ho : opcField p = o) : encodesN o i :=
  fun w hw => decode_of_row 0 (by decide) (hr w hw)
    (show ∀ j < 32, (0xFFFFFFFF#32).getLsbD j = decide (0 ≤ j) by decide) hp (hw.trans ho.symm)

theorem encodesS_of_row {o : BitVec 8} {i : Nat → Instr} {p : Word}
    (hr : ∀ w, opcField w = o → rowOf w = some ⟨p, 0xFFFF0000, fun w => i (symField w)⟩)
    (hp : ∀ k < 24, p.getLsbD k = false) (ho : opcField p = o) : encodesS o i :=
  fun w hw => decode_of_row 16 (by decide) (hr w hw)
    (show ∀ j < 32, (0xFFFF0000#32).getLsbD j = decide (16 ≤ j) by decide) hp (hw.trans ho.symm)

theorem encodesB_of_row {o : BitVec 8} {i : Bool → Instr} {p : Word}
    (hr : ∀ w, opcField w = o → rowOf w = some ⟨p, 0xFFFFFFFE, fun w => i (bitField w)⟩)
    (hp : ∀ k < 24, p.getLsbD k = false) (ho : opcField p = o) : encodesB o i :=
  fun w hw => decode_of_row 1 (by decide) (hr w hw)
    (show ∀ j < 32, (0xFFFFFFFE#32).getLsbD j = decide (1 ≤ j) by decide) hp (hw.trans ho.symm)

theorem encodesL_of_row {o : BitVec 8} {i : Nat → Instr} {p : Word}
    (hr : ∀ w, opcField w = o → rowOf w = some ⟨p, 0xFFFFFF00, fun w => i (lenField w)⟩)
    (hp : ∀ k < 24, p.getLsbD k = false) (ho : opcField p = o) : encodesL o i :=
  fun w hw => decode_of_row 8 (by decide) (hr w hw)
    (show ∀ j < 32, (0xFFFFFF00#32).getLsbD j = decide (8 ≤ j) by decide) hp (hw.trans ho.symm)

theorem nop_opcode : encodesN 0x00 .nop :=
  encodesN_of_row (fun w h => by unfold rowOf; rw [h]; rfl) (by decide) rfl

theorem srst_opcode : encodesN 0x01 .srst :=
  encodesN_of_row (fun w h => by unfold rowOf; rw [h]; rfl) (by decide) rfl

theorem clrfreq_opcode : encodesN 0x10 .clrfreq :=
  encodesN_of_row (fun w h => by unfold rowOf; rw [h]; rfl) (by decide) rfl

theorem count_opcode : encodesS 0x11 .count :=
  encodesS_of_row (fun w h => by unfold rowOf; rw [h]; rfl) (by decide) rfl

theorem setfreq_opcode : encodesS 0x12 .setfreq :=
  encodesS_of_row (fun w h => by unfold rowOf; rw [h]; rfl) (by decide) rfl

theorem getfreq_opcode : encodesS 0x13 .getfreq :=
  encodesS_of_row (fun w h => by unfold rowOf; rw [h]; rfl) (by decide) rfl

theorem build_opcode : encodesN 0x20 .build :=
  encodesN_of_row (fun w h => by unfold rowOf; rw [h]; rfl) (by decide) rfl

theorem bstep_opcode : encodesN 0x21 .bstep :=
  encodesN_of_row (fun w h => by unfold rowOf; rw [h]; rfl) (by decide) rfl

theorem tnode_opcode : encodesN 0x22 .tnode :=
  encodesN_of_row (fun w h => by unfold rowOf; rw [h]; rfl) (by decide) rfl

theorem lookup_opcode : encodesS 0x30 .lookup :=
  encodesS_of_row (fun w h => by unfold rowOf; rw [h]; rfl) (by decide) rfl

theorem dlookup_opcode : encodesL 0x31 .dlookup :=
  encodesL_of_row (fun w h => by unfold rowOf; rw [h]; rfl) (by decide) rfl

theorem enc_opcode : encodesS 0x32 .enc :=
  encodesS_of_row (fun w h => by unfold rowOf; rw [h]; rfl) (by decide) rfl

theorem dec_opcode : encodesN 0x33 .dec :=
  encodesN_of_row (fun w h => by unfold rowOf; rw [h]; rfl) (by decide) rfl

theorem bclr_opcode : encodesN 0x40 .bclr :=
  encodesN_of_row (fun w h => by unfold rowOf; rw [h]; rfl) (by decide) rfl

theorem bput_opcode : encodesB 0x41 .bput :=
  encodesB_of_row (fun w h => by unfold rowOf; rw [h]; rfl) (by decide) rfl

theorem bget_opcode : encodesN 0x42 .bget :=
  encodesN_of_row (fun w h => by unfold rowOf; rw [h]; rfl) (by decide) rfl

theorem brwd_opcode : encodesN 0x43 .brwd :=
  encodesN_of_row (fun w h => by unfold rowOf; rw [h]; rfl) (by decide) rfl

theorem pclr_opcode : encodesN 0x50 .pclr :=
  encodesN_of_row (fun w h => by unfold rowOf; rw [h]; rfl) (by decide) rfl

theorem pwr_opcode : encodesN 0x51 .pwr :=
  encodesN_of_row (fun w h => by unfold rowOf; rw [h]; rfl) (by decide) rfl

theorem prd_opcode : encodesN 0x52 .prd :=
  encodesN_of_row (fun w h => by unfold rowOf; rw [h]; rfl) (by decide) rfl

theorem pack_opcode : encodesN 0x53 .pack :=
  encodesN_of_row (fun w h => by unfold rowOf; rw [h]; rfl) (by decide) rfl

theorem unpack_opcode : encodesN 0x54 .unpack :=
  encodesN_of_row (fun w h => by unfold rowOf; rw [h]; rfl) (by decide) rfl

/-- The OPC values without a row (R90 (a)). -/
theorem rowOf_eq_none_iff (w : Word) : rowOf w = none ↔ unlistedOpcode (opcField w).toNat := by
  unfold rowOf
  generalize opcField w = o
  revert o
  simp only [opcodeRows, List.find?_eq_none]
  unfold unlistedOpcode
  decide +kernel

end Sys2Proof.Machine
end

