-- ==== Sys2Proof/Laws/Invariant.lean ====
section
/-! SUPPORT. The invariant of R45 over the steps of the tree builder: INIT and MERGE, part by part. -/

namespace Sys2Proof.Machine

/-- The invariant speaks of the memories, the tree, the buffers and the reset clear only. -/
theorem Inv.of_same {s t : State} (h : Inv s) (hp : t.params = s.params) (hf : SameFrequency s t) (ht : SameTree s t)
    (hc : SameCodeTable s t) (hb : BufferBounds t) (hcl : t.phase = .clearing → s.phase = .clearing) : Inv t := by
  obtain ⟨hf1, hf2⟩ := hf
  obtain ⟨ht1, ht2, ht3, ht4, ht5⟩ := ht
  obtain ⟨hc1, hc2⟩ := hc
  cases s
  cases t
  simp only at hp hf1 hf2 ht1 ht2 ht3 ht4 ht5 hc1 hc2
  subst hp hf1 hf2 ht1 ht2 ht3 ht4 ht5 hc1 hc2
  exact
    { params := h.params
      canonical := ⟨h.canonical.freq, h.canonical.inq, h.canonical.ctlen, h.canonical.ctcode⟩
      total := h.total
      idle := ⟨h.idle.node, h.idle.nsyms, h.idle.root, h.idle.inq⟩
      codes := ⟨h.codes.ctlen, h.codes.ctcode⟩
      merge := ⟨h.merge.two, h.merge.low, h.merge.high, h.merge.count, h.merge.valid⟩
      finished := ⟨h.finished.queue, h.finished.none, h.finished.slots, h.finished.root⟩
      tree := ⟨h.tree.leaves, h.tree.count, h.tree.internal, h.tree.lower, h.tree.distinct, h.tree.sums, h.tree.parent,
        h.tree.orphans⟩
      weight := ⟨h.weight.queued, h.weight.root⟩
      table := ⟨h.table.alphabet, h.table.bound, h.table.value, h.table.free⟩
      bounds := hb
      clearing := ⟨fun hh => h.clearing.freq (hcl hh), fun hh => h.clearing.tree (hcl hh),
        fun hh => h.clearing.codes (hcl hh)⟩ }

/-- A report keeps the invariant. -/
theorem reportErr_inv {s : State} (h : Inv s) (e : Err) : Inv (s.reportErr e) :=
  h.of_same rfl ⟨rfl, rfl⟩ ⟨rfl, rfl, rfl, rfl, rfl⟩ ⟨rfl, rfl⟩
    ⟨h.bounds.brp, h.bounds.blen, h.bounds.prp, h.bounds.plen⟩ fun hh => hh

theorem reportOk_inv {s : State} (h : Inv s) : Inv s.reportOk :=
  h.of_same rfl ⟨rfl, rfl⟩ ⟨rfl, rfl, rfl, rfl, rfl⟩ ⟨rfl, rfl⟩
    ⟨h.bounds.brp, h.bounds.blen, h.bounds.prp, h.bounds.plen⟩ fun hh => hh

theorem freqSum_nil {t : State} (h : t.freq = []) : freqSum t = 0 := by
  unfold freqSum
  rw [h]
  induction List.range t.nsym with
  | nil => rfl
  | cons x l ih =>
    rw [List.map_cons, List.sum_cons, ih]
    rfl

theorem bufferBounds_nil {t : State} (h1 : t.bitbuf = []) (h2 : t.brp = 0) (h3 : t.pbuf = []) (h4 : t.prp = 0) :
    BufferBounds t := by
  refine ⟨?_, ?_, ?_, ?_⟩ <;> simp [State.blen, State.plen, h1, h2, h3, h4]

theorem pbmax_lt {p : Params} (h : p.wf) : p.pbmax < 2 ^ 32 := by
  have := h.2.2.1.2
  unfold Params.pbmax
  omega

/-- The invariant of a state without a tree: what is left of it is about the counts, the buffers and the reset clear. -/
theorem inv_of_empty {t : State} (hp : t.params.wf) (hf : t.freq.wf) (hsum : t.total.toNat = freqSum t)
    (htbs : t.tbs = .idle) (hnode : t.node = []) (hinq : t.inq = []) (hns : t.nsyms = 0) (hroot : t.root = 0)
    (hlen : t.ctlen = []) (hcode : t.ctcode = []) (hb : BufferBounds t)
    (hc : t.phase = .clearing → t.freq = [] ∧ t.total = 0) : Inv t := by
  have hq : t.queue = [] := by
    rw [State.queue, hinq]
    rfl
  have hnf : ¬ t.finished := by rintro (h | h) <;> rw [htbs] at h <;> cases h
  have hm : t.tbs ≠ .merge := by rw [htbs]; decide
  have hd : t.tbs ≠ .done := by rw [htbs]; decide
  refine ⟨hp, ⟨hf, hinq ▸ Memory.wf_nil, hlen ▸ Memory.wf_nil, hcode ▸ Memory.wf_nil⟩, hsum,
    ⟨fun _ => hnode, fun _ => hns, fun _ => hroot, fun _ => hinq⟩, ⟨fun _ => hlen, fun _ => hcode⟩, ⟨?_, ?_, ?_, ?_, ?_⟩,
    ⟨?_, ?_, ?_, ?_⟩, ⟨?_, ?_, ?_, ?_, ?_, ?_, ?_, ?_⟩, ⟨?_, ?_⟩, ⟨?_, ?_, ?_, ?_⟩, hb,
    ⟨hc, fun _ => ⟨htbs, hinq⟩, fun _ => ⟨hlen, hcode⟩⟩⟩
  iterate 5 exact fun hh => absurd hh hm
  iterate 4 exact fun hh => absurd hh hnf
  iterate 2 exact fun hh => absurd htbs hh
  · rw [hnode]
    simp
  · rw [State.nnodes, hnode]
    intro j hj
    cases hj
  · rw [hnode]
    simp
  · rw [hnode]
    simp
  · rw [State.nnodes, hnode]
    intro j hj
    cases hj
  · rw [hq]
    intro i hi
    cases hi
  · exact fun hh => absurd hh hm
  · exact fun hh => absurd hh hnf
  iterate 4 exact fun hh => absurd hh hd

/-! ### INIT -/

/-- The state after INIT, whatever the alphabet: the leaves, and NSYMS. -/
theorem stepInit_node (s : State) : (stepInit s).node = s.alphabet.map s.leafOf := by
  unfold stepInit
  simp only
  split_ifs <;> rfl

theorem stepInit_nsyms (s : State) : (stepInit s).nsyms = BitVec.ofNat 32 s.alphabet.length := by
  unfold stepInit
  simp only
  split_ifs <;> simp [List.length_map]

theorem stepInit_nsyms_toNat {s : State} (h : s.params.wf) : (stepInit s).nsyms.toNat = s.alphabet.length := by
  rw [stepInit_nsyms, BitVec.toNat_ofNat, Nat.mod_eq_of_lt]
  have := alphabet_length_le_of_wf h
  omega

/-- A tree of leaves alone meets what R45 says of the slots, with the leaves of every symbol of the alphabet, each queued
unless it is the only one, the root. -/
theorem treeShape_of_leaves {t : State} (hn : t.node = t.alphabet.map t.leafOf) (hs : t.nsyms.toNat = t.alphabet.length)
    (hq : ∀ i < t.alphabet.length, i ∈ t.queue ∨ (t.finished ∧ i = t.root.toNat)) : TreeShape t := by
  have hleaf : ∀ (j : Nat) (nd : Node), t.node[j]? = some nd → nd.leaf = true := by
    intro j nd hj
    rw [hn] at hj
    obtain ⟨sym, -, rfl⟩ := getElem_leaves hj
    rfl
  have hmem : ∀ nd ∈ t.node, nd.leaf = true := by
    intro nd hnd
    obtain ⟨j, hj⟩ := List.mem_iff_getElem?.1 hnd
    exact hleaf j nd hj
  have hlen : t.nnodes = t.alphabet.length := by rw [State.nnodes, hn, List.length_map]
  constructor
  · intro _
    rw [hs, ← hn]
    exact List.take_of_length_le (by rw [hn, List.length_map])
  · exact fun _ => hs
  · intro nd hnd
    rw [hs, List.drop_of_length_le (by rw [hn, List.length_map])] at hnd
    cases hnd
  · intro j _ nd hnd hl
    rw [hleaf j nd hnd] at hl
    cases hl
  · intro nd hnd hl
    rw [hmem nd hnd] at hl
    cases hl
  · intro nd hnd hl
    rw [hmem nd hnd] at hl
    cases hl
  · intro i hi hiq hir
    rcases hq i (hlen ▸ hi) with h | h
    · exact absurd h hiq
    · exact absurd h hir
  · rintro i - k - ⟨nd, hk, hl, -⟩
    rw [hleaf k nd hk] at hl
    cases hl

/-- INIT keeps the invariant. -/
theorem stepInit_inv {s : State} (h : Inv s) (hs : s.tbs = .idle) (hc : s.phase ≠ .clearing) : Inv (stepInit s) := by
  have hq := h.idle.inq hs
  have hroot := h.idle.root hs
  have hlen := alphabet_length_le_of_wf h.params
  have hct := h.codes.ctlen (by rw [hs]; decide)
  have hcc := h.codes.ctcode (by rw [hs]; decide)
  rw [stepInit_eq hq]
  split_ifs with h0 h1
  · have hnil : s.alphabet = [] := List.length_eq_zero_iff.1 h0
    have hzero : ∀ sym < s.nsym, s.freq.read sym = 0 := by
      intro sym hsym
      by_contra hne
      have := mem_alphabet.2 ⟨hsym, hne⟩
      rw [hnil] at this
      cases this
    refine ⟨h.params, ⟨h.canonical.freq, Memory.wf_nil, h.canonical.ctlen, h.canonical.ctcode⟩, h.total, ⟨?_, ?_, ?_, ?_⟩,
      ⟨?_, ?_⟩, ⟨?_, ?_, ?_, ?_, ?_⟩, ⟨?_, ?_, ?_, ?_⟩, ?_, ⟨?_, ?_⟩, ⟨?_, ?_, ?_, ?_⟩,
      ⟨h.bounds.brp, h.bounds.blen, h.bounds.prp, h.bounds.plen⟩, ⟨?_, ?_, ?_⟩⟩
    iterate 4 exact nofun
    iterate 2 exact fun hh => absurd rfl hh
    iterate 5 exact nofun
    · exact fun _ => rfl
    · exact fun _ _ => ⟨by simp [hnil], hroot, rfl⟩
    · exact fun _ hh => absurd rfl hh
    · exact fun _ hh => absurd rfl hh
    · refine treeShape_of_leaves rfl ?_ ?_
      · exact h0.symm
      · intro i hi
        exact absurd (show i < s.alphabet.length from hi) (by omega)
    · exact nofun
    · exact fun _ hh => absurd rfl hh
    · intro _ sym hsym
      have hz : s.freq.read sym = 0 := hzero sym hsym
      simp [hct, hz]
    · intro _ sym _
      simp [hct]
    · intro _ sym _
      simp [hct, hcc]
    · intro _ x _ y _ hx
      simp [hct] at hx
    iterate 3 exact fun hh => absurd hh hc
  · obtain ⟨sym, hsym⟩ := List.length_eq_one_iff.1 h1
    refine ⟨h.params, ⟨h.canonical.freq, Memory.wf_nil, h.canonical.ctlen, h.canonical.ctcode⟩, h.total, ⟨?_, ?_, ?_, ?_⟩,
      ⟨?_, ?_⟩, ⟨?_, ?_, ?_, ?_, ?_⟩, ⟨?_, ?_, ?_, ?_⟩, ?_, ⟨?_, ?_⟩, ⟨?_, ?_, ?_, ?_⟩,
      ⟨h.bounds.brp, h.bounds.blen, h.bounds.prp, h.bounds.plen⟩, ⟨?_, ?_, ?_⟩⟩
    iterate 4 exact nofun
    · exact fun _ => hct
    · exact fun _ => hcc
    iterate 5 exact nofun
    · exact fun _ => rfl
    · exact fun _ hh => absurd hh (show ¬ (1 : Word) = 0 by decide)
    · intro _ _
      simp [State.nnodes, h1]
    · intro _ _
      simp [State.nnodes, h1]
    · refine treeShape_of_leaves rfl h1.symm ?_
      intro i hi
      have hi : i < s.alphabet.length := hi
      exact .inr ⟨.inl rfl, show i = 0 by omega⟩
    · exact nofun
    · intro _ _
      have := freqAt_leaves (s := s) (t := { s with node := s.alphabet.map s.leafOf, inq := [], nsyms := 1, root := 0, tbs := .assign }) rfl
      rw [h1] at this
      simp only [List.range_one, List.map_cons, List.map_nil, List.sum_cons, List.sum_nil, Nat.add_zero] at this
      exact this.trans h.total.symm
    iterate 4 exact nofun
    iterate 3 exact fun hh => absurd hh hc
  · have hqueue := fun (t : State) (ht : t.inq = enqueueFirst [] s.alphabet.length) => queue_enqueueFirst ht
    have hns : (BitVec.ofNat 32 s.alphabet.length).toNat = s.alphabet.length := by
      rw [BitVec.toNat_ofNat, Nat.mod_eq_of_lt (by omega)]
    refine ⟨h.params, ⟨h.canonical.freq, enqueueFirst_wf Memory.wf_nil _, h.canonical.ctlen, h.canonical.ctcode⟩, h.total,
      ⟨?_, ?_, ?_, ?_⟩, ⟨?_, ?_⟩, ⟨?_, ?_, ?_, ?_, ?_⟩, ⟨?_, ?_, ?_, ?_⟩, ?_, ⟨?_, ?_⟩, ⟨?_, ?_, ?_, ?_⟩,
      ⟨h.bounds.brp, h.bounds.blen, h.bounds.prp, h.bounds.plen⟩, ⟨?_, ?_, ?_⟩⟩
    iterate 4 exact nofun
    · exact fun _ => hct
    · exact fun _ => hcc
    · intro _
      rw [hns]
      omega
    · intro _
      rw [hns]
      simp [State.nnodes]
    · intro _
      rw [hns]
      simp only [State.nnodes, List.length_map]
      omega
    · intro _
      rw [hns, hqueue _ rfl]
      simp only [State.nnodes, List.length_map, List.length_range]
      omega
    · intro _ i hi
      rw [hqueue _ rfl] at hi
      simpa [State.nnodes] using List.mem_range.1 hi
    · rintro (hh | hh) <;> cases hh
    · rintro (hh | hh) <;> cases hh
    · rintro (hh | hh) <;> cases hh
    · rintro (hh | hh) <;> cases hh
    · refine treeShape_of_leaves rfl hns ?_
      intro i hi
      rw [hqueue _ rfl]
      exact .inl (List.mem_range.2 hi)
    · intro _
      rw [hqueue _ rfl, freqAt_leaves (s := s) rfl]
      exact h.total.symm
    · rintro (hh | hh) <;> cases hh
    iterate 4 exact nofun
    iterate 3 exact fun hh => absurd hh hc

end Sys2Proof.Machine
end

