-- ==== Sys2Proof/Laws/Merge.lean ====
section
/-! SUPPORT. The MERGE step (spec/42_tree_builder.md R124) in a state that meets the invariant, and that it keeps it. -/

namespace Sys2Proof.Machine

/-- The queue without the two slots of least keys. -/
abbrev State.withoutTwo (s : State) (a b : Nat) : State := { s with inq := (s.inq.write a 0).write b 0 }

/-- The inserted parent, before the test of R124 whether it is alone. -/
abbrev State.withParent (s : State) (a b : Nat) : State :=
  { s with
    node := s.node ++ [parentOf (s.freqAt a, a) (s.freqAt b, b)]
    inq := ((s.inq.write a 0).write b 0).write s.nnodes 1 }

/-- The end of the MERGE step. -/
theorem insertParent_eq (s : State) (a b : Nat) :
    insertParent (s.freqAt a, a) (s.freqAt b, b) (s.withoutTwo a b)
      = if (s.withParent a b).queue.length = 1 then
          { s.withParent a b with
            inq := (s.withParent a b).inq.write s.nnodes 0, root := BitVec.ofNat 32 s.nnodes, tbs := .assign }
        else s.withParent a b := rfl

/-- The MERGE step where the queue holds two slots at least, each valid: the least key and the next leave the queue. -/
theorem stepMerge_valid {s : State} (hw : s.inq.wf) (hv : ∀ i ∈ s.queue, i < s.nnodes) (h2 : 2 ≤ s.queue.length) :
    ∃ a b, a ∈ s.queue ∧ b ∈ s.queue ∧ a ≠ b
      ∧ (∀ i ∈ s.queue, i ≠ a → s.keyBelow a i) ∧ (∀ i ∈ s.queue, i ≠ a → i ≠ b → s.keyBelow b i)
      ∧ s.queue.Perm (a :: b :: (s.withoutTwo a b).queue)
      ∧ stepMerge s = .stepped (insertParent (s.freqAt a, a) (s.freqAt b, b) (s.withoutTwo a b)) := by
  obtain ⟨a, ha, ea, la⟩ := extract_valid hv (by intro hq; rw [hq] at h2; simp at h2)
  have hw1 : Memory.wf (s.inq.write a 0) := Memory.write_wf hw a 0
  have p1 := queue_dequeue_perm hw ha
  have hv1 : ∀ i ∈ State.queue { s with inq := s.inq.write a 0 }, i < State.nnodes { s with inq := s.inq.write a 0 } :=
    fun i hi => hv i ((mem_queue_dequeue hw).1 hi).1
  have hne1 : State.queue { s with inq := s.inq.write a 0 } ≠ [] := by
    intro hq
    rw [hq] at p1
    have := p1.length_eq
    simp at this
    omega
  obtain ⟨b, hb, eb, lb⟩ := extract_valid hv1 hne1
  have p2 := queue_dequeue_perm (s := { s with inq := s.inq.write a 0 }) hw1 hb
  obtain ⟨hbq, hba⟩ := (mem_queue_dequeue hw).1 hb
  refine ⟨a, b, ha, hbq, fun hh => hba hh.symm, la, fun i hi hia hib => ?_, p1.trans (p2.cons a), ?_⟩
  · exact lb i ((mem_queue_dequeue hw).2 ⟨hi, hia⟩) hib
  · unfold stepMerge
    rw [ea]
    simp only
    rw [eb]
    rfl

/-- The facts of a MERGE step, in a state that meets the invariant, that its consequences rest on. -/
structure MergeFacts (s : State) (a b : Nat) : Prop where
  left : a ∈ s.queue
  right : b ∈ s.queue
  ne : a ≠ b
  least : ∀ i ∈ s.queue, i ≠ a → s.keyBelow a i
  next : ∀ i ∈ s.queue, i ≠ a → i ≠ b → s.keyBelow b i
  leftLt : a < s.nnodes
  rightLt : b < s.nnodes
  slots : s.nnodes < 2 ^ 18
  perm : s.queue.Perm (a :: b :: (s.withoutTwo a b).queue)
  perm' : (s.withParent a b).queue.Perm (s.nnodes :: (s.withoutTwo a b).queue)
  rest : ∀ i, i ∈ (s.withoutTwo a b).queue ↔ i ∈ s.queue ∧ i ≠ a ∧ i ≠ b
  members : ∀ i, i ∈ (s.withParent a b).queue ↔ (i ∈ s.queue ∧ i ≠ a ∧ i ≠ b) ∨ i = s.nnodes
  fits : s.freqAt a + s.freqAt b < 2 ^ 32
  weight : ((s.withParent a b).queue.map (s.withParent a b).freqAt).sum = s.total.toNat
  step : stepMerge s = .stepped (insertParent (s.freqAt a, a) (s.freqAt b, b) (s.withoutTwo a b))

theorem freqAt_withParent_lt {s : State} {a b i : Nat} (h : i < s.nnodes) : (s.withParent a b).freqAt i = s.freqAt i := by
  have h : i < s.node.length := h
  simp [State.freqAt, List.getElem?_append_left h]

theorem freqAt_withParent_self {s : State} {a b : Nat} (h : s.freqAt a + s.freqAt b < 2 ^ 32) :
    (s.withParent a b).freqAt s.nnodes = s.freqAt a + s.freqAt b := by
  simp only [State.freqAt, State.nnodes, List.getElem?_append_right (Nat.le_refl _), Nat.sub_self, List.getElem?_cons_zero,
    parentOf, BitVec.toNat_ofNat]
  exact Nat.mod_eq_of_lt h

theorem mergeFacts {s : State} (h : Inv s) (hs : s.tbs = .merge) : ∃ a b, MergeFacts s a b := by
  have hw := h.canonical.inq
  have hv := h.merge.valid hs
  have hcount := h.merge.count hs
  have hhigh := h.merge.high hs
  have htwo := h.merge.two hs
  obtain ⟨a, b, ha, hb, hab, la, lb, perm, step⟩ := stepMerge_valid hw hv (by omega)
  have hslots : s.nnodes < 2 ^ 18 := by
    have h1 := h.tree.count (by rw [hs]; decide)
    have h2 := alphabet_length_le_of_wf h.params
    omega
  have hw1 : Memory.wf (s.inq.write a 0) := Memory.write_wf hw a 0
  have hw2 : Memory.wf ((s.inq.write a 0).write b 0) := Memory.write_wf hw1 b 0
  have rest : ∀ i, i ∈ (s.withoutTwo a b).queue ↔ i ∈ s.queue ∧ i ≠ a ∧ i ≠ b := by
    intro i
    have e1 := mem_queue_dequeue (s := { s with inq := s.inq.write a 0 }) hw1 (i := b) (j := i)
    have e2 := mem_queue_dequeue (s := s) hw (i := a) (j := i)
    rw [show i ∈ (s.withoutTwo a b).queue ↔ _ from e1, e2, and_assoc]
  have hnew : s.nnodes ∉ (s.withoutTwo a b).queue := fun hh => Nat.lt_irrefl _ (hv _ ((rest _).1 hh).1)
  have perm' : (s.withParent a b).queue.Perm (s.nnodes :: (s.withoutTwo a b).queue) :=
    queue_enqueue_perm (s := s.withoutTwo a b) hw2 hnew
  have hw0 := h.weight.queued hs
  have sum1 : (s.queue.map s.freqAt).sum = s.freqAt a + (s.freqAt b + ((s.withoutTwo a b).queue.map s.freqAt).sum) := by
    rw [(perm.map s.freqAt).sum_eq]
    rfl
  have fits : s.freqAt a + s.freqAt b < 2 ^ 32 := by
    have := s.total.isLt
    omega
  refine ⟨a, b, ⟨ha, hb, hab, la, lb, hv a ha, hv b hb, hslots, perm, perm', rest, ?_, fits, ?_, step⟩⟩
  · intro i
    rw [perm'.mem_iff, List.mem_cons, rest, or_comm]
  · rw [(perm'.map (s.withParent a b).freqAt).sum_eq, List.map_cons, List.sum_cons, freqAt_withParent_self fits]
    have : (s.withoutTwo a b).queue.map (s.withParent a b).freqAt = (s.withoutTwo a b).queue.map s.freqAt :=
      List.map_congr_left fun i hi => freqAt_withParent_lt (hv i ((rest i).1 hi).1)
    rw [this]
    omega

/-- A slot of the tree after the step: an old slot, or the parent. -/
theorem getElem_withParent {s : State} {a b j : Nat} {nd : Node} (h : (s.withParent a b).node[j]? = some nd) :
    s.node[j]? = some nd ∨ (j = s.nnodes ∧ nd = parentOf (s.freqAt a, a) (s.freqAt b, b)) := by
  have h : (s.node ++ [parentOf (s.freqAt a, a) (s.freqAt b, b)])[j]? = some nd := h
  by_cases hj : j < s.node.length
  · rw [List.getElem?_append_left hj] at h
    exact .inl h
  · rw [List.getElem?_append_right (by omega)] at h
    by_cases h0 : j - s.node.length = 0
    · rw [h0] at h
      cases h
      exact .inr ⟨show j = s.node.length by omega, rfl⟩
    · rw [List.getElem?_eq_none (by simp; omega)] at h
      cases h

theorem getElem_withParent_old {s : State} {a b j : Nat} (hj : j < s.nnodes) :
    (s.withParent a b).node[j]? = s.node[j]? := List.getElem?_append_left hj

theorem getElem_withParent_new (s : State) (a b : Nat) :
    (s.withParent a b).node[s.nnodes]? = some (parentOf (s.freqAt a, a) (s.freqAt b, b)) := by
  show (s.node ++ [_])[s.node.length]? = _
  simp

/-- The children of the slots after the step: those of the old slots, and of the parent the two extracted slots. -/
theorem childOf_withParent {s : State} {a b i k : Nat} (h : MergeFacts s a b) (hk : k ≤ s.nnodes) :
    childOf (s.withParent a b).node i k ↔ (k < s.nnodes ∧ childOf s.node i k) ∨ (k = s.nnodes ∧ (a = i ∨ b = i)) := by
  have hslots := h.slots
  have hla := h.leftLt
  have hlb := h.rightLt
  have ha : (parentOf (s.freqAt a, a) (s.freqAt b, b)).left.toNat = a := by
    show (BitVec.ofNat 32 a).toNat = a
    rw [BitVec.toNat_ofNat, Nat.mod_eq_of_lt (by omega)]
  have hb : (parentOf (s.freqAt a, a) (s.freqAt b, b)).right.toNat = b := by
    show (BitVec.ofNat 32 b).toNat = b
    rw [BitVec.toNat_ofNat, Nat.mod_eq_of_lt (by omega)]
  by_cases hkn : k < s.nnodes
  · unfold childOf
    rw [getElem_withParent_old hkn]
    constructor
    · exact fun hh => .inl ⟨hkn, hh⟩
    · rintro (⟨-, hh⟩ | ⟨hh, -⟩)
      · exact hh
      · omega
  · have hk : k = s.nnodes := by omega
    subst hk
    unfold childOf
    rw [getElem_withParent_new]
    constructor
    · rintro ⟨nd, hnd, -, hc⟩
      cases hnd
      rw [ha, hb] at hc
      exact .inr ⟨rfl, hc⟩
    · rintro (⟨hh, -⟩ | ⟨-, hc⟩)
      · omega
      · exact ⟨_, rfl, rfl, by rw [ha, hb]; exact hc⟩

/-- The alphabet and its leaves are a function of the counts and the parameters. -/
theorem alphabet_eq {s t : State} (hp : t.params = s.params) (hf : t.freq = s.freq) :
    t.alphabet = s.alphabet ∧ t.leafOf = s.leafOf := by
  constructor
  · unfold State.alphabet State.nsym
    rw [hp, hf]
  · funext sym
    unfold State.leafOf
    rw [hf]

/-- The tree after MERGE meets what R45 says of its slots. -/
theorem treeShape_withParent {s t : State} {a b : Nat} (h : Inv s) (hs : s.tbs = .merge) (hm : MergeFacts s a b)
    (hp : t.params = s.params) (hf : t.freq = s.freq) (hn : t.node = (s.withParent a b).node) (hns : t.nsyms = s.nsyms)
    (hsub : ∀ i ∈ t.queue, i ∈ (s.withParent a b).queue)
    (hall : ∀ i ∈ (s.withParent a b).queue, i ∈ t.queue ∨ (t.finished ∧ i = t.root.toNat)) : TreeShape t := by
  have hne : s.tbs ≠ .idle := by rw [hs]; decide
  obtain ⟨halpha, hleaf⟩ := alphabet_eq hp hf
  have hlow := h.merge.low hs
  have hlen : t.nnodes = s.nnodes + 1 := by
    rw [State.nnodes, hn]
    exact List.length_append
  have hla := hm.leftLt
  have hlb := hm.rightLt
  have hslots := hm.slots
  have ha : (parentOf (s.freqAt a, a) (s.freqAt b, b)).left.toNat = a := by
    show (BitVec.ofNat 32 a).toNat = a
    rw [BitVec.toNat_ofNat, Nat.mod_eq_of_lt (by omega)]
  have hb : (parentOf (s.freqAt a, a) (s.freqAt b, b)).right.toNat = b := by
    show (BitVec.ofNat 32 b).toNat = b
    rw [BitVec.toNat_ofNat, Nat.mod_eq_of_lt (by omega)]
  have hmem : ∀ nd ∈ t.node, nd ∈ s.node ∨ nd = parentOf (s.freqAt a, a) (s.freqAt b, b) := by
    intro nd hnd
    rw [hn] at hnd
    simpa using hnd
  constructor
  · intro _
    rw [hn, hns, halpha, hleaf, ← h.tree.leaves hne]
    exact List.take_append_of_le_length hlow
  · intro _
    rw [hns, halpha]
    exact h.tree.count hne
  · intro nd hnd
    rw [hn, hns] at hnd
    have hnd : nd ∈ (s.node ++ [parentOf (s.freqAt a, a) (s.freqAt b, b)]).drop s.nsyms.toNat := hnd
    rw [List.drop_append_of_le_length hlow, List.mem_append, List.mem_singleton] at hnd
    rcases hnd with hnd | rfl
    · exact h.tree.internal nd hnd
    · exact ⟨rfl, rfl⟩
  · intro j _ nd hnd hl
    rw [hn] at hnd
    rcases getElem_withParent hnd with hnd | ⟨rfl, rfl⟩
    · have hj : j < s.nnodes := (List.getElem?_eq_some_iff.1 hnd).1
      exact h.tree.lower j hj nd hnd hl
    · rw [ha, hb]
      exact ⟨hla, hlb⟩
  · intro nd hnd hl
    rcases hmem nd hnd with hnd | rfl
    · exact h.tree.distinct nd hnd hl
    · intro hh
      have := congrArg BitVec.toNat hh
      rw [ha, hb] at this
      exact hm.ne this
  · intro nd hnd hl l hleft r hright
    rw [hn] at hleft hright
    rcases hmem nd hnd with hnd | rfl
    · obtain ⟨j, hj⟩ := List.mem_iff_getElem?.1 hnd
      have hjlt : j < s.nnodes := (List.getElem?_eq_some_iff.1 hj).1
      obtain ⟨h1, h2⟩ := h.tree.lower j hjlt nd hj hl
      rw [getElem_withParent_old (by omega)] at hleft hright
      exact h.tree.sums nd hnd hl l hleft r hright
    · rw [ha, getElem_withParent_old hla] at hleft
      rw [hb, getElem_withParent_old hlb] at hright
      show BitVec.ofNat 32 (s.freqAt a + s.freqAt b) = l.freq + r.freq
      rw [freqAt_eq hleft, freqAt_eq hright, BitVec.ofNat_add, BitVec.ofNat_toNat, BitVec.ofNat_toNat]
      simp
  · intro i hi hiq hir
    have hiw : i ∉ (s.withParent a b).queue := fun hh => (hall i hh).elim hiq hir
    rw [hlen] at hi ⊢
    rw [hn]
    have hin : i ≠ s.nnodes := fun hh => hiw ((hm.members i).2 (.inr hh))
    by_cases hab : i = a ∨ i = b
    · refine ⟨s.nnodes, by omega, (childOf_withParent hm (Nat.le_refl _)).2 (.inr ⟨rfl, by omega⟩), fun k hk hc => ?_⟩
      rcases (childOf_withParent hm (by omega)).1 hc with ⟨hk, hc⟩ | ⟨hk, -⟩
      · refine absurd hc (h.tree.orphans i ?_ k hk)
        rcases hab with rfl | rfl
        · exact hm.left
        · exact hm.right
      · exact hk
    · have hiq' : i ∉ s.queue := fun hh => hiw ((hm.members i).2 (.inl ⟨hh, by omega, by omega⟩))
      obtain ⟨j, hj, hc, hu⟩ := h.tree.parent i (by omega) hiq' (by rintro ⟨hh | hh, -⟩ <;> rw [hs] at hh <;> cases hh)
      refine ⟨j, by omega, (childOf_withParent hm (by omega)).2 (.inl ⟨hj, hc⟩), fun k hk hck => ?_⟩
      rcases (childOf_withParent hm (by omega)).1 hck with ⟨hk, hck⟩ | ⟨-, hck⟩
      · exact hu k hk hck
      · omega
  · intro i hi k hk
    rw [hlen] at hk
    rw [hn, childOf_withParent hm (by omega)]
    have hiw := (hm.members i).1 (hsub i hi)
    rintro (⟨hk, hc⟩ | ⟨hk, hc⟩)
    · rcases hiw with ⟨hiq, -⟩ | rfl
      · exact h.tree.orphans i hiq k hk hc
      · obtain ⟨nd, hnd, hl, hch⟩ := hc
        have := h.tree.lower k hk nd hnd hl
        omega
    · omega

/-- MERGE keeps the invariant. -/
theorem stepMerge_inv {s t : State} (h : Inv s) (hs : s.tbs = .merge) (hc : s.phase ≠ .clearing)
    (ht : stepMerge s = .stepped t) : Inv t := by
  obtain ⟨a, b, hm⟩ := mergeFacts h hs
  rw [hm.step, insertParent_eq] at ht
  have hcount := h.merge.count hs
  have hlow := h.merge.low hs
  have htwo := h.merge.two hs
  have hlen1 := hm.perm.length_eq
  have hlen2 := hm.perm'.length_eq
  simp only [List.length_cons] at hlen1 hlen2
  have hslots := hm.slots
  have hw3 : Memory.wf (s.withParent a b).inq := Memory.write_wf (Memory.write_wf (Memory.write_wf h.canonical.inq _ _) _ _) _ _
  have hnn : (s.withParent a b).nnodes = s.nnodes + 1 := List.length_append
  have hct := h.codes.ctlen (by rw [hs]; decide)
  have hcc := h.codes.ctcode (by rw [hs]; decide)
  split_ifs at ht with h1
  · cases ht
    have hone : (s.withParent a b).queue = [s.nnodes] := by
      obtain ⟨x, hx⟩ := List.length_eq_one_iff.1 h1
      have := (hm.members s.nnodes).2 (.inr rfl)
      rw [hx, List.mem_singleton] at this
      rw [hx, this]
    have hnil : (s.withParent a b).inq.write s.nnodes 0 = [] := by
      refine inq_eq_nil_of_queue (s := { s.withParent a b with inq := (s.withParent a b).inq.write s.nnodes 0 })
        (Memory.write_wf hw3 _ _) (List.eq_nil_iff_forall_not_mem.2 fun i hi => ?_)
      obtain ⟨hi, hne⟩ := (mem_queue_dequeue (s := s.withParent a b) hw3).1 hi
      rw [hone, List.mem_singleton] at hi
      exact hne hi
    have hrt : (BitVec.ofNat 32 s.nnodes).toNat = s.nnodes := by
      rw [BitVec.toNat_ofNat, Nat.mod_eq_of_lt (by omega)]
    rw [hnil]
    refine ⟨h.params, ⟨h.canonical.freq, Memory.wf_nil, h.canonical.ctlen, h.canonical.ctcode⟩, h.total, ⟨?_, ?_, ?_, ?_⟩,
      ⟨?_, ?_⟩, ⟨?_, ?_, ?_, ?_, ?_⟩, ⟨?_, ?_, ?_, ?_⟩, ?_, ⟨?_, ?_⟩, ⟨?_, ?_, ?_, ?_⟩,
      ⟨h.bounds.brp, h.bounds.blen, h.bounds.prp, h.bounds.plen⟩, ⟨?_, ?_, ?_⟩⟩
    iterate 4 exact nofun
    · exact fun _ => hct
    · exact fun _ => hcc
    iterate 5 exact nofun
    · exact fun _ => rfl
    · intro _ hz
      have hz : s.nsyms = 0 := hz
      rw [hz] at htwo
      exact absurd htwo (by decide)
    · intro _ _
      show (s.withParent a b).nnodes + 1 = 2 * s.nsyms.toNat
      omega
    · intro _ _
      show (BitVec.ofNat 32 s.nnodes).toNat + 1 = (s.withParent a b).nnodes
      omega
    · refine treeShape_withParent h hs hm rfl rfl rfl rfl ?_ ?_
      · intro i hi
        cases hi
      · intro i hi
        rw [hone, List.mem_singleton] at hi
        exact .inr ⟨.inl rfl, hi.trans hrt.symm⟩
    · exact nofun
    · intro _ _
      have hw := hm.weight
      rw [hone] at hw
      simp only [List.map_cons, List.map_nil, List.sum_cons, List.sum_nil, Nat.add_zero] at hw
      show (s.withParent a b).freqAt (BitVec.ofNat 32 s.nnodes).toNat = s.total.toNat
      rw [hrt]
      exact hw
    iterate 4 exact nofun
    iterate 3 exact fun hh => absurd hh hc
  · cases ht
    have hmrg : (s.withParent a b).tbs = .merge := hs
    have hnf : ¬ (s.withParent a b).finished := by
      rintro (hh | hh) <;> rw [hmrg] at hh <;> cases hh
    have hni : (s.withParent a b).tbs ≠ .idle := by rw [hmrg]; decide
    have hnd : (s.withParent a b).tbs ≠ .done := by rw [hmrg]; decide
    have hns : (s.withParent a b).nsyms = s.nsyms := rfl
    refine ⟨h.params, ⟨h.canonical.freq, hw3, h.canonical.ctlen, h.canonical.ctcode⟩, h.total, ⟨?_, ?_, ?_, ?_⟩,
      ⟨?_, ?_⟩, ⟨?_, ?_, ?_, ?_, ?_⟩, ⟨?_, ?_, ?_, ?_⟩, ?_, ⟨?_, ?_⟩, ⟨?_, ?_, ?_, ?_⟩,
      ⟨h.bounds.brp, h.bounds.blen, h.bounds.prp, h.bounds.plen⟩, ⟨?_, ?_, ?_⟩⟩
    iterate 4 exact fun hh => absurd hh hni
    · exact fun _ => hct
    · exact fun _ => hcc
    · exact fun _ => htwo
    · intro _
      rw [hnn, hns]
      omega
    · intro _
      rw [hnn, hns]
      omega
    · intro _
      rw [hnn, hns]
      omega
    · intro _ i hi
      rw [hnn]
      rcases (hm.members i).1 hi with ⟨hi, -⟩ | rfl
      · have := h.merge.valid hs i hi
        omega
      · omega
    iterate 4 exact fun hh => absurd hh hnf
    · exact treeShape_withParent h hs hm rfl rfl rfl rfl (fun i hi => hi) fun i hi => .inl hi
    · exact fun _ => hm.weight
    · exact fun hh => absurd hh hnf
    iterate 4 exact fun hh => absurd hh hnd
    iterate 3 exact fun hh => absurd hh hc

end Sys2Proof.Machine
end

