-- ==== Sys2Proof/Laws/Packing.lean ====
section
/-! SUPPORT. The laws of the packed format (spec/47_packer.md R190 to R192): the bits of a byte, the bit-count and the stream
bits of a packed sequence. -/

namespace Sys2Proof.Machine

theorem ceil8_le (n : Nat) : n ≤ 8 * ceil8 n := by
  unfold ceil8
  omega

@[simp] theorem be32_length (v : Word) : (be32 v).length = 4 := rfl

@[simp] theorem packBits_length (b : Bits) : (packBits b).length = 4 + ceil8 b.length := by
  simp [packBits]

/-- Eight bits, most significant first, are the bits of their sum. -/
theorem eight_bits : ∀ b0 b1 b2 b3 b4 b5 b6 b7 : Bool, ∀ t < 8,
    (BitVec.ofNat 8 ([b0.toNat * 2 ^ (7 - 0), b1.toNat * 2 ^ (7 - 1), b2.toNat * 2 ^ (7 - 2), b3.toNat * 2 ^ (7 - 3),
      b4.toNat * 2 ^ (7 - 4), b5.toNat * 2 ^ (7 - 5), b6.toNat * 2 ^ (7 - 6), b7.toNat * 2 ^ (7 - 7)].sum)).getLsbD (7 - t)
      = [b0, b1, b2, b3, b4, b5, b6, b7].getD t false := by decide +kernel

/-- Bit 8j+t of the sequence is bit 7-t of byte j, and 0 past its end (R191). -/
theorem packByte_getLsbD (b : Bits) (j : Nat) {t : Nat} (h : t < 8) :
    (packByte b j).getLsbD (7 - t) = b.getD (8 * j + t) false := by
  have hb := eight_bits (b.getD (8 * j + 0) false) (b.getD (8 * j + 1) false) (b.getD (8 * j + 2) false)
    (b.getD (8 * j + 3) false) (b.getD (8 * j + 4) false) (b.getD (8 * j + 5) false) (b.getD (8 * j + 6) false)
    (b.getD (8 * j + 7) false) t h
  refine Eq.trans ?_ (hb.trans ?_)
  · rfl
  · interval_cases t <;> rfl

/-- A byte is its bits 7-t, t from 0 to 7. -/
theorem byte_ext {x y : Byte} (h : ∀ t < 8, x.getLsbD (7 - t) = y.getLsbD (7 - t)) : x = y := by
  apply BitVec.eq_of_getLsbD_eq
  intro i hi
  have := h (7 - i) (by omega)
  rwa [show 7 - (7 - i) = i by omega] at this

theorem packBits_head (b : Bits) {j : Nat} (h : j < 4) :
    (packBits b)[j]? = some ((BitVec.ofNat 32 b.length).extractLsb' (24 - 8 * j) 8) := by
  unfold packBits
  rw [List.getElem?_append_left (by simpa using h)]
  interval_cases j <;> rfl

theorem packBits_tail (b : Bits) {j : Nat} (h : j < ceil8 b.length) : (packBits b)[4 + j]? = some (packByte b j) := by
  unfold packBits
  rw [List.getElem?_append_right (by simp), be32_length, Nat.add_sub_cancel_left, List.getElem?_map,
    List.getElem?_range h]
  rfl

/-- The stream bits of a packed sequence are its bits, and then zeros. -/
theorem streamBit_packBits (b : Bits) {i : Nat} (h : i < 8 * ceil8 b.length) :
    streamBit (packBits b) i = b.getD i false := by
  unfold streamBit
  rw [List.getD_eq_getElem?_getD, packBits_tail b (by omega), Option.getD_some, packByte_getLsbD b _ (by omega)]
  congr 1
  omega

theorem extract_byte_toNat (v : Word) (k : Nat) : (v.extractLsb' k 8).toNat = v.toNat / 2 ^ k % 256 := by
  simp [BitVec.extractLsb'_toNat, Nat.shiftRight_eq_div_pow]

/-- The bit-count of a packed sequence is its length (R192 of R191). -/
theorem bitCount_packBits {b : Bits} (h : b.length < 2 ^ 32) : bitCount (packBits b) = b.length := by
  unfold bitCount
  simp only [List.getD_eq_getElem?_getD, packBits_head b (show 0 < 4 by decide), packBits_head b (show 1 < 4 by decide),
    packBits_head b (show 2 < 4 by decide), packBits_head b (show 3 < 4 by decide), Option.getD_some, extract_byte_toNat,
    BitVec.toNat_ofNat, Nat.mod_eq_of_lt h]
  omega

/-- The first four bytes of a buffer are the big-endian form of its bit-count. -/
theorem be32_bitCount {p0 p1 p2 p3 : Byte} {p : List Byte} :
    be32 (BitVec.ofNat 32 (bitCount (p0 :: p1 :: p2 :: p3 :: p))) = [p0, p1, p2, p3] := by
  have h0 := p0.isLt
  have h1 := p1.isLt
  have h2 := p2.isLt
  have h3 := p3.isLt
  have hc : bitCount (p0 :: p1 :: p2 :: p3 :: p)
      = p0.toNat * 2 ^ 24 + p1.toNat * 2 ^ 16 + p2.toNat * 2 ^ 8 + p3.toNat := rfl
  unfold be32
  rw [hc]
  congr 1
  · apply BitVec.eq_of_toNat_eq
    rw [extract_byte_toNat, BitVec.toNat_ofNat]
    omega
  congr 1
  · apply BitVec.eq_of_toNat_eq
    rw [extract_byte_toNat, BitVec.toNat_ofNat]
    omega
  congr 1
  · apply BitVec.eq_of_toNat_eq
    rw [extract_byte_toNat, BitVec.toNat_ofNat]
    omega
  congr 1
  · apply BitVec.eq_of_toNat_eq
    rw [extract_byte_toNat, BitVec.toNat_ofNat]
    omega

/-- The pad bits are all 0 where the test of R192 does not find one. -/
theorem streamBit_pad {p : List Byte} {n i : Nat} (h : padBitSet p n = false) (hn : n ≤ i) (hi : i < 8 * ceil8 n) :
    streamBit p i = false := by
  unfold padBitSet at h
  rw [List.any_eq_false] at h
  have := h (i - n) (List.mem_range.2 (by omega))
  rw [Nat.add_sub_cancel' hn] at this
  simpa using this

/-- What `unpack` accepts (R192): the checks it passed, and the bits. -/
theorem unpackBytes_some {maxbits : Nat} {p : List Byte} {b : Bits} (h : unpackBytes maxbits p = some b) :
    4 ≤ p.length ∧ bitCount p ≤ maxbits ∧ p.length = 4 + ceil8 (bitCount p) ∧ padBitSet p (bitCount p) = false
      ∧ b = (List.range (bitCount p)).map (streamBit p) := by
  unfold unpackBytes at h
  split_ifs at h with h1 h2 h3 h4
  cases h
  exact ⟨by omega, by omega, not_not.1 h3, by simpa using h4, rfl⟩

end Sys2Proof.Machine
end

