-- ==== Sys2Proof/Laws/PerInstr.lean ====
section
/-! SUPPORT. A law of every command, one lemma per constructor: its word matches a row of the opcode map. -/

namespace Sys2Proof.Laws.EncodedRow

/-- The word of a command has the pattern of some row of the opcode map under the row's mask: the OPC is listed and the
reserved bits are 0 (R82 to R85, R88), whatever the operand. -/
def Statement (i : Instr) : Prop := ∃ r ∈ opcodeRows, encode i &&& r.mask = r.pattern

theorem of_row {i : Instr} (r : OpcodeRow) (h : r ∈ opcodeRows) (hw : encode i &&& r.mask = r.pattern) : Statement i :=
  ⟨r, h, hw⟩

theorem low_zeros (o : BitVec 8) : ∀ i < 24, (o ++ 0#24 : Word).getLsbD i = false := by
  intro i hi
  rw [getLsbD_append_low _ _ hi, BitVec.getLsbD_zero]

theorem masked_wordS (o : BitVec 8) (sym : Nat) : wordS o sym &&& 0xFFFF0000#32 = o ++ 0#24 :=
  (and_mask_eq_iff 16 (by decide) (by decide) (low_zeros o) (by simp)).2
    (reserved_wordS o sym)

theorem masked_wordB (o : BitVec 8) (bit : Bool) : wordB o bit &&& 0xFFFFFFFE#32 = o ++ 0#24 :=
  (and_mask_eq_iff 1 (by decide) (by decide) (low_zeros o) (by simp)).2
    (reserved_wordB o bit)

theorem masked_wordL (o : BitVec 8) (len : Nat) : wordL o len &&& 0xFFFFFF00#32 = o ++ 0#24 :=
  (and_mask_eq_iff 8 (by decide) (by decide) (low_zeros o) (by simp)).2
    (reserved_wordL o len)

theorem nop : Statement .nop :=
  of_row ⟨0x00000000, 0xFFFFFFFF, fun _ => .nop⟩ (by simp [opcodeRows, controlRows]) (by decide)

theorem srst : Statement .srst :=
  of_row ⟨0x01000000, 0xFFFFFFFF, fun _ => .srst⟩ (by simp [opcodeRows, controlRows]) (by decide)

theorem clrfreq : Statement .clrfreq :=
  of_row ⟨0x10000000, 0xFFFFFFFF, fun _ => .clrfreq⟩ (by simp [opcodeRows, frequencyRows]) (by decide)

theorem count (sym : Nat) : Statement (.count sym) :=
  of_row ⟨0x11000000, 0xFFFF0000, fun w => .count (symField w)⟩ (by simp [opcodeRows, frequencyRows]) (masked_wordS 0x11 sym)

theorem setfreq (sym : Nat) : Statement (.setfreq sym) :=
  of_row ⟨0x12000000, 0xFFFF0000, fun w => .setfreq (symField w)⟩ (by simp [opcodeRows, frequencyRows]) (masked_wordS 0x12 sym)

theorem getfreq (sym : Nat) : Statement (.getfreq sym) :=
  of_row ⟨0x13000000, 0xFFFF0000, fun w => .getfreq (symField w)⟩ (by simp [opcodeRows, frequencyRows]) (masked_wordS 0x13 sym)

theorem build : Statement .build :=
  of_row ⟨0x20000000, 0xFFFFFFFF, fun _ => .build⟩ (by simp [opcodeRows, treeBuilderRows]) (by decide)

theorem bstep : Statement .bstep :=
  of_row ⟨0x21000000, 0xFFFFFFFF, fun _ => .bstep⟩ (by simp [opcodeRows, treeBuilderRows]) (by decide)

theorem tnode : Statement .tnode :=
  of_row ⟨0x22000000, 0xFFFFFFFF, fun _ => .tnode⟩ (by simp [opcodeRows, treeBuilderRows]) (by decide)

theorem lookup (sym : Nat) : Statement (.lookup sym) :=
  of_row ⟨0x30000000, 0xFFFF0000, fun w => .lookup (symField w)⟩ (by simp [opcodeRows, codeTableRows]) (masked_wordS 0x30 sym)

theorem dlookup (len : Nat) : Statement (.dlookup len) :=
  of_row ⟨0x31000000, 0xFFFFFF00, fun w => .dlookup (lenField w)⟩ (by simp [opcodeRows, codeTableRows]) (masked_wordL 0x31 len)

theorem enc (sym : Nat) : Statement (.enc sym) :=
  of_row ⟨0x32000000, 0xFFFF0000, fun w => .enc (symField w)⟩ (by simp [opcodeRows, codeTableRows]) (masked_wordS 0x32 sym)

theorem dec : Statement .dec :=
  of_row ⟨0x33000000, 0xFFFFFFFF, fun _ => .dec⟩ (by simp [opcodeRows, codeTableRows]) (by decide)

theorem bclr : Statement .bclr :=
  of_row ⟨0x40000000, 0xFFFFFFFF, fun _ => .bclr⟩ (by simp [opcodeRows, bitBufferRows]) (by decide)

theorem bput (bit : Bool) : Statement (.bput bit) :=
  of_row ⟨0x41000000, 0xFFFFFFFE, fun w => .bput (bitField w)⟩ (by simp [opcodeRows, bitBufferRows]) (masked_wordB 0x41 bit)

theorem bget : Statement .bget :=
  of_row ⟨0x42000000, 0xFFFFFFFF, fun _ => .bget⟩ (by simp [opcodeRows, bitBufferRows]) (by decide)

theorem brwd : Statement .brwd :=
  of_row ⟨0x43000000, 0xFFFFFFFF, fun _ => .brwd⟩ (by simp [opcodeRows, bitBufferRows]) (by decide)

theorem pclr : Statement .pclr :=
  of_row ⟨0x50000000, 0xFFFFFFFF, fun _ => .pclr⟩ (by simp [opcodeRows, packerRows]) (by decide)

theorem pwr : Statement .pwr :=
  of_row ⟨0x51000000, 0xFFFFFFFF, fun _ => .pwr⟩ (by simp [opcodeRows, packerRows]) (by decide)

theorem prd : Statement .prd :=
  of_row ⟨0x52000000, 0xFFFFFFFF, fun _ => .prd⟩ (by simp [opcodeRows, packerRows]) (by decide)

theorem pack : Statement .pack :=
  of_row ⟨0x53000000, 0xFFFFFFFF, fun _ => .pack⟩ (by simp [opcodeRows, packerRows]) (by decide)

theorem unpack : Statement .unpack :=
  of_row ⟨0x54000000, 0xFFFFFFFF, fun _ => .unpack⟩ (by simp [opcodeRows, packerRows]) (by decide)

end Sys2Proof.Laws.EncodedRow
end

