-- ==== Sys2Proof/Laws/Step.lean ====
section
/-! SUPPORT. What the register window, the engine and a step can do, said once. -/

namespace Sys2Proof.Machine

theorem regAt_offset (r : Reg) : regAt r.offset = some r := by cases r <;> rfl

theorem offset_of_regAt {off : Nat} {r : Reg} (h : regAt off = some r) : r.offset = off := by
  have := List.find?_some h
  simpa using this

/-- The registers stand at 0x00, 0x04, .., 0x44 (R40). -/
theorem regAt_eq_none_iff {off : Nat} : regAt off = none ↔ ¬ (off % 4 = 0 ∧ off ≤ 0x44) := by
  unfold regAt
  rw [List.find?_eq_none]
  constructor
  · intro h hoff
    have hk : off = 4 * (off / 4) := by omega
    have hlt : off / 4 < 18 := by omega
    generalize off / 4 = k at hk hlt
    subst hk
    revert h
    interval_cases k <;> simp [registers, Reg.offset]
  · intro h r _ hr
    have hr : r.offset = off := by simpa using hr
    apply h
    rw [← hr]
    cases r <;> decide

/-- A read of the window: nothing but an observation, and a draw where the value is unspecified. -/
theorem windowRead_eq (s : State) (off : Nat) :
    ∃ v d, windowRead s off = { s with reads := s.reads ++ [v], draw := d } ∧ (d = s.draw ∨ (d = s.draw + 1 ∧ s.busy = true)) := by
  unfold windowRead
  split
  · exact ⟨0, s.draw, rfl, .inl rfl⟩
  · next r _ =>
    split
    · exact ⟨s.regValue r, s.draw, rfl, .inl rfl⟩
    · next h =>
      refine ⟨busyValue r (Config.freeWord s.draw), s.draw + 1, rfl, .inr ⟨rfl, ?_⟩⟩
      rw [not_or] at h
      simpa using h.1

/-- A write of the window: acceptance, DATA, a lost write, or nothing. -/
theorem windowWrite_cases (s : State) (off : Nat) (v : Word) :
    (off = 0 ∧ s.busy = false ∧ windowWrite s off v = s.acceptCommand v)
    ∨ (off = 4 ∧ s.busy = false ∧ windowWrite s off v = { s with data := v })
    ∨ ((off = 0 ∨ off = 4) ∧ s.busy = true ∧ windowWrite s off v = { s with overrun := true })
    ∨ (off ≠ 0 ∧ off ≠ 4 ∧ windowWrite s off v = s) := by
  unfold windowWrite
  split
  · next h =>
    have ho : off = 0 := (offset_of_regAt h).symm
    cases hb : s.busy
    · exact .inl ⟨ho, rfl, by simp⟩
    · exact .inr (.inr (.inl ⟨.inl ho, rfl, by simp⟩))
  · next h =>
    have ho : off = 4 := (offset_of_regAt h).symm
    cases hb : s.busy
    · exact .inr (.inl ⟨ho, rfl, by simp⟩)
    · exact .inr (.inr (.inl ⟨.inr ho, rfl, by simp⟩))
  · next h1 h2 =>
    refine .inr (.inr (.inr ⟨?_, ?_, rfl⟩))
    · rintro rfl
      exact h1 rfl
    · rintro rfl
      exact h2 rfl

theorem accessOffset_next {s : State} {width : Width} {addr off : Nat} (h : accessOffset s width addr = .next off) :
    s.phase ≠ .inReset ∧ width = .w32 ∧ addr = s.params.base + off ∧ off < 256 ∧ off % 4 = 0 := by
  unfold accessOffset at h
  split_ifs at h with h1 h2 h3 h4
  cases h
  rw [not_or] at h1
  exact ⟨h2, not_not.1 h3, by omega, by omega, not_not.1 h4⟩

theorem accessOffset_valid {s : State} {off : Nat} (hp : s.phase ≠ .inReset) (ho : off < 256) (h4 : off % 4 = 0) :
    accessOffset s .w32 (s.params.base + off) = .next off := by
  unfold accessOffset
  rw [if_neg (by omega), if_neg hp, if_neg (by simp), if_neg (by simpa using h4)]
  simp

theorem accessOffset_fault {s : State} {width : Width} {addr : Nat} {f : Fault} (h : accessOffset s width addr = .fault f) :
    f = .outsideWindow := by
  unfold accessOffset at h
  split_ifs at h
  cases h
  rfl

theorem hostRead_next {width : Width} {addr : Nat} {s t : State} (h : hostRead width addr s = .next t) :
    ∃ off, accessOffset s width addr = .next off ∧ t = windowRead s off := by
  unfold hostRead at h
  split at h
  · next off ho =>
    cases h
    exact ⟨off, ho, rfl⟩
  · cases h
  · cases h

theorem hostWrite_next {width : Width} {addr : Nat} {v : Word} {s t : State} (h : hostWrite width addr v s = .next t) :
    ∃ off, accessOffset s width addr = .next off ∧ t = windowWrite s off v := by
  unfold hostWrite at h
  split at h
  · next off ho =>
    cases h
    exact ⟨off, ho, rfl⟩
  · cases h
  · cases h

/-- What a turn of the engine can do. -/
theorem engineTurn_next {s t : State} (h : engineTurn s = .next t) :
    (∃ i, s.phase = .command ∧ decode s.cmdl = .command i ∧ exec i s.completeCommand = .next t)
    ∨ (∃ why, s.phase = .command ∧ decode s.cmdl = .illegal why ∧ t = s.completeCommand.reportErr .illegalCmd)
    ∨ (s.phase = .clearing ∧ t = s.completeClear)
    ∨ ((s.phase = .idle ∨ s.phase = .inReset) ∧ t = s) := by
  unfold engineTurn at h
  cases hp : s.phase <;> rw [hp] at h
  · cases h
    exact .inr (.inr (.inr ⟨.inr rfl, rfl⟩))
  · cases h
    exact .inr (.inr (.inl ⟨rfl, rfl⟩))
  · cases h
    exact .inr (.inr (.inr ⟨.inl rfl, rfl⟩))
  · change performLatched s.completeCommand = .next t at h
    unfold performLatched at h
    cases hd : decode s.cmdl with
    | command i =>
      rw [State.completeCommand_cmdl, hd] at h
      exact .inl ⟨i, rfl, rfl, h⟩
    | illegal why =>
      rw [State.completeCommand_cmdl, hd] at h
      cases h
      exact .inr (.inl ⟨why, rfl, rfl, rfl⟩)

/-- The event a step takes, and the state without it pending. -/
def State.afterEvent (s : State) : State := { s with pending := s.pending.tail }

theorem step_of_nil {s : State} (h : s.pending = []) : step s = engineTurn s := by simp [step, nextMove, h]

theorem step_of_cons {s : State} {e : Event} {rest : List Event} (h : s.pending = e :: rest) :
    step s = takeEvent e { s with pending := rest } := by simp [step, nextMove, h]

/-- At the engine's turn a step is a turn of the engine. -/
theorem step_of_enginesTurn {s : State} (h : s.enginesTurn) : step s = engineTurn s.afterEvent := by
  rcases h with h | h
  · rw [step_of_nil h]
    unfold State.afterEvent
    rw [h]
    congr 1
    cases s
    simp_all
  · cases hp : s.pending with
    | nil => rw [hp] at h; cases h
    | cons e rest =>
      rw [hp] at h
      cases h
      rw [step_of_cons hp]
      simp [takeEvent, State.afterEvent, hp]

/-- What a step can do, said once: a turn of the engine, a host read, a host write, or an event of the reset input. -/
theorem step_next {s t : State} (h : step s = .next t) :
    (s.enginesTurn ∧ engineTurn s.afterEvent = .next t)
    ∨ (∃ off, s.phase ≠ .inReset ∧ off < 256 ∧ off % 4 = 0
        ∧ s.pending.head? = some (.read .w32 (s.params.base + off)) ∧ t = windowRead s.afterEvent off)
    ∨ (∃ off v, s.phase ≠ .inReset ∧ off < 256 ∧ off % 4 = 0
        ∧ s.pending.head? = some (.write .w32 (s.params.base + off) v) ∧ t = windowWrite s.afterEvent off v)
    ∨ (s.pending.head? = some .resetAssert ∧ t = assertReset s.afterEvent)
    ∨ (s.pending.head? = some .resetRelease ∧ t = releaseReset s.afterEvent) := by
  cases hp : s.pending with
  | nil =>
    refine .inl ⟨.inl hp, ?_⟩
    rw [← step_of_enginesTurn (.inl hp)]
    exact h
  | cons e rest =>
    have ha : { s with pending := rest } = s.afterEvent := by simp [State.afterEvent, hp]
    rw [step_of_cons hp, ha] at h
    cases e with
    | engineTurn => exact .inl ⟨.inr (by rw [hp]; rfl), h⟩
    | read width addr =>
      obtain ⟨off, ho, rfl⟩ := hostRead_next h
      obtain ⟨h1, rfl, rfl, h3, h4⟩ := accessOffset_next ho
      exact .inr (.inl ⟨off, h1, h3, h4, rfl, rfl⟩)
    | write width addr v =>
      obtain ⟨off, ho, rfl⟩ := hostWrite_next h
      obtain ⟨h1, rfl, rfl, h3, h4⟩ := accessOffset_next ho
      exact .inr (.inr (.inl ⟨off, v, h1, h3, h4, rfl, rfl⟩))
    | resetAssert =>
      cases h
      exact .inr (.inr (.inr (.inl ⟨rfl, rfl⟩)))
    | resetRelease =>
      cases h
      exact .inr (.inr (.inr (.inr ⟨rfl, rfl⟩)))

end Sys2Proof.Machine
end

