-- ==== Sys2Proof/Laws/TreeSteps.lean ====
section
/-! SUPPORT. The steps of the tree builder together: what every step leaves alone, that none stops the machine where the
invariant holds, and that each keeps it. -/

namespace Sys2Proof.Machine

/-- What no step of the tree builder writes. -/
structure StepFrame (s t : State) : Prop where
  freq : SameFrequency s t
  bits : SameBits s t
  packed : SamePacked s t
  results : SameResults s t
  interface : SameInterface s t
  eos : t.eos = s.eos
  sticky : t.sticky = s.sticky

theorem StepFrame.trans {s t u : State} (h1 : StepFrame s t) (h2 : StepFrame t u) : StepFrame s u where
  freq := ⟨h2.freq.freq.trans h1.freq.freq, h2.freq.total.trans h1.freq.total⟩
  bits := ⟨h2.bits.bitbuf.trans h1.bits.bitbuf, h2.bits.brp.trans h1.bits.brp⟩
  packed := ⟨h2.packed.pbuf.trans h1.packed.pbuf, h2.packed.prp.trans h1.packed.prp⟩
  results := ⟨h2.results.res0.trans h1.results.res0, h2.results.res1.trans h1.results.res1,
    h2.results.res2.trans h1.results.res2⟩
  interface := ⟨h2.interface.params.trans h1.interface.params, h2.interface.data.trans h1.interface.data,
    h2.interface.phase.trans h1.interface.phase, h2.interface.overrun.trans h1.interface.overrun,
    h2.interface.cmdl.trans h1.interface.cmdl, h2.interface.pending.trans h1.interface.pending,
    h2.interface.reads.trans h1.interface.reads, h2.interface.draw.trans h1.interface.draw⟩
  eos := h2.eos.trans h1.eos
  sticky := h2.sticky.trans h1.sticky

theorem StepFrame.refl (s : State) : StepFrame s s :=
  ⟨⟨rfl, rfl⟩, ⟨rfl, rfl⟩, ⟨rfl, rfl⟩, ⟨rfl, rfl, rfl⟩, ⟨rfl, rfl, rfl, rfl, rfl, rfl, rfl, rfl⟩, rfl, rfl⟩

theorem stepInit_frame (s : State) : StepFrame s (stepInit s) := by
  unfold stepInit
  simp only
  split_ifs <;>
    exact ⟨⟨rfl, rfl⟩, ⟨rfl, rfl⟩, ⟨rfl, rfl⟩, ⟨rfl, rfl, rfl⟩, ⟨rfl, rfl, rfl, rfl, rfl, rfl, rfl, rfl⟩, rfl, rfl⟩

theorem stepMerge_frame {s t : State} (h : stepMerge s = .stepped t) : StepFrame s t := by
  obtain ⟨a, b, s1, s2, h1, h2, rfl⟩ := stepMerge_stepped h
  obtain ⟨-, -, -, rfl, -⟩ := extract_some h1
  obtain ⟨-, -, -, rfl, -⟩ := extract_some h2
  unfold insertParent
  simp only
  split_ifs <;>
    exact ⟨⟨rfl, rfl⟩, ⟨rfl, rfl⟩, ⟨rfl, rfl⟩, ⟨rfl, rfl, rfl⟩, ⟨rfl, rfl, rfl, rfl, rfl, rfl, rfl, rfl⟩, rfl, rfl⟩

theorem stepAssign_frame {s t : State} (h : stepAssign s = .stepped t) : StepFrame s t := by
  obtain ⟨codes, -, -, rfl⟩ := stepAssign_stepped h
  exact ⟨⟨rfl, rfl⟩, ⟨rfl, rfl⟩, ⟨rfl, rfl⟩, ⟨rfl, rfl, rfl⟩, ⟨rfl, rfl, rfl, rfl, rfl, rfl, rfl, rfl⟩, rfl, rfl⟩

theorem tbStep_frame {s t : State} (h : tbStep s = .stepped t) : StepFrame s t := by
  rcases tbStep_stepped h with ⟨-, rfl⟩ | ⟨-, h⟩ | ⟨-, h⟩ | ⟨-, rfl⟩
  · exact stepInit_frame s
  · exact stepMerge_frame h
  · exact stepAssign_frame h
  · exact StepFrame.refl _

/-- A step from a state that meets the invariant, the reset clear not in progress, gives one that meets it. -/
theorem tbStep_inv {s t : State} (h : Inv s) (hc : s.phase ≠ .clearing) (ht : tbStep s = .stepped t) : Inv t := by
  rcases tbStep_stepped ht with ⟨hs, rfl⟩ | ⟨hs, ht⟩ | ⟨hs, ht⟩ | ⟨-, rfl⟩
  · exact stepInit_inv h hs hc
  · exact stepMerge_inv h hs hc ht
  · exact stepAssign_inv h hs hc ht
  · exact h

/-- Where the invariant holds no step meets a broken tree or queue. -/
theorem tbStep_ne_broken {s : State} (h : Inv s) {f : Fault} : tbStep s ≠ .broken f := by
  intro hb
  unfold tbStep at hb
  cases hs : s.tbs <;> rw [hs] at hb
  · cases hb
  · obtain ⟨a, b, hm⟩ := mergeFacts h hs
    simp only [hm.step] at hb
    cases hb
  · obtain ⟨codes, ha, -⟩ := assignment_spec h hs
    rw [(stepAssign_broken hb).2] at ha
    cases ha
  · cases hb

/-- How many steps are left until DONE (R128): from IDLE one for INIT, one for each merge, one for ASSIGN. -/
def stepsLeft (s : State) : Nat :=
  match s.tbs with
  | .idle => if s.alphabet.length = 0 then 1 else s.alphabet.length + 1
  | .merge => s.queue.length
  | .assign => 1
  | .done => 0

theorem stepsLeft_step {s t : State} (h : Inv s) (hd : s.tbs ≠ .done) (ht : tbStep s = .stepped t) :
    stepsLeft t + 1 = stepsLeft s := by
  rcases tbStep_stepped ht with ⟨hs, rfl⟩ | ⟨hs, ht⟩ | ⟨hs, ht⟩ | ⟨hs, -⟩
  · rw [stepInit_eq (h.idle.inq hs)]
    split_ifs with h0 h1
    · simp [stepsLeft, hs, h0]
    · simp [stepsLeft, hs, h1]
    · simp only [stepsLeft, hs, if_neg h0]
      rw [queue_enqueueFirst (k := s.alphabet.length) rfl, List.length_range]
  · obtain ⟨a, b, hm⟩ := mergeFacts h hs
    rw [hm.step, insertParent_eq] at ht
    have h1 := hm.perm.length_eq
    have h2 := hm.perm'.length_eq
    simp only [List.length_cons] at h1 h2
    split_ifs at ht with h3
    · cases ht
      simp only [stepsLeft, hs]
      omega
    · cases ht
      have hmrg : (s.withParent a b).tbs = .merge := hs
      simp only [stepsLeft, hs]
      omega
  · obtain ⟨codes, -, -, rfl⟩ := stepAssign_stepped ht
    simp [stepsLeft, hs]
  · exact absurd hs hd

theorem stepsLeft_le {s : State} (h : Inv s) : stepsLeft s ≤ s.nsym + 1 := by
  unfold stepsLeft
  have hl := alphabet_length_le s
  cases hs : s.tbs
  · simp only
    split_ifs <;> omega
  · simp only
    have h1 := h.merge.count hs
    have h2 := h.merge.low hs
    have h3 := h.tree.count (by rw [hs]; decide)
    omega
  · simp only
    omega
  · exact Nat.zero_le _

theorem stepsLeft_eq_zero {s : State} (h : Inv s) (h0 : stepsLeft s = 0) : s.tbs = .done := by
  unfold stepsLeft at h0
  cases hs : s.tbs <;> rw [hs] at h0 <;> simp only at h0
  · split_ifs at h0
  · have h1 := h.merge.count hs
    have h2 := h.merge.high hs
    omega
  · omega

end Sys2Proof.Machine
end

