-- ==== Sys2Proof/Machine/Assembler.lean ====
section
/-! DEFINITION. The assembler syntax of spec/30_encoding.md R93: one command a line, the mnemonic in capitals, then at most
one operand; `;` starts a comment (log 19). -/

namespace Sys2Proof.Machine

/-- A line of source text, as its characters. -/
abbrev Line := List Char

/-- The line without its comment. -/
def stripComment (l : Line) : Line := l.takeWhile (· ≠ ';')

/-- A blank between words. -/
def isBlank (c : Char) : Bool := c == ' ' || c == '\t'

/-- The line without blanks at its end. -/
def stripEnd (l : Line) : Line := (l.reverse.dropWhile isBlank).reverse

/-- A decimal digit's value. -/
def decimalDigit (c : Char) : Option Nat :=
  if 48 ≤ c.toNat ∧ c.toNat ≤ 57 then some (c.toNat - 48) else none

/-- A hexadecimal digit's value. -/
def hexDigit (c : Char) : Option Nat :=
  if 48 ≤ c.toNat ∧ c.toNat ≤ 57 then some (c.toNat - 48)
  else if 65 ≤ c.toNat ∧ c.toNat ≤ 70 then some (c.toNat - 55)
  else if 97 ≤ c.toNat ∧ c.toNat ≤ 102 then some (c.toNat - 87)
  else none

/-- The number a run of digits stands for in a base. -/
def digits (base : Nat) (value : Char → Option Nat) (acc : Nat) : Line → Option Nat
  | [] => some acc
  | c :: cs =>
    match value c with
    | none => none
    | some d => digits base value (acc * base + d) cs

/-- A decimal number: at least one digit. -/
def decimalNumber (l : Line) : Option Nat := if l = [] then none else digits 10 decimalDigit 0 l

/-- A symbol operand: a character literal standing for its ASCII code, a hexadecimal number 0x.., or a decimal number. -/
def symbolOperand : Line → Option Nat
  | ['\'', c, '\''] => if c.toNat < 128 then some c.toNat else none
  | '0' :: 'x' :: l => if l = [] then none else digits 16 hexDigit 0 l
  | l => decimalNumber l

/-- A bit operand: 0 or 1. -/
def bitOperand : Line → Option Bool
  | ['0'] => some false
  | ['1'] => some true
  | _ => none

/-- The command of a mnemonic and its operand; none where the mnemonic is not listed, or the operand is missing, not of its
form, or one too many. -/
def instrOf (mnemonic operand : Line) : Option Instr :=
  let plain (i : Instr) : Option Instr := if operand = [] then some i else none
  match mnemonic with
  | ['N', 'O', 'P'] => plain .nop
  | ['S', 'R', 'S', 'T'] => plain .srst
  | ['C', 'L', 'R', 'F', 'R', 'E', 'Q'] => plain .clrfreq
  | ['C', 'O', 'U', 'N', 'T'] => (symbolOperand operand).map .count
  | ['S', 'E', 'T', 'F', 'R', 'E', 'Q'] => (symbolOperand operand).map .setfreq
  | ['G', 'E', 'T', 'F', 'R', 'E', 'Q'] => (symbolOperand operand).map .getfreq
  | ['B', 'U', 'I', 'L', 'D'] => plain .build
  | ['B', 'S', 'T', 'E', 'P'] => plain .bstep
  | ['T', 'N', 'O', 'D', 'E'] => plain .tnode
  | ['L', 'O', 'O', 'K', 'U', 'P'] => (symbolOperand operand).map .lookup
  | ['D', 'L', 'O', 'O', 'K', 'U', 'P'] => (decimalNumber operand).map .dlookup
  | ['E', 'N', 'C'] => (symbolOperand operand).map .enc
  | ['D', 'E', 'C'] => plain .dec
  | ['B', 'C', 'L', 'R'] => plain .bclr
  | ['B', 'P', 'U', 'T'] => (bitOperand operand).map .bput
  | ['B', 'G', 'E', 'T'] => plain .bget
  | ['B', 'R', 'W', 'D'] => plain .brwd
  | ['P', 'C', 'L', 'R'] => plain .pclr
  | ['P', 'W', 'R'] => plain .pwr
  | ['P', 'R', 'D'] => plain .prd
  | ['P', 'A', 'C', 'K'] => plain .pack
  | ['U', 'N', 'P', 'A', 'C', 'K'] => plain .unpack
  | _ => none

/-- The command a line stands for; none where the line is no command or its operand does not fit its field. -/
def assembleLine (line : Line) : Option Instr :=
  let text := stripEnd ((stripComment line).dropWhile isBlank)
  let mnemonic := text.takeWhile fun c => !isBlank c
  let operand := (text.drop mnemonic.length).dropWhile isBlank
  (instrOf mnemonic operand).filter Instr.wellFormed

end Sys2Proof.Machine
end

