-- ==== Sys2Proof/Tests/Slice0.lean ====
section
/-! SUPPORT. Tests of the model against the worked examples and the vectors of spec/95_test_vectors.md (T-...) and the
encodings of spec/30_encoding.md. Every expected result is the spec's. -/

-- Each test is checked before the next is read: many kernel evaluations at once would need a thread each.
set_option Elab.async false

namespace Sys2Proof.Tests

open Sys2Proof.Machine

/-! ### WellFormed: an ill-formed term for each check is refused -/

theorem test_wf_count : Instr.wellFormed (.count 65536) = false ∧ Instr.wellFormed (.count 65535) = true := by decide

theorem test_wf_setfreq : Instr.wellFormed (.setfreq 65536) = false ∧ Instr.wellFormed (.setfreq 65535) = true := by decide

theorem test_wf_getfreq : Instr.wellFormed (.getfreq 65536) = false ∧ Instr.wellFormed (.getfreq 0) = true := by decide

theorem test_wf_lookup : Instr.wellFormed (.lookup 65536) = false ∧ Instr.wellFormed (.lookup 65535) = true := by decide

theorem test_wf_enc : Instr.wellFormed (.enc 70000) = false ∧ Instr.wellFormed (.enc 65535) = true := by decide

theorem test_wf_dlookup : Instr.wellFormed (.dlookup 256) = false ∧ Instr.wellFormed (.dlookup 255) = true := by decide

/-! ### Decode: one word of each command, written out from R82 to R88 (OPC, reserved zeros, operand) -/

theorem test_decode_nop : decode 0b00000000000000000000000000000000 = .command .nop := by decide

theorem test_decode_srst : decode 0b00000001000000000000000000000000 = .command .srst := by decide

theorem test_decode_clrfreq : decode 0b00010000000000000000000000000000 = .command .clrfreq := by decide

theorem test_decode_count : decode 0b00010001000000001000000001100001 = .command (.count 0x8061) := by decide

theorem test_decode_setfreq : decode 0b00010010000000000000000001100010 = .command (.setfreq 0x62) := by decide

theorem test_decode_getfreq : decode 0b00010011000000001111111111111111 = .command (.getfreq 0xFFFF) := by decide

theorem test_decode_build : decode 0b00100000000000000000000000000000 = .command .build := by decide

theorem test_decode_bstep : decode 0b00100001000000000000000000000000 = .command .bstep := by decide

theorem test_decode_tnode : decode 0b00100010000000000000000000000000 = .command .tnode := by decide

theorem test_decode_lookup : decode 0b00110000000000000000000100000010 = .command (.lookup 0x102) := by decide

theorem test_decode_dlookup : decode 0b00110001000000000000000010000001 = .command (.dlookup 129) := by decide

theorem test_decode_enc : decode 0b00110010000000000000000001111010 = .command (.enc 0x7A) := by decide

theorem test_decode_dec : decode 0b00110011000000000000000000000000 = .command .dec := by decide

theorem test_decode_bclr : decode 0b01000000000000000000000000000000 = .command .bclr := by decide

theorem test_decode_bput :
    decode 0b01000001000000000000000000000000 = .command (.bput false)
      ∧ decode 0b01000001000000000000000000000001 = .command (.bput true) := by decide

theorem test_decode_bget : decode 0b01000010000000000000000000000000 = .command .bget := by decide

theorem test_decode_brwd : decode 0b01000011000000000000000000000000 = .command .brwd := by decide

theorem test_decode_pclr : decode 0b01010000000000000000000000000000 = .command .pclr := by decide

theorem test_decode_pwr : decode 0b01010001000000000000000000000000 = .command .pwr := by decide

theorem test_decode_prd : decode 0b01010010000000000000000000000000 = .command .prd := by decide

theorem test_decode_pack : decode 0b01010011000000000000000000000000 = .command .pack := by decide

theorem test_decode_unpack : decode 0b01010100000000000000000000000000 = .command .unpack := by decide

/-- T-CL-3 to T-CL-10: words that are no command. -/
theorem test_decode_illegal :
    decode 0xFF000000 = .illegal .unlistedOpc ∧ decode 0x00000001 = .illegal .reservedBit
      ∧ decode 0x02000000 = .illegal .unlistedOpc ∧ decode 0x44000000 = .illegal .unlistedOpc
      ∧ decode 0x55000000 = .illegal .unlistedOpc ∧ decode 0x11010061 = .illegal .reservedBit
      ∧ decode 0x12800062 = .illegal .reservedBit ∧ decode 0x31000100 = .illegal .reservedBit
      ∧ decode 0x20000001 = .illegal .reservedBit ∧ decode 0x41000002 = .illegal .reservedBit := by decide

/-- The host's question, for a word of the table and for one too long. -/
theorem test_decodeTableWord :
    decodeTableWord 32 0x11000061 = some (.count 0x61) ∧ decodeTableWord 32 0x41000002 = none
      ∧ decodeTableWord 40 0x11000061 = none := by decide

/-! ### The assembler (R93) -/

theorem test_assemble :
    assembleLine "COUNT 'a'".toList = some (.count 0x61) ∧ assembleLine "BPUT 1 ; one".toList = some (.bput true)
      ∧ assembleLine "DLOOKUP 2".toList = some (.dlookup 2) ∧ assembleLine "  BUILD".toList = some .build
      ∧ assembleLine "ENC 0x63".toList = some (.enc 0x63) ∧ assembleLine "build".toList = none
      ∧ assembleLine "COUNT 65536".toList = none ∧ assembleLine "NOP 1".toList = none := by decide +kernel

/-- T-FQ's SETFREQ as a host program (R95): the write of DATA, the write of CMD, and the WAIT loop. -/
theorem test_pseudo :
    programEvents Params.default 0 (Pseudo.setfreq 0x62 3).expand
      = [.write .w32 4 3, .write .w32 0 0x12000062, .engineTurn, .read .w32 8] := by decide +kernel

/-! ### Small states -/

/-- R of the vectors: the reset state with BUSY = 0. -/
def r : State := { State.reset with phase := .idle }

/-- T-FQ-3: "aabbbcc" counted. -/
def fq3 : State := { r with freq := [(0x61, 2), (0x62, 3), (0x63, 2)], total := 7 }

/-- The three leaves of "aabbbcc". -/
def leaves7 : List Node :=
  [⟨2, true, 0x61, 0, 0⟩, ⟨3, true, 0x62, 0, 0⟩, ⟨2, true, 0x63, 0, 0⟩]

/-- After T-TB-1. -/
def tb1 : State := { fq3 with tbs := .merge, node := leaves7, inq := [(0, 1), (1, 1), (2, 1)], nsyms := 3 }

/-- After T-TB-2. -/
def tb2 : State := { fq3 with tbs := .merge, node := leaves7 ++ [⟨4, false, 0, 0, 2⟩], inq := [(1, 1), (3, 1)], nsyms := 3 }

/-- After T-TB-3. -/
def tb3 : State :=
  { fq3 with tbs := .assign, node := leaves7 ++ [⟨4, false, 0, 0, 2⟩, ⟨7, false, 0, 1, 3⟩], nsyms := 3, root := 4 }

/-- TAB7: b = "0", a = "10", c = "11". -/
def tab7 : State := { tb3 with tbs := .done, ctlen := [(0x61, 2), (0x62, 1), (0x63, 2)], ctcode := [(0x61, 2), (0x63, 3)] }

/-- The table of "aaaa" (T-TB-7): a = "0". -/
def tabA : State :=
  { r with freq := [(0x61, 4)], total := 4, tbs := .done, node := [⟨4, true, 0x61, 0, 0⟩], nsyms := 1, ctlen := [(0x61, 1)] }

/-- The empty table (T-TB-6). -/
def tab0 : State := { r with tbs := .done }

/-- "10100001111", the code of "aabbbcc". -/
def stream7 : Bits := [true, false, true, false, false, false, false, true, true, true, true]

/-- Whether a command answers a next state that passes a test. -/
def gives (a : Answer) (p : State → Bool) : Bool :=
  match a with
  | .next t => p t
  | .fault _ => false
  | .refused _ => false

/-! ### Commands -/

/-- T-CL-1. -/
theorem test_nop : gives (exec .nop { tab7 with err := .unknownSymbol, sticky := true }) (·.status == 0x0000030A) = true := by
  decide +kernel

/-- T-CL-2. -/
theorem test_srst : gives (exec .srst { tab7 with sticky := true, data := 5, bitbuf := stream7 })
    (fun t => t.status == 0 && t.total == 0 && t.blen == 0 && t.plen == 0 && t.data == 0) = true := by decide +kernel

/-- R101's example. -/
theorem test_clrfreq : gives (exec .clrfreq { tab7 with bitbuf := stream7 })
    (fun t => t.status == 0 && t.total == 0 && t.nnodes == 0 && t.root == 0 && t.blen == 11) = true := by decide +kernel

/-- R102's example: the second COUNT 'a'. -/
theorem test_count : gives (exec (.count 0x61) { r with freq := [(0x61, 1)], total := 1 })
    (fun t => t.freq == [(0x61, 2)] && t.total == 2) = true := by decide +kernel

/-- R102's checks in order: BAD_SYMBOL before SEQUENCE, SEQUENCE in DONE, FREQ_OVERFLOW at the top. -/
theorem test_count_errors :
    gives (exec (.count 0x100) tab7) (·.err == .badSymbol) = true
      ∧ gives (exec (.count 0x61) tab7) (·.err == .sequence) = true
      ∧ gives (exec (.count 0x61) { r with freq := [(0, 0xFFFFFFFF)], total := 0xFFFFFFFF })
        (fun t => t.err == .freqOverflow && t.freq == [(0, 0xFFFFFFFF)]) = true := by decide +kernel

/-- R103's example, and a count set to 0. -/
theorem test_setfreq :
    gives (exec (.setfreq 0x62) { r with data := 3 }) (fun t => t.freq == [(0x62, 3)] && t.total == 3) = true
      ∧ gives (exec (.setfreq 0x61) fq3) (fun t => t.freq == [(0x62, 3), (0x63, 2)] && t.total == 5) = true := by
  decide +kernel

/-- R103: v = 0xFFFFFFFF is accepted only if every other count is 0. -/
theorem test_setfreq_overflow :
    gives (exec (.setfreq 0x61) { fq3 with data := 0xFFFFFFFF }) (fun t => t.err == .freqOverflow && t.total == 7) = true
      ∧ gives (exec (.setfreq 0x61) { r with freq := [(0x61, 9)], total := 9, data := 0xFFFFFFFF })
        (fun t => t.err == .ok && t.total == 0xFFFFFFFF) = true := by decide +kernel

/-- R104's example. -/
theorem test_getfreq : gives (exec (.getfreq 0x62) tab7) (·.res0 == 3) = true := by decide +kernel

/-- R128's example, with T-TB-4's state. -/
theorem test_build : gives (exec .build fq3) (fun t => t == tab7 && t.status == 0x00000302) = true := by decide +kernel

/-- CODE_TOO_LONG with MAXLEN = 1: BUILD keeps the state before it (R128, R142). -/
theorem test_build_too_long :
    gives (exec .build { fq3 with params := { Params.default with maxlen := 1 } })
      (fun t => t.err == .codeTooLong && t.tbs == .idle && t.sticky) = true := by decide +kernel

/-- T-TB-1 and T-TB-2. -/
theorem test_bstep_init_merge :
    gives (exec .bstep fq3) (· == tb1) = true ∧ gives (exec .bstep tb1) (· == tb2) = true := by decide +kernel

/-- T-TB-3 and T-TB-4. -/
theorem test_bstep_merge_assign :
    gives (exec .bstep tb2) (· == tb3) = true ∧ gives (exec .bstep tb3) (· == tab7) = true := by decide +kernel

/-- TNODE 0 after T-TB-1 (a queued leaf), TNODE 3 after T-TB-2 (a queued internal slot). -/
theorem test_tnode_queued :
    gives (exec .tnode tb1) (fun t => t.res0 == 2 && t.res1 == 0xC0000061 && t.res2 == 0) = true
      ∧ gives (exec .tnode { tb2 with data := 3 }) (fun t => t.res0 == 4 && t.res1 == 0x40000000 && t.res2 == 2) = true := by
  decide +kernel

/-- TNODE 4 and TNODE 5 of TAB7. -/
theorem test_tnode_done :
    gives (exec .tnode { tab7 with data := 4 }) (fun t => t.res0 == 7 && t.res1 == 1 && t.res2 == 3) = true
      ∧ gives (exec .tnode { tab7 with data := 5 }) (·.status == 0x000B030A) = true := by decide +kernel

/-- R147's example, and a symbol without a code. -/
theorem test_lookup :
    gives (exec (.lookup 0x61) tab7) (fun t => t.res0 == 2 && t.res1 == 2 && t.res2 == 0) = true
      ∧ gives (exec (.lookup 0x7A) tab7) (·.err == .unknownSymbol) = true := by decide +kernel

/-- T-CT-12, T-CT-13, T-CT-20. -/
theorem test_dlookup :
    gives (exec (.dlookup 2) { tab7 with data := 3 }) (·.res0 == 0x63) = true
      ∧ gives (exec (.dlookup 1) { tab7 with data := 1 }) (·.err == .noMatch) = true
      ∧ gives (exec (.dlookup 1) { tab7 with data := 0xFFFFFFFE }) (·.res0 == 0x62) = true := by decide +kernel

/-- T-CT-17, T-CT-18, T-CT-19. -/
theorem test_dlookup_range :
    gives (exec (.dlookup 0) tab7) (·.err == .range) = true ∧ gives (exec (.dlookup 33) tab7) (·.err == .range) = true
      ∧ gives (exec (.dlookup 0) fq3) (·.err == .codeTableUnavailable) = true := by decide +kernel

/-- T-EN-13: bits appended after a partial decode. -/
theorem test_enc : gives (exec (.enc 0x63) { tab7 with bitbuf := [true, false], brp := 2 })
    (fun t => t.bitbuf == [true, false, true, true] && t.blen == 4 && t.brp == 2) = true := by decide +kernel

/-- T-EN-3 and the last command of T-EN-12. -/
theorem test_enc_errors :
    gives (exec (.enc 0x7A) tab7) (·.status == 0x0006030A) = true
      ∧ gives (exec (.enc 0x62)
          { tab7 with params := { Params.default with maxbits := 4 }, bitbuf := [true, false, true, false] })
        (fun t => t.status == 0x0009030A && t.blen == 4) = true := by decide +kernel

/-- T-DE-1, and the end of T-DE-2. -/
theorem test_dec :
    gives (exec .dec { tab7 with bitbuf := stream7 }) (fun t => t.res0 == 0x61 && t.brp == 2 && !t.eos) = true
      ∧ gives (exec .dec { tab7 with bitbuf := stream7, brp := 11, res0 := 0x63 })
        (fun t => t.status == 0x00000306 && t.res0 == 0x63) = true := by decide +kernel

/-- The end of T-DE-3, T-DE-7, T-DE-10. -/
theorem test_dec_truncated :
    gives (exec .dec { tab7 with bitbuf := stream7.take 10, brp := 9, res0 := 0x63 })
      (fun t => t.status == 0x0007030A && t.brp == 9 && t.res0 == 0x63) = true
      ∧ gives (exec .dec { tabA with bitbuf := [true], eos := true }) (·.status == 0x0007030E) = true
      ∧ gives (exec .dec { tab0 with bitbuf := [false] }) (·.status == 0x0007030A) = true := by decide +kernel

/-- T-BB-1. -/
theorem test_bclr : gives (exec .bclr { r with bitbuf := stream7, brp := 3 }) (fun t => t.blen == 0 && t.brp == 0) = true := by
  decide +kernel

/-- T-BB-3's last bit, T-BB-7. -/
theorem test_bput :
    gives (exec (.bput true) { r with bitbuf := [true, false] }) (fun t => t.bitbuf == [true, false, true] && t.brp == 0) = true
      ∧ gives (exec (.bput true) { r with params := { Params.default with maxbits := 4 }, bitbuf := [true, true, true, true] })
        (fun t => t.err == .bitbufOverflow && t.blen == 4) = true := by decide +kernel

/-- T-BB-4, its first and its last command. -/
theorem test_bget :
    gives (exec .bget { r with bitbuf := [true, false, true] }) (fun t => t.res0 == 1 && t.brp == 1 && !t.eos) = true
      ∧ gives (exec .bget { r with bitbuf := [true, false, true], brp := 3, res0 := 1 })
        (fun t => t.status == 0x00000004 && t.res0 == 1) = true := by decide +kernel

/-- T-BB-5. -/
theorem test_brwd : gives (exec .brwd { r with bitbuf := [true], brp := 1, eos := true }) (fun t => t.brp == 0 && t.eos) = true := by
  decide +kernel

/-- T-PK-22. -/
theorem test_pclr : gives (exec .pclr { r with pbuf := [1, 2], prp := 1 }) (fun t => t.plen == 0 && t.prp == 0) = true := by
  decide +kernel

/-- T-PK-24, T-PK-25. -/
theorem test_pwr :
    gives (exec .pwr { r with data := 0x12345678 }) (·.pbuf == [0x78]) = true
      ∧ gives (exec .pwr { r with params := { Params.default with maxbits := 4 }, pbuf := [0, 0, 0, 3, 0xA0], data := 5 })
        (fun t => t.err == .pbufOverflow && t.plen == 5) = true := by decide +kernel

/-- T-PK-26, its fifth and sixth command. -/
theorem test_prd :
    gives (exec .prd { r with pbuf := [0, 0, 0, 3, 0xA0], prp := 4 }) (fun t => t.res0 == 0xA0 && t.prp == 5) = true
      ∧ gives (exec .prd { r with pbuf := [0, 0, 0, 3, 0xA0], prp := 5, res0 := 0xA0 })
        (fun t => t.eos && t.res0 == 0xA0 && t.prp == 5) = true := by decide +kernel

/-- T-PK-1, T-PK-7, T-PK-9. -/
theorem test_pack :
    gives (exec .pack r) (·.pbuf == [0, 0, 0, 0]) = true
      ∧ gives (exec .pack { r with bitbuf := List.replicate 9 true }) (·.pbuf == [0, 0, 0, 9, 0xFF, 0x80]) = true
      ∧ gives (exec .pack { r with bitbuf := stream7 }) (·.pbuf == [0, 0, 0, 0x0B, 0xA1, 0xE0]) = true := by decide +kernel

/-- T-PK-20, and R198's example. -/
theorem test_unpack :
    gives (exec .unpack { r with pbuf := [0, 0, 0, 3, 0xA0], brp := 7 })
      (fun t => t.bitbuf == [true, false, true] && t.brp == 0 && t.plen == 5) = true
      ∧ gives (exec .unpack { r with pbuf := [0, 0, 0, 0x0B, 0xA1, 0xE0] }) (·.bitbuf == stream7) = true := by decide +kernel

/-- T-PK-11 to T-PK-17 and T-PK-21. -/
theorem test_unpack_corrupt :
    ([[], [0, 0, 0], [0, 0, 0, 8], [0, 0, 0, 0, 0xFF], [0, 0, 0, 3, 0xA0, 0], [0, 0, 0, 3, 0xB0], [0xFF, 0xFF, 0xFF, 0xFF]]
      : List (List Byte)).all (fun p => gives (exec .unpack { r with pbuf := p }) (·.err == .corruptBuffer)) = true
      ∧ gives (exec .unpack { r with params := { Params.default with maxbits := 4 }, pbuf := [0, 0, 0, 5, 0] })
        (·.err == .corruptBuffer) = true := by decide +kernel

/-! ### The handshake -/

/-- T-CL-3 as a step of the engine. -/
theorem test_illegal_step :
    gives (step { tab7 with phase := .command, cmdl := 0xFF000000 }) (fun t => t.status == 0x0001030A) = true := by decide +kernel

/-- T-HS-1, its end: the reset clear, and then STATUS reads 0. -/
theorem test_reset_clear : gives (step State.reset) (fun t => t.status == 0 && !t.busy) = true := by decide +kernel

/-- T-HS-2, the write: DATA keeps its value and OVERRUN is set. -/
theorem test_write_in_clear :
    gives (step { State.reset with pending := [.write .w32 4 5] }) (fun t => t.data == 0 && t.overrun && t.busy) = true := by
  decide +kernel

/-- T-HS-3, the second write: CMDL keeps the first word. -/
theorem test_write_while_busy :
    gives (step { r with phase := .command, cmdl := 0x11000061, pending := [.write .w32 0 0x11000062] })
      (fun t => t.cmdl == 0x11000061 && t.overrun && t.freq == []) = true := by decide +kernel

/-- T-HS-5, T-HS-6, T-HS-8: CMD, ID, CONFIG, MAXBITS and the reserved offsets. -/
theorem test_reads :
    ([(0, 0), (0x44, 0x48554646), (0x3C, 0x00004008), (0x40, 0x00010000), (0x48, 0), (0xFC, 0)] : List (Nat × Word)).all
      (fun e => gives (step { r with pending := [.read .w32 e.1] }) (·.reads == [e.2])) = true := by decide +kernel

/-- T-HS-9, and T-HS-7: a write of STATUS is ignored. -/
theorem test_reads_of_status :
    gives (step { tab7 with pending := [.read .w32 8] }) (·.reads == [0x00000302]) = true
      ∧ gives (step { r with pending := [.write .w32 8 0x12345678] }) (· == r) = true := by decide +kernel

/-- Acceptance (R254): BUSY is set, and the command has no effect yet. -/
theorem test_accept :
    gives (step { r with pending := [.write .w32 0 0x11000061] }) (fun t => t.busy && t.cmdl == 0x11000061 && t.total == 0) = true := by
  decide +kernel

/-- withFetchWord: the very next step performs the command. -/
theorem test_withFetchWord :
    gives (step (State.reset.withFetchWord 32 0x41000001)) (fun t => t.bitbuf == [true] && !t.busy && t.pending == []) = true := by
  decide +kernel

/-- A word that is no command, as the first after reset. -/
theorem test_withFetchWord_illegal :
    gives (step (State.reset.withFetchWord 32 0x41000002)) (fun t => t.err == .illegalCmd && t.sticky) = true := by decide +kernel

/-! ### Witnesses: states and operands that meet the hypotheses of each statement together -/

/-- SYMW = 2, MAXLEN = 3, MAXBITS = 16, BASE = 0x100. -/
def tinyParams : Params := { symw := 2, maxlen := 3, maxbits := 16, base := 256 }

/-- The reset state with these parameters and BUSY = 0. -/
def tiny : State := { r with params := tinyParams }

/-- The counts of "aabbbcc" for the symbols 1, 2, 3. -/
def tinyFq : State := { tiny with freq := [(1, 2), (2, 3), (3, 2)], total := 7 }

def tinyLeaves : List Node := [⟨2, true, 1, 0, 0⟩, ⟨3, true, 2, 0, 0⟩, ⟨2, true, 3, 0, 0⟩]

/-- After INIT: three slots queued. -/
def tinyMerge : State :=
  { tinyFq with tbs := .merge, node := tinyLeaves, inq := [(0, 1), (1, 1), (2, 1)], nsyms := 3 }

/-- Two slots queued: the last merge. -/
def tinyLast : State :=
  { tinyFq with tbs := .merge, node := tinyLeaves ++ [⟨4, false, 0, 0, 2⟩], inq := [(1, 1), (3, 1)], nsyms := 3 }

def tinyAssign : State :=
  { tinyFq with tbs := .assign, node := tinyLeaves ++ [⟨4, false, 0, 0, 2⟩, ⟨7, false, 0, 1, 3⟩], nsyms := 3, root := 4 }

def tinyDone : State := { tinyAssign with tbs := .done, ctlen := [(1, 2), (2, 1), (3, 2)], ctcode := [(1, 2), (3, 3)] }

/-- The only symbol 3, before ASSIGN. -/
def tinyOne : State :=
  { tiny with freq := [(3, 5)], total := 5, tbs := .assign, node := [⟨5, true, 3, 0, 0⟩], nsyms := 1 }

theorem inv_of_counts {s : State} (hp : s.params.wf) (hf : s.freq.wf) (ht : s.total.toNat = freqSum s) (hc : s.phase = .idle)
    (h : { s with params := State.reset.params, freq := [], total := 0, phase := .clearing } = State.reset) : Inv s := by
  obtain ⟨⟩ := s
  simp only [State.reset, State.mk.injEq] at h
  obtain ⟨-, -, -, rfl, rfl, rfl, rfl, rfl, rfl, rfl, rfl, rfl, rfl, rfl, -⟩ := h
  exact inv_of_empty hp hf ht rfl rfl rfl rfl rfl rfl rfl (bufferBounds_nil rfl rfl rfl rfl) fun hh => nomatch hc.symm.trans hh

theorem inv_tiny : Inv tiny := inv_of_counts (by decide) (by decide) (by decide) rfl rfl

theorem inv_tinyFq : Inv tinyFq := inv_of_counts (by decide) (by decide) (by decide) rfl rfl

theorem inv_tinyMerge : Inv tinyMerge :=
  tbStep_inv inv_tinyFq (by decide) (show tbStep tinyFq = .stepped tinyMerge by decide +kernel)

theorem inv_tinyLast : Inv tinyLast :=
  tbStep_inv inv_tinyMerge (by decide) (show tbStep tinyMerge = .stepped tinyLast by decide +kernel)

theorem inv_tinyAssign : Inv tinyAssign :=
  tbStep_inv inv_tinyLast (by decide) (show tbStep tinyLast = .stepped tinyAssign by decide +kernel)

theorem inv_tinyDone : Inv tinyDone :=
  tbStep_inv inv_tinyAssign (by decide) (show tbStep tinyAssign = .stepped tinyDone by decide +kernel)

theorem inv_tinyOne : Inv tinyOne :=
  tbStep_inv (s := { tiny with freq := [(3, 5)], total := 5 }) (inv_of_counts (by decide) (by decide) (by decide) rfl rfl)
    (by decide) (by decide +kernel)

theorem witness_DecodeInvertsEncode :
    Instr.wellFormed (.enc 65535) = true ∧ Instr.wellFormed (.dlookup 255) = true ∧ Instr.wellFormed .nop = true := by decide

theorem witness_EncodeInvertsDecode : decode 0x110000FF = .command (.count 0xFF) := by decide

theorem witness_IllegalEncodings :
    decode { r with cmdl := 0x55000000 }.cmdl = .illegal .unlistedOpc ∧ decode { r with cmdl := 0x20000001 }.cmdl = .illegal .reservedBit := by
  decide

/-- A word of each OPC, for the encoding clauses of the result statements (of NopResult, SoftResetResult,
ClearFrequencyResult and BufferClearResults these are the only hypotheses). -/
theorem witness_opcodes :
    [0x00, 0x01, 0x10, 0x11, 0x12, 0x13, 0x20, 0x21, 0x22, 0x30, 0x31, 0x32, 0x33, 0x40, 0x41, 0x42, 0x43, 0x50, 0x51, 0x52, 0x53, 0x54]
      = opcodeRows.map fun w => (opcField w.pattern).toNat := by decide

/-- The engine's turn with a command latched: the turn is pending, or nothing is. -/
def busyNop : State := { r with phase := .command, cmdl := 0x00000000, pending := [.engineTurn, .resetAssert] }

theorem witness_StepRunsLatchedCommand :
    (busyNop.phase = .command ∧ busyNop.enginesTurn ∧ decode busyNop.cmdl = .command .nop)
      ∧ (∃ s : State, s.phase = .command ∧ s.enginesTurn ∧ s.pending = [] ∧ decode s.cmdl = .illegal .unlistedOpc)
      ∧ (State.reset.enginesTurn ∧ State.reset.phase = .clearing) ∧ (r.enginesTurn ∧ r.phase = .idle)
      ∧ ∃ s : State, s.enginesTurn ∧ s.phase = .inReset :=
  ⟨by decide, ⟨{ r with phase := .command, cmdl := 0xFF000000 }, by decide⟩, by decide, by decide,
    { r with phase := .inReset }, by decide⟩

theorem witness_ReportsOfCommands :
    (∃ t, exec (.count 256) r = .next t ∧ t.err ≠ .ok) ∧ (∃ t, exec .nop r = .next t ∧ t.err = .ok)
      ∧ (∃ t, exec .srst r = .next t ∧ t.err = .ok) ∧ decode { r with cmdl := 0x00FFFFFF }.cmdl = .illegal .reservedBit :=
  ⟨⟨_, rfl, by decide⟩, ⟨_, rfl, rfl⟩, ⟨_, rfl, rfl⟩, by decide⟩

theorem witness_CommandsCompleteWithListedErrors :
    Instr.dec ≠ .bstep ∧ Instr.dec ≠ .build ∧ ∃ t, exec .dec r = .next t ∧ t.err ∈ checksOf .dec :=
  ⟨by decide, by decide, _, rfl, by decide⟩

theorem witness_StickyAndOverrunPersist :
    let s := { busyNop with sticky := true, overrun := true }
    ∃ t, step s = .next t ∧ ¬ s.resets ∧ ¬ s.performs .srst ∧ s.sticky = true ∧ s.overrun = true := by
  refine ⟨_, rfl, ?_, ?_, rfl, rfl⟩
  · unfold State.resets
    decide
  · unfold State.performs
    decide

theorem witness_CountResult :
    (r.freq.wf ∧ r.nsym ≤ 256) ∧ (tab7.freq.wf ∧ 255 < tab7.nsym ∧ tab7.tbs ≠ .idle)
      ∧ (∃ s : State, s.freq.wf ∧ 255 < s.nsym ∧ s.tbs = .idle ∧ s.total.toNat = 2 ^ 32 - 1)
      ∧ ∃ s : State, s.freq.wf ∧ 255 < s.nsym ∧ s.tbs = .idle ∧ s.total.toNat = 2 ^ 32 - 2 :=
  ⟨by decide, by decide, ⟨{ r with freq := [(0, 0xFFFFFFFF)], total := 0xFFFFFFFF }, by decide⟩,
    ⟨{ r with freq := [(0, 0xFFFFFFFE)], total := 0xFFFFFFFE }, by decide⟩⟩

/-- t = 2^32 overflows and t = 2^32 - 1 does not. -/
theorem witness_SetFrequencyResult :
    (fq3.freq.wf ∧ (fq3.freq.read 256).toNat ≤ fq3.total.toNat ∧ fq3.nsym ≤ 256)
      ∧ (tab7.freq.wf ∧ (tab7.freq.read 0x61).toNat ≤ tab7.total.toNat ∧ 0x61 < tab7.nsym ∧ tab7.tbs ≠ .idle)
      ∧ (∃ s : State, s.freq.wf ∧ (s.freq.read 0x61).toNat ≤ s.total.toNat ∧ 0x61 < s.nsym ∧ s.tbs = .idle
          ∧ s.total.toNat - (s.freq.read 0x61).toNat + s.data.toNat = 2 ^ 32)
      ∧ ∃ s : State, s.freq.wf ∧ (s.freq.read 0x61).toNat ≤ s.total.toNat ∧ 0x61 < s.nsym ∧ s.tbs = .idle
          ∧ s.total.toNat - (s.freq.read 0x61).toNat + s.data.toNat = 2 ^ 32 - 1 :=
  ⟨by decide, by decide, ⟨{ fq3 with data := 0xFFFFFFFB }, by decide⟩, ⟨{ fq3 with data := 0xFFFFFFFA }, by decide⟩⟩

theorem witness_GetFrequencyResult : tab7.nsym ≤ 256 ∧ 255 < tab7.nsym := by decide

theorem witness_DoneStepsAreNoOps :
    tab7.tbs = .done ∧ ∃ s t : State, s.tbs = .done ∧ step s = .next t ∧ ¬ s.resets ∧ ¬ s.performs .clrfreq ∧ ¬ s.performs .srst := by
  refine ⟨rfl, { tab7 with phase := .command, cmdl := 0x20000000 }, _, rfl, rfl, ?_, ?_, ?_⟩
  · unfold State.resets
    decide
  · unfold State.performs
    decide
  · unfold State.performs
    decide

/-- Alphabets of 0, 1 and 2 symbols. -/
theorem witness_InitStepResult :
    (r.params.wf ∧ IdleClean r ∧ r.tbs = .idle ∧ r.alphabet.length = 0)
      ∧ (∃ s : State, s.params.wf ∧ IdleClean s ∧ s.tbs = .idle ∧ s.alphabet.length = 1)
      ∧ ∃ s : State, s.params.wf ∧ IdleClean s ∧ s.tbs = .idle ∧ s.alphabet.length = 2 :=
  ⟨⟨by decide, ⟨fun _ => rfl, fun _ => rfl, fun _ => rfl, fun _ => rfl⟩, rfl, by decide +kernel⟩,
    ⟨{ tiny with freq := [(0, 4)], total := 4 }, by decide, ⟨fun _ => rfl, fun _ => rfl, fun _ => rfl, fun _ => rfl⟩, rfl,
      by decide⟩,
    ⟨{ tiny with freq := [(0, 1), (3, 1)], total := 2 }, by decide,
      ⟨fun _ => rfl, fun _ => rfl, fun _ => rfl, fun _ => rfl⟩, rfl, by decide⟩⟩

/-- A queue of three slots, and one of two. -/
theorem witness_MergeStepResult :
    (Inv tinyMerge ∧ tinyMerge.tbs = .merge ∧ 2 < tinyMerge.queue.length)
      ∧ (Inv tinyLast ∧ tinyLast.tbs = .merge ∧ tinyLast.queue.length = 2) :=
  ⟨⟨inv_tinyMerge, rfl, by decide⟩, ⟨inv_tinyLast, rfl, by decide⟩⟩

/-- tinyAssign with another MAXLEN. -/
def tinyAssignOf (maxlen : Nat) : State := { tinyAssign with params := { tinyParams with maxlen := maxlen } }

theorem inv_tinyAssignOf : ∀ m ∈ [1, 4], Inv (tinyAssignOf m) := by
  have steps : ∀ s1 s2 s3 s4 : State, Inv s1 → tbStep s1 = .stepped s2 → tbStep s2 = .stepped s3 → tbStep s3 = .stepped s4 →
      s1.phase ≠ .clearing → s2.phase ≠ .clearing → s3.phase ≠ .clearing → Inv s4 :=
    fun _ _ _ _ h1 h2 h3 h4 p1 p2 p3 => tbStep_inv (tbStep_inv (tbStep_inv h1 p1 h2) p2 h3) p3 h4
  refine List.forall_mem_cons.2 ⟨?_, List.forall_mem_singleton.2 ?_⟩
  · exact steps { tinyFq with params := { tinyParams with maxlen := 1 } } _ _ _
      (inv_of_counts (by decide) (by decide) (by decide) rfl rfl) rfl rfl rfl (by decide) (by decide) (by decide)
  · exact steps { tinyFq with params := { tinyParams with maxlen := 4 } } _ _ _
      (inv_of_counts (by decide) (by decide) (by decide) rfl rfl) rfl rfl rfl (by decide) (by decide) (by decide)

/-- In a tree of five slots no path is longer than 4; with MAXLEN = 1 the path of symbol 1 is too long. -/
theorem witness_AssignStepResult :
    (∃ s : State, Inv s ∧ s.tbs = .assign ∧ s.nsyms ≠ 1 ∧ ∃ sym p, s.pathOf sym p ∧ s.params.maxlen < p.length)
      ∧ (∃ s : State, Inv s ∧ s.tbs = .assign ∧ s.nsyms ≠ 1 ∧ ∀ sym p, s.pathOf sym p → p.length ≤ s.params.maxlen)
      ∧ (Inv tinyOne ∧ tinyOne.tbs = .assign ∧ tinyOne.nsyms = 1
          ∧ ∀ sym p, tinyOne.pathOf sym p → p.length ≤ tinyOne.params.maxlen) := by
  have h1 := inv_tinyAssignOf 1 (by decide)
  have h4 := inv_tinyAssignOf 4 (by decide)
  refine ⟨⟨_, h1, rfl, by decide, 1, [true, false], ⟨0, rfl, _, rfl, rfl, rfl⟩, by decide⟩, ⟨_, h4, rfl, by decide, ?_⟩,
    ⟨inv_tinyOne, rfl, rfl, ?_⟩⟩
  · rintro sym p ⟨i, hw, -⟩
    have := walk_length h4.tree.lower (show (4 : Nat) < 5 by decide) hw
    show p.length ≤ 4
    omega
  · rintro sym p ⟨i, hw, -⟩
    have := walk_length inv_tinyOne.tree.lower (show (0 : Nat) < 1 by decide) hw
    show p.length ≤ 3
    omega

theorem witness_BuildIsRepeatedBstep : Inv tinyFq ∧ ∃ t, exec .build tinyFq = .next t ∧ t.err = .ok := ⟨inv_tinyFq, _, rfl, rfl⟩

/-- An alphabet of MAXLEN + 1 symbols; a tree three BSTEPs away whose paths fit, and one whose longest does not. -/
theorem witness_BuildCompletes :
    (∃ s : State, Inv s ∧ s.alphabet.length = s.params.maxlen + 1)
      ∧ (Inv tinyFq ∧ ∃ u, bsteps 3 tinyFq = .next u ∧ u.tbs = .assign ∧ ∀ sym p, u.pathOf sym p → p.length ≤ 4)
      ∧ (Inv (tinyAssignOf 1) ∧ bsteps 0 (tinyAssignOf 1) = .next (tinyAssignOf 1) ∧ (tinyAssignOf 1).tbs = .assign
        ∧ ∃ sym p, (tinyAssignOf 1).pathOf sym p ∧ (tinyAssignOf 1).params.maxlen < p.length)
      ∧ (Inv (tinyAssignOf 4) ∧ bsteps 0 (tinyAssignOf 4) = .next (tinyAssignOf 4) ∧ (tinyAssignOf 4).tbs = .assign
        ∧ ∀ sym p, (tinyAssignOf 4).pathOf sym p → p.length ≤ (tinyAssignOf 4).params.maxlen) := by
  have short : ∀ s : State, s.node = tinyAssign.node → s.root = 4 → ∀ sym p, s.pathOf sym p → p.length ≤ 4 := by
    rintro s hn hr sym p ⟨i, hw, -⟩
    rw [hn, hr] at hw
    have := walk_length inv_tinyAssign.tree.lower (show (4 : Nat) < 5 by decide) hw
    omega
  exact ⟨⟨{ tinyFq with params := { tinyParams with maxlen := 2 } },
      inv_of_counts (by decide) (by decide) (by decide) rfl rfl, by decide⟩,
    ⟨inv_tinyFq, _, rfl, rfl, short _ rfl rfl⟩,
    ⟨inv_tinyAssignOf 1 (by decide), rfl, rfl, 1, [true, false], ⟨0, rfl, _, rfl, rfl, rfl⟩, by decide⟩,
    inv_tinyAssignOf 4 (by decide), rfl, rfl, short _ rfl rfl⟩

theorem witness_BuildDependsOnFrequenciesAlone :
    ∃ s' : State, Inv tinyFq ∧ Inv s' ∧ tinyFq.tbs = .idle ∧ s'.tbs = .idle ∧ tinyFq.freq = s'.freq
      ∧ tinyFq.params = s'.params ∧ s' ≠ tinyFq ∧ ∃ t t', exec .build tinyFq = .next t ∧ exec .build s' = .next t' :=
  ⟨{ tinyFq with data := 9, bitbuf := [true], sticky := true },
    inv_tinyFq, inv_tinyFq.of_same rfl ⟨rfl, rfl⟩ ⟨rfl, rfl, rfl, rfl, rfl⟩ ⟨rfl, rfl⟩ ⟨by decide, by decide, by decide, by decide⟩ nofun,
    rfl, rfl, rfl, rfl, by decide, _, _, rfl, rfl⟩

/-- DATA = NNODES, and DATA = NNODES - 1 with a leaf and with an internal slot. -/
theorem witness_TreeNodeResult :
    { tab7 with data := 5 }.nnodes ≤ { tab7 with data := 5 }.data.toNat
      ∧ (∃ nd, tab7.node[4]? = some nd ∧ nd.leaf = false ∧ nd.left.toNat < 2 ^ 30) ∧ ∃ nd, tb1.node[2]? = some nd ∧ nd.leaf = true :=
  ⟨by decide, ⟨_, rfl, rfl, by decide⟩, ⟨_, rfl, rfl⟩⟩

theorem witness_LookupResult :
    tab7.nsym ≤ 256 ∧ (255 < fq3.nsym ∧ fq3.tbs ≠ .done) ∧ (255 < tab7.nsym ∧ tab7.tbs = .done ∧ tab7.ctlen.read 255 = 0)
      ∧ (0x62 < tab7.nsym ∧ tab7.tbs = .done ∧ tab7.ctlen.read 0x62 ≠ 0) := by decide

theorem witness_DecodeTableInvertsEncodeTable :
    tinyDone.params.wf ∧ TableComplete tinyDone ∧ tinyDone.tbs = .done ∧ tinyDone.dt [true, false] = some 1 ∧ tinyDone.dt [] = none :=
  ⟨by decide, inv_tinyDone.table, rfl, by decide, by decide⟩

/-- LEN = 0, 33, 1 and 32. -/
theorem witness_DecodeLookupResult :
    fq3.tbs ≠ .done ∧ (tab7.tbs = .done ∧ ((0 : Nat) = 0 ∨ 32 < 0)) ∧ (tab7.tbs = .done ∧ ((33 : Nat) = 0 ∨ 32 < 33))
      ∧ (tab7.tbs = .done ∧ tab7.dt (bitsOf 32 tab7.data.toNat) = none)
      ∧ (tab7.tbs = .done ∧ tab7.dt (bitsOf 1 tab7.data.toNat) = some 0x62) := by decide +kernel

/-- BLEN + n = MAXBITS fits and BLEN + n = MAXBITS + 1 does not. -/
theorem witness_EncodeResult :
    tab7.nsym ≤ 256 ∧ (255 < fq3.nsym ∧ fq3.tbs ≠ .done) ∧ (255 < tab7.nsym ∧ tab7.tbs = .done ∧ tab7.ctlen.read 255 = 0)
      ∧ (∃ s : State, 0x61 < s.nsym ∧ s.tbs = .done ∧ s.ctlen.read 0x61 ≠ 0
          ∧ s.params.maxbits + 1 = s.blen + (s.ctlen.read 0x61).toNat)
      ∧ ∃ s : State, 0x61 < s.nsym ∧ s.tbs = .done ∧ s.ctlen.read 0x61 ≠ 0
          ∧ s.blen + (s.ctlen.read 0x61).toNat = s.params.maxbits :=
  ⟨by decide, by decide, by decide,
    ⟨{ tab7 with params := { Params.default with maxbits := 4 }, bitbuf := [true, true, false] }, by decide⟩,
    ⟨{ tab7 with params := { Params.default with maxbits := 4 }, bitbuf := [true, false] }, by decide⟩⟩

theorem witness_DecodeResult :
    fq3.tbs ≠ .done ∧ (tab7.tbs = .done ∧ tab7.brp.toNat = tab7.blen)
      ∧ ∃ (s : State) (sym : Nat) (rest : Bits), s.params.wf ∧ TableComplete s ∧ BufferBounds s ∧ s.tbs = .done
          ∧ sym < s.nsym ∧ s.ctlen.read sym ≠ 0 ∧ s.bitbuf.drop s.brp.toNat = s.codeOf sym ++ rest :=
  ⟨by decide, by decide, { tinyDone with bitbuf := [false, true, true], brp := 1 }, 3, [], by decide,
    ⟨inv_tinyDone.table.alphabet, inv_tinyDone.table.bound, inv_tinyDone.table.value, inv_tinyDone.table.free⟩,
    ⟨by decide, by decide, by decide, by decide⟩, rfl, by decide, by decide, by decide⟩

theorem witness_TruncatedStreamIsReported :
    let s := { tinyDone with bitbuf := [false, true], brp := 1 }
    s.tbs = .done ∧ s.bitbuf.drop s.brp.toNat ≠ []
      ∧ ∀ sym < s.nsym, s.ctlen.read sym ≠ 0 → ¬ (s.codeOf sym <+: s.bitbuf.drop s.brp.toNat) := by
  refine ⟨rfl, by decide, ?_⟩
  simp only [← List.isPrefixOf_iff_prefix]
  decide

/-- A text whose code fills the bit buffer. -/
theorem witness_EncodingATextConcatenates :
    let s := { tinyDone with params := { tinyParams with maxbits := 5 } }
    s.tbs = .done ∧ (∀ sym ∈ [1, 2, 3], sym < s.nsym ∧ s.ctlen.read sym ≠ 0)
      ∧ s.blen + (s.codesOf [1, 2, 3]).length = s.params.maxbits := by decide

theorem witness_DecodingAStreamReturnsItsText :
    let s := { tinyDone with bitbuf := [true, false, false, true, true] }
    s.params.wf ∧ TableComplete s ∧ BufferBounds s ∧ s.tbs = .done ∧ (∀ sym ∈ [1, 2, 3], sym < s.nsym ∧ s.ctlen.read sym ≠ 0)
      ∧ s.bitbuf.drop s.brp.toNat = s.codesOf [1, 2, 3] :=
  ⟨by decide, ⟨inv_tinyDone.table.alphabet, inv_tinyDone.table.bound, inv_tinyDone.table.value, inv_tinyDone.table.free⟩,
    ⟨by decide, by decide, by decide, by decide⟩, rfl, by decide, by decide⟩

/-- BLEN = MAXBITS and BLEN = MAXBITS - 1; BRP = BLEN and BRP = BLEN - 1. -/
theorem witness_BitPutAndGetResults :
    let full := { tiny with params := { tinyParams with maxbits := 2 }, bitbuf := [true, false], brp := 2 }
    full.blen = full.params.maxbits ∧ full.brp.toNat = full.blen ∧ full.blen < 2 ^ 32
      ∧ (∃ s : State, s.blen + 1 = s.params.maxbits) ∧ ∃ s : State, s.blen < 2 ^ 32 ∧ s.bitbuf[s.brp.toNat]? = some false :=
  ⟨by decide, by decide, by decide, ⟨{ tiny with params := { tinyParams with maxbits := 1 } }, by decide⟩,
    ⟨{ tiny with bitbuf := [true, false], brp := 1 }, by decide⟩⟩

/-- PLEN = PBMAX and PLEN = PBMAX - 1; PRP = PLEN and PRP = PLEN - 1. -/
theorem witness_ByteWriteAndReadResults :
    let full := { tiny with params := { tinyParams with maxbits := 2 }, pbuf := [0, 0, 0, 2, 0x80], prp := 5 }
    full.plen = full.params.pbmax ∧ full.prp.toNat = full.plen ∧ full.plen < 2 ^ 32
      ∧ (∃ s : State, s.plen + 1 = s.params.pbmax) ∧ ∃ s : State, s.plen < 2 ^ 32 ∧ s.pbuf[s.prp.toNat]? = some 0x80 :=
  ⟨by decide, by decide, by decide, ⟨{ tiny with params := { tinyParams with maxbits := 2 }, pbuf := [0, 0, 0, 2] }, by decide⟩,
    ⟨{ tiny with pbuf := [0, 0, 0, 2, 0x80], prp := 4 }, by decide⟩⟩

theorem witness_PackResult :
    { r with bitbuf := stream7 }.blen < 2 ^ 32 ∧ 1 < ({ r with bitbuf := stream7 }.blen + 7) / 8 ∧ 7 < 8 := by decide

theorem witness_PackIsABijection :
    2 ^ 32 - 1 ≤ 2 ^ 32 - 1 ∧ stream7.length ≤ 11 ∧ unpackBytes 11 [0, 0, 0, 0x0B, 0xA1, 0xE0] = some stream7 := by decide +kernel

theorem witness_UnpackResult :
    tiny.params.wf ∧ ([true, false, true].length ≤ tiny.params.maxbits ∧ ([0, 0, 0, 3, 0xA0] : List Byte) = packBits [true, false, true])
      ∧ ∀ b : Bits, b.length ≤ tiny.params.maxbits → tiny.pbuf ≠ packBits b := by
  refine ⟨by decide, by decide, fun b _ h => ?_⟩
  have := congrArg List.length h
  rw [packBits_length] at this
  change 0 = _ at this
  omega

/-- The hypotheses of ReadCommandsFrame, FrequencyWritesFrame, TreeStepsFrame and BufferWritesFrame: every command they name
answers a next state somewhere. -/
theorem witness_frames :
    [Instr.nop, .tnode, .getfreq 1, .lookup 1, .dlookup 2, .dec, .bget, .prd, .bclr, .brwd, .pclr, .pwr, .pack, .unpack, .bput true,
      .enc 1].all (fun i => gives (exec i tinyDone) fun _ => true) = true
      ∧ [Instr.count 3, .setfreq 0, .bstep, .build].all (fun i => gives (exec i tinyFq) fun _ => true) = true := by decide +kernel

theorem witness_FrequencyTableWriters :
    ∃ s t : State, step s = .next t ∧ t.freq ≠ s.freq :=
  ⟨{ r with phase := .command, cmdl := 0x11000061 }, _, rfl, by decide⟩

theorem witness_BuilderStateWriters :
    ∃ s t : State, step s = .next t ∧ t.tbs ≠ s.tbs :=
  ⟨{ tinyMerge with phase := .command, cmdl := 0x20000000 }, _, rfl, by decide⟩

theorem witness_CodeTableIsReadOnly :
    ∃ s t : State, step s = .next t ∧ ¬ SameCodeTable s t :=
  ⟨{ tinyAssign with phase := .command, cmdl := 0x21000000 }, _, rfl, fun h => absurd h.ctlen (by decide)⟩

theorem witness_DataIsTheHosts :
    ∃ s t : State, step s = .next t ∧ t.data ≠ s.data :=
  ⟨{ r with pending := [.write .w32 4 5] }, _, rfl, by decide⟩

/-- The first and the last register, and the last reserved offset. -/
theorem witness_RegisterReads :
    ∀ off ∈ [0x00, 0x44, 0x48, 0xFC], ∃ s : State, s.phase = .idle ∧ off % 4 = 0 ∧ off < 256
      ∧ s.pending = .read .w32 (s.params.base + off) :: [] ∧ s.params.wf :=
  fun off h => ⟨{ tiny with pending := [.read .w32 (256 + off)] }, rfl, by revert off; decide, by revert off; decide, rfl,
    show tinyParams.wf by decide⟩

theorem witness_ReadsHaveNoSideEffects :
    (∃ t, hostRead .w32 8 State.reset = .next t) ∧ ∃ t, hostRead .w32 0xFC r = .next t := ⟨⟨_, rfl⟩, ⟨_, rfl⟩⟩

/-- The registers where the clauses meet, and the last reserved offset, in both phases. -/
theorem witness_ReadsWhileBusy :
    ∀ ph ∈ [Phase.command, .clearing], ∀ off ∈ [0x00, 0x04, 0x08, 0x0C, 0x38, 0x3C, 0x40, 0x44, 0x48, 0xFC],
      ∃ s : State, s.phase = ph ∧ off % 4 = 0 ∧ off < 256 ∧ s.pending = .read .w32 (s.params.base + off) :: [] :=
  fun ph _ off h =>
    ⟨{ tiny with phase := ph, pending := [.read .w32 (256 + off)] }, rfl, by revert off; decide, by revert off; decide, rfl⟩

theorem witness_InvalidAccessesAreRefused :
    (∃ s : State, s.pending = [.read .w32 (s.params.base + 255)] ∧ s.phase = .inReset)
      ∧ (∃ s : State, s.pending = [.write .w8 (s.params.base + 0) 5] ∧ s.phase ≠ .inReset ∧ Width.w8 ≠ .w32)
      ∧ ∃ s : State, s.pending = [.read .w32 (s.params.base + 255)] ∧ s.phase ≠ .inReset ∧ 255 % 4 ≠ 0 :=
  ⟨⟨{ tiny with phase := .inReset, pending := [.read .w32 511] }, by decide⟩,
    ⟨{ tiny with pending := [.write .w8 256 5] }, by decide⟩, ⟨{ tiny with pending := [.read .w32 511] }, by decide⟩⟩

theorem witness_WritesWhileIdle :
    ∀ off ∈ [0x00, 0x04, 0x08, 0xFC], ∃ s : State, s.phase = .idle ∧ off % 4 = 0 ∧ off < 256
      ∧ s.pending = .write .w32 (s.params.base + off) 7 :: [.engineTurn] :=
  fun off h => ⟨{ tiny with pending := [.write .w32 (256 + off) 7, .engineTurn] }, rfl, by revert off; decide, by revert off; decide, rfl⟩

theorem witness_WritesWhileBusy :
    ∀ ph ∈ [Phase.command, .clearing], ∀ off ∈ [0x00, 0x04, 0x08, 0xFC], ∃ s : State, s.phase = ph ∧ off % 4 = 0 ∧ off < 256
      ∧ s.pending = .write .w32 (s.params.base + off) 7 :: [.engineTurn] :=
  fun ph _ off h =>
    ⟨{ tiny with phase := ph, pending := [.write .w32 (256 + off) 7, .engineTurn] }, rfl, by revert off; decide,
      by revert off; decide, rfl⟩

/-- A command in progress when reset is asserted, and a release with the input asserted and not. -/
theorem witness_ResetSequence_events :
    (∃ s : State, s.phase = .command ∧ s.pending = .resetAssert :: [.resetRelease])
      ∧ (∃ s : State, s.phase = .inReset ∧ s.pending = .resetRelease :: [.engineTurn])
      ∧ ∃ s : State, s.phase ≠ .inReset ∧ s.pending = .resetRelease :: [] :=
  ⟨⟨{ r with phase := .command, pending := [.resetAssert, .resetRelease] }, by decide⟩,
    ⟨{ r with phase := .inReset, pending := [.resetRelease, .engineTurn] }, by decide⟩,
    { r with pending := [.resetRelease] }, by decide⟩

/-- A write of CMD during the clear, and none. -/
theorem witness_ResetSequence :
    (∃ (s : State) (during : List Event), s.params.wf ∧ s.phase = .inReset ∧ (∀ e ∈ during, isAccess s.params e)
        ∧ s.pending = [.resetRelease] ++ during ++ [.engineTurn] ∧ ∃ e ∈ during, writesOperand s.params e)
      ∧ ∃ (s : State) (during : List Event), s.params.wf ∧ s.phase = .inReset ∧ (∀ e ∈ during, isAccess s.params e)
        ∧ s.pending = [.resetRelease] ++ during ++ [.engineTurn] ∧ ∀ e ∈ during, ¬ writesOperand s.params e := by
  refine ⟨⟨{ tinyDone with phase := .inReset, pending := [.resetRelease, .write .w32 256 5, .engineTurn] }, [.write .w32 256 5],
      by decide, rfl, ?_, rfl, _, List.mem_singleton.2 rfl, .cmd, 5, .inl rfl, rfl⟩,
    ⟨{ tinyDone with phase := .inReset, pending := [.resetRelease, .read .w32 264, .engineTurn] }, [.read .w32 264],
      by decide, rfl, ?_, rfl, ?_⟩⟩
  · intro e he
    rw [List.mem_singleton.1 he]
    exact .inr ⟨0, by decide, 5, rfl⟩
  · intro e he
    rw [List.mem_singleton.1 he]
    exact .inl ⟨2, by decide, rfl⟩
  · intro e he
    rw [List.mem_singleton.1 he]
    rintro ⟨x, v, -, h⟩
    cases h

theorem witness_BusyEnds :
    (∃ s : State, Inv s ∧ s.phase = .command ∧ ∀ e ∈ s.pending, onlyWaits s.params e)
      ∧ ∃ s : State, Inv s ∧ s.phase = .clearing ∧ ∀ e ∈ s.pending, onlyWaits s.params e := by
  refine ⟨⟨{ tinyMerge with phase := .command, cmdl := 0x20000000, pending := [.read .w32 264, .engineTurn] }, ?_, rfl, ?_⟩,
    ⟨{ tiny with phase := .clearing, pending := [.read .w32 264] }, ?_, rfl, ?_⟩⟩
  · exact inv_tinyMerge.of_same rfl ⟨rfl, rfl⟩ ⟨rfl, rfl, rfl, rfl, rfl⟩ ⟨rfl, rfl⟩
      ⟨inv_tinyMerge.bounds.brp, inv_tinyMerge.bounds.blen, inv_tinyMerge.bounds.prp, inv_tinyMerge.bounds.plen⟩ nofun
  · intro e he
    rcases List.mem_cons.1 he with rfl | he
    · exact .inr ⟨2, by decide, rfl⟩
    · exact .inl (List.mem_singleton.1 he)
  · exact inv_of_empty (by decide) (by decide) (by decide) rfl rfl rfl rfl rfl rfl rfl (bufferBounds_nil rfl rfl rfl rfl)
      fun _ => ⟨rfl, rfl⟩
  · intro e he
    rw [List.mem_singleton.1 he]
    exact .inr ⟨2, by decide, rfl⟩

/-- NOP written to CMD and polled until BUSY = 0, two reads of STATUS finding BUSY = 1. -/
def polledNop : State := { tiny with pending := writeEvent tinyParams .cmd 0 :: waitEvents tinyParams 2 }

theorem inv_polledNop : Inv polledNop :=
  inv_tiny.of_same rfl ⟨rfl, rfl⟩ ⟨rfl, rfl, rfl, rfl, rfl⟩ ⟨rfl, rfl⟩
    ⟨inv_tiny.bounds.brp, inv_tiny.bounds.blen, inv_tiny.bounds.prp, inv_tiny.bounds.plen⟩ nofun

/-- A run that ends (R264), the reset input not used, and one that has ended its operations without a STATUS read. -/
theorem witness_BusyEnds_runs :
    (Inv polledNop ∧ polledNop.phase = .idle ∧ (∀ e ∈ polledNop.pending, ¬ isReset e) ∧ ∃ t, polledNop.runEnds 5 t)
      ∧ ∃ s t : State, Sys2Proof.core.run 1 s = .next t ∧ t.pending = [] ∧ t.busy = false ∧ ¬ s.runEnds 1 t := by
  refine ⟨⟨inv_polledNop, rfl, by decide, _, rfl, rfl, 4, by decide, _, rfl, rfl, rfl, nofun⟩,
    { tiny with pending := [.engineTurn] }, _, rfl, rfl, rfl, ?_⟩
  rintro ⟨-, -, k, hk, u, hu, hl⟩
  obtain rfl : k = 0 := by omega
  cases hu
  exact absurd hl.next (by decide)

theorem witness_HazardFreeHostLosesNothing :
    (∃ t, respectsHazards tiny (writeEvent tiny.params .data 5) ∧ takeEvent (writeEvent tiny.params .data 5) tiny = .next t)
      ∧ (∃ t, respectsHazards tiny (writeEvent tiny.params .cmd 0) ∧ takeEvent (writeEvent tiny.params .cmd 0) tiny = .next t)
      ∧ (∃ t, respectsHazards tiny (.read .w32 0x10C) ∧ takeEvent (.read .w32 0x10C) tiny = .next t)
      ∧ ∃ t, respectsHazards State.reset (.read .w32 8) ∧ takeEvent (.read .w32 8) State.reset = .next t :=
  ⟨⟨_, rfl, rfl⟩, ⟨_, rfl, rfl⟩, ⟨_, .inl rfl, rfl⟩, ⟨_, .inr rfl, rfl⟩⟩

theorem witness_StepKeepsInvariant :
    ∃ s t : State, Inv s ∧ step s = .next t ∧ s.tbs = .merge ∧ t.tbs = .done :=
  ⟨{ tinyMerge with phase := .command, cmdl := 0x20000000 }, _,
    inv_tinyMerge.of_same rfl ⟨rfl, rfl⟩ ⟨rfl, rfl, rfl, rfl, rfl⟩ ⟨rfl, rfl⟩
      ⟨inv_tinyMerge.bounds.brp, inv_tinyMerge.bounds.blen, inv_tinyMerge.bounds.prp, inv_tinyMerge.bounds.plen⟩ nofun,
    rfl, rfl, rfl⟩

theorem witness_StepKeepsCanonicalMemories :
    ∃ s t : State, MemoriesCanonical s ∧ step s = .next t ∧ t.freq ≠ s.freq :=
  ⟨{ fq3 with phase := .command, cmdl := 0x11000000 }, _, ⟨by decide, by decide, by decide, by decide⟩, rfl, by decide⟩

/-- BLEN = MAXBITS after the step. -/
theorem witness_StepKeepsBufferBounds :
    ∃ s t : State, s.params.wf ∧ BufferBounds s ∧ step s = .next t ∧ t.blen = t.params.maxbits :=
  ⟨{ tiny with params := { tinyParams with maxbits := 1 }, phase := .command, cmdl := 0x41000001 }, _, by decide,
    ⟨by decide, by decide, by decide, by decide⟩, rfl, by decide⟩

theorem witness_StepFaultsOnlyOutsideWindow :
    ∃ (s : State) (f : Fault), Inv s ∧ step s = .fault f :=
  ⟨{ tiny with pending := [.read .w32 512] }, .outsideWindow,
    inv_tiny.of_same rfl ⟨rfl, rfl⟩ ⟨rfl, rfl, rfl, rfl, rfl⟩ ⟨rfl, rfl⟩
      ⟨inv_tiny.bounds.brp, inv_tiny.bounds.blen, inv_tiny.bounds.prp, inv_tiny.bounds.plen⟩ nofun,
    rfl⟩

end Sys2Proof.Tests
end

/-! ## What a command writes

Every command belongs to a family, and the commands of one family write the same elements of R20. The statements about a
single element of the state are read off the family. -/

namespace Sys2Proof

/-- What a command writes where it succeeds, beside STATUS.ERR (R223). -/
inductive Family where
  /-- NOP. -/
  | nothing
  /-- SRST: every element of R46. -/
  | softReset
  /-- CLRFREQ: FREQ and TOTAL, the tree and the code table. -/
  | clear
  /-- COUNT and SETFREQ: FREQ and TOTAL. -/
  | counts
  /-- BUILD and BSTEP: the tree and the code table. -/
  | tree
  /-- GETFREQ and DLOOKUP: RES0. -/
  | result
  /-- TNODE and LOOKUP: RES0, RES1 and RES2. -/
  | results
  /-- DEC and BGET: RES0, BRP and EOS. -/
  | readBits
  /-- PRD: RES0, PRP and EOS. -/
  | readByte
  /-- ENC, BCLR, BPUT, BRWD and UNPACK: BITBUF and BRP. -/
  | writeBits
  /-- PCLR, PWR and PACK: PBUF and PRP. -/
  | writeBytes

/-- The family of a command. -/
def Instr.family : Instr → Family
  | .nop => .nothing
  | .srst => .softReset
  | .clrfreq => .clear
  | .count _ => .counts
  | .setfreq _ => .counts
  | .getfreq _ => .result
  | .build => .tree
  | .bstep => .tree
  | .tnode => .results
  | .lookup _ => .results
  | .dlookup _ => .result
  | .enc _ => .writeBits
  | .dec => .readBits
  | .bclr => .writeBits
  | .bput _ => .writeBits
  | .bget => .readBits
  | .brwd => .writeBits
  | .pclr => .writeBytes
  | .pwr => .writeBytes
  | .prd => .readByte
  | .pack => .writeBytes
  | .unpack => .writeBits

/-- Whether a family writes BITBUF, PBUF or a read position. -/
def Family.writesBuffer : Family → Bool
  | .nothing => false
  | .softReset => true
  | .clear => false
  | .counts => false
  | .tree => false
  | .result => false
  | .results => false
  | .readBits => true
  | .readByte => true
  | .writeBits => true
  | .writeBytes => true

theorem Instr.eq_srst {i : Instr} (h : i.family = .softReset) : i = .srst := by
  cases i <;> simp_all [Instr.family]

theorem Instr.eq_clrfreq {i : Instr} (h : i.family = .clear) : i = .clrfreq := by
  cases i <;> simp_all [Instr.family]

theorem Instr.eq_count_or_setfreq {i : Instr} (h : i.family = .counts) : ∃ sym, i = .count sym ∨ i = .setfreq sym := by
  cases i <;> simp_all [Instr.family]

theorem Instr.eq_bstep_or_build {i : Instr} (h : i.family = .tree) : i = .bstep ∨ i = .build := by
  cases i <;> simp_all [Instr.family]

end Sys2Proof

namespace Sys2Proof.Machine

/-- What a command of a family does to the state, where its meaning answers one. -/
inductive Effect (s : State) : Family → State → Prop where
  | report {f : Family} (e : Err) : Effect s f (s.reportErr e)
  | nothing : Effect s .nothing s.reportOk
  | softReset : Effect s .softReset s.resetValues.reportOk
  | clear : Effect s .clear (State.reportOk { s with
      freq := [], ctlen := [], ctcode := [], inq := []
      total := 0, node := [], nsyms := 0, root := 0, tbs := .idle })
  | counts (idle : s.tbs = .idle) (m : Memory 32) (n : Word) :
      Effect s .counts (State.reportOk { s with freq := m, total := n })
  | tree (u : State) (frame : StepFrame s u) (kept : s.tbs = .done → u = s)
      (codes : SameCodeTable s u ∨ u.tbs = .done) : Effect s .tree u.reportOk
  | result (x : Word) : Effect s .result (State.reportOk { s with res0 := x })
  | results (x y z : Word) : Effect s .results (State.reportOk { s with res0 := x, res1 := y, res2 := z })
  | readBits (x p : Word) (e : Bool) : Effect s .readBits (State.reportOk { s with res0 := x, brp := p, eos := e })
  | readByte (x p : Word) (e : Bool) : Effect s .readByte (State.reportOk { s with res0 := x, prp := p, eos := e })
  | writeBits (b : Bits) (p : Word) : Effect s .writeBits (State.reportOk { s with bitbuf := b, brp := p })
  | writeBytes (b : List Byte) (p : Word) : Effect s .writeBytes (State.reportOk { s with pbuf := b, prp := p })

/-! ### The tree builder and the code table -/

theorem stepInit_codes (s : State) : SameCodeTable s (stepInit s) := by
  unfold stepInit
  simp only
  split_ifs <;> exact ⟨rfl, rfl⟩

theorem stepMerge_codes {s t : State} (h : stepMerge s = .stepped t) : SameCodeTable s t := by
  obtain ⟨a, b, s1, s2, h1, h2, rfl⟩ := stepMerge_stepped h
  obtain ⟨-, -, -, rfl, -⟩ := extract_some h1
  obtain ⟨-, -, -, rfl, -⟩ := extract_some h2
  unfold insertParent
  simp only
  split_ifs <;> exact ⟨rfl, rfl⟩

/-- Only the ASSIGN step writes the code table, and it ends in DONE (R29). -/
theorem tbStep_codes {s t : State} (h : tbStep s = .stepped t) : SameCodeTable s t ∨ t.tbs = .done := by
  rcases tbStep_stepped h with ⟨-, rfl⟩ | ⟨-, h⟩ | ⟨-, h⟩ | ⟨-, rfl⟩
  · exact .inl (stepInit_codes s)
  · exact .inl (stepMerge_codes h)
  · obtain ⟨codes, -, -, rfl⟩ := stepAssign_stepped h
    exact .inr rfl
  · exact .inl ⟨rfl, rfl⟩

/-- In DONE a step of the tree builder is a no-op (R126). -/
theorem tbStep_of_done {s : State} (h : s.tbs = .done) : tbStep s = .stepped s := by
  unfold tbStep
  rw [h]

theorem runToDone_of_done {s : State} (h : s.tbs = .done) (n : Nat) : runToDone n s = .stepped s := by
  cases n <;> rw [runToDone, if_pos h]

theorem execBstep_effect {s t : State} (h : execBstep s = .next t) : Effect s .tree t := by
  rcases execBstep_next h with ⟨u, hu, rfl⟩ | ⟨-, rfl⟩
  · refine .tree u (tbStep_frame hu) (fun hd => ?_) (tbStep_codes hu)
    rw [tbStep_of_done hd] at hu
    cases hu
    rfl
  · exact .report _

theorem execBuild_effect {s t : State} (h : execBuild s = .next t) : Effect s .tree t := by
  rcases execBuild_next h with ⟨u, hu, rfl⟩ | ⟨-, rfl⟩
  · obtain ⟨hf, hd⟩ := runToDone_induction (P := StepFrame s) (fun _ _ hs ht => hs.trans (tbStep_frame ht))
      (StepFrame.refl s) hu
    refine .tree u hf (fun hs => ?_) (.inr hd)
    rw [runToDone_of_done hs] at hu
    cases hu
    rfl
  · exact .report _

/-! ### Every command -/

/-- What a command does, by its family. -/
theorem exec_effect {i : Instr} {s t : State} (h : exec i s = .next t) : Effect s i.family t := by
  cases i with
  | nop =>
    cases execNop_next h
    exact .nothing
  | srst =>
    cases execSrst_next h
    exact .softReset
  | clrfreq =>
    cases execClrfreq_next h
    exact .clear
  | count sym =>
    rcases execCount_next h with ⟨-, rfl⟩ | ⟨-, -, rfl⟩ | ⟨-, -, -, rfl⟩ | ⟨-, hs, -, rfl⟩
    iterate 3 exact .report _
    exact .counts hs _ _
  | setfreq sym =>
    rcases execSetfreq_next h with ⟨-, rfl⟩ | ⟨-, -, rfl⟩ | ⟨-, -, -, rfl⟩ | ⟨-, hs, -, rfl⟩
    iterate 3 exact .report _
    exact .counts hs _ _
  | getfreq sym =>
    rcases execGetfreq_next h with ⟨-, rfl⟩ | ⟨-, rfl⟩
    · exact .report _
    · exact .result _
  | build => exact execBuild_effect h
  | bstep => exact execBstep_effect h
  | tnode =>
    rcases execTnode_next h with ⟨-, rfl⟩ | ⟨nd, -, rfl⟩
    · exact .report _
    · exact .results _ _ _
  | lookup sym =>
    rcases execLookup_next h with ⟨-, rfl⟩ | ⟨-, -, rfl⟩ | ⟨-, -, -, rfl⟩ | ⟨-, -, -, rfl⟩
    iterate 3 exact .report _
    exact .results _ _ _
  | dlookup len =>
    rcases execDlookup_next h with ⟨-, rfl⟩ | ⟨-, -, rfl⟩ | ⟨-, -, -, rfl⟩ | ⟨-, -, sym, -, rfl⟩
    iterate 3 exact .report _
    exact .result _
  | enc sym =>
    rcases execEnc_next h with ⟨-, rfl⟩ | ⟨-, -, rfl⟩ | ⟨-, -, -, rfl⟩ | ⟨-, -, -, -, rfl⟩ | ⟨-, -, -, -, rfl⟩
    iterate 4 exact .report _
    exact .writeBits _ s.brp
  | dec =>
    rcases execDec_next h with ⟨-, rfl⟩ | ⟨-, -, rfl⟩ | ⟨-, -, rfl⟩ | ⟨-, sym, n, -, rfl⟩
    · exact .report _
    · exact .readBits s.res0 s.brp true
    · exact .report _
    · exact .readBits _ _ false
  | bclr =>
    cases execBclr_next h
    exact .writeBits [] 0
  | bput bit =>
    rcases execBput_next h with ⟨-, rfl⟩ | ⟨-, rfl⟩
    · exact .report _
    · exact .writeBits _ s.brp
  | bget =>
    rcases execBget_next h with ⟨-, rfl⟩ | ⟨b, -, rfl⟩
    · exact .readBits s.res0 s.brp true
    · exact .readBits _ _ false
  | brwd =>
    cases execBrwd_next h
    exact .writeBits s.bitbuf 0
  | pclr =>
    cases execPclr_next h
    exact .writeBytes [] 0
  | pwr =>
    rcases execPwr_next h with ⟨-, rfl⟩ | ⟨-, rfl⟩
    · exact .report _
    · exact .writeBytes _ s.prp
  | prd =>
    rcases execPrd_next h with ⟨-, rfl⟩ | ⟨x, -, rfl⟩
    · exact .readByte s.res0 s.prp true
    · exact .readByte _ _ false
  | pack =>
    cases execPack_next h
    exact .writeBytes _ 0
  | unpack =>
    rcases execUnpack_next h with ⟨-, rfl⟩ | ⟨b, -, rfl⟩
    · exact .report _
    · exact .writeBits b 0

/-! ### What the families leave alone -/

section
variable {s t : State} {f : Family}

/-- No command writes the parameters. -/
theorem Effect.params (h : Effect s f t) : t.params = s.params := by
  cases h with
  | tree u frame => exact frame.interface.params
  | _ => rfl

/-- Every command but SRST leaves the interface alone (R35, R41). -/
theorem Effect.sameInterface (h : Effect s f t) (hf : f ≠ .softReset) : SameInterface s t := by
  cases h with
  | softReset => exact absurd rfl hf
  | tree u frame =>
    obtain ⟨h1, h2, h3, h4, h5, h6, h7, h8⟩ := frame.interface
    exact ⟨h1, h2, h3, h4, h5, h6, h7, h8⟩
  | _ => exact ⟨rfl, rfl, rfl, rfl, rfl, rfl, rfl, rfl⟩

/-- Every command whose family writes no buffer and no read position leaves both buffers alone. -/
theorem Effect.sameBuffers (h : Effect s f t) (hf : f.writesBuffer = false) : SameBits s t ∧ SamePacked s t := by
  cases h with
  | softReset | readBits | readByte | writeBits | writeBytes => cases hf
  | tree u frame => exact ⟨⟨frame.bits.bitbuf, frame.bits.brp⟩, ⟨frame.packed.pbuf, frame.packed.prp⟩⟩
  | _ => exact ⟨⟨rfl, rfl⟩, ⟨rfl, rfl⟩⟩

end

/-! ## What a step changes -/

/-- What a step that is no reset and performs no command leaves alone: the parameters, both tables, the tree and both
buffers. -/
structure ContentsKept (s t : State) : Prop where
  params : t.params = s.params
  freq : SameFrequency s t
  tree : SameTree s t
  codes : SameCodeTable s t
  bits : SameBits s t
  packed : SamePacked s t

/-- DATA, the handshake, the reports and the model's own fields are no part of the contents. -/
theorem ContentsKept.of_interface (s : State) (data : Word) (phase : Phase) (sticky overrun : Bool) (err : Err) (cmdl : Word)
    (pending : List Event) (reads : List Word) (draw : Nat) :
    ContentsKept s { s with
      data := data, phase := phase, sticky := sticky, overrun := overrun, err := err, cmdl := cmdl
      pending := pending, reads := reads, draw := draw } :=
  ⟨rfl, ⟨rfl, rfl⟩, ⟨rfl, rfl, rfl, rfl, rfl⟩, ⟨rfl, rfl⟩, ⟨rfl, rfl⟩, ⟨rfl, rfl⟩⟩

/-- DATA is unchanged, or the step is the host's write of its new value with BUSY = 0 (R67). -/
def DataKeptOrWritten (s t : State) : Prop :=
  t.data = s.data ∨ (s.busy = false ∧ s.pending.head? = some (writeEvent s.params .data t.data))

/-- The state the engine performs the latched command in (R255). -/
def State.performing (s : State) : State := s.afterEvent.completeCommand

theorem windowRead_kept (s : State) (off : Nat) :
    ContentsKept s (windowRead s.afterEvent off) ∧ (windowRead s.afterEvent off).data = s.data := by
  obtain ⟨v, d, hw, -⟩ := windowRead_eq s.afterEvent off
  rw [hw]
  exact ⟨.of_interface .., rfl⟩

theorem windowWrite_kept {s : State} {off : Nat} {v : Word}
    (hp : s.pending.head? = some (.write .w32 (s.params.base + off) v)) :
    ContentsKept s (windowWrite s.afterEvent off v) ∧ DataKeptOrWritten s (windowWrite s.afterEvent off v) := by
  rcases windowWrite_cases s.afterEvent off v with ⟨-, -, hw⟩ | ⟨rfl, hb, hw⟩ | ⟨-, -, hw⟩ | ⟨-, -, hw⟩ <;> rw [hw]
  · exact ⟨.of_interface .., .inl rfl⟩
  · exact ⟨.of_interface .., .inr ⟨hb, hp⟩⟩
  · exact ⟨.of_interface .., .inl rfl⟩
  · exact ⟨.of_interface .., .inl rfl⟩

/-- A step performs a command, is a reset, or leaves the contents alone. -/
theorem step_cases {s t : State} (h : step s = .next t) :
    (∃ i, s.performs i ∧ exec i s.performing = .next t)
    ∨ (s.resets ∧ (t = s.afterEvent.completeClear ∨ t = { s.afterEvent.resetValues with phase := .clearing }))
    ∨ (ContentsKept s t ∧ DataKeptOrWritten s t) := by
  rcases step_next h with ⟨he, h⟩ | ⟨off, -, -, -, -, rfl⟩ | ⟨off, v, -, -, -, hp, rfl⟩ | ⟨-, rfl⟩ | ⟨hp, rfl⟩
  · rcases engineTurn_next h with ⟨i, hph, hd, hx⟩ | ⟨why, -, -, rfl⟩ | ⟨hph, rfl⟩ | ⟨-, rfl⟩
    · exact .inl ⟨i, ⟨he, hph, hd⟩, hx⟩
    · exact .inr (.inr ⟨.of_interface .., .inl rfl⟩)
    · exact .inr (.inl ⟨.inr ⟨hph, he⟩, .inl rfl⟩)
    · exact .inr (.inr ⟨.of_interface .., .inl rfl⟩)
  · exact .inr (.inr ((windowRead_kept s off).imp_right .inl))
  · exact .inr (.inr (windowWrite_kept hp))
  · exact .inr (.inr ⟨.of_interface .., .inl rfl⟩)
  · unfold releaseReset
    split_ifs with hph
    · exact .inr (.inl ⟨.inl ⟨hph, hp⟩, .inr rfl⟩)
    · exact .inr (.inr ⟨.of_interface .., .inl rfl⟩)

/-- A step that changes the contents is a reset, or performs a command, whose effect it has. -/
theorem step_changes {s t : State} (h : step s = .next t) (hc : ¬ ContentsKept s t) :
    s.resets ∨ ∃ i, s.performs i ∧ Effect s.performing i.family t := by
  rcases step_cases h with ⟨i, hp, hx⟩ | ⟨hr, -⟩ | ⟨hk, -⟩
  · exact .inr ⟨i, hp, exec_effect hx⟩
  · exact .inl hr
  · exact absurd hk hc

theorem performs_count_or_setfreq {s : State} {i : Instr} (hp : s.performs i) (hf : i.family = .counts) :
    ∃ sym, s.performs (.count sym) ∨ s.performs (.setfreq sym) := by
  obtain ⟨sym, rfl | rfl⟩ := Instr.eq_count_or_setfreq hf
  · exact ⟨sym, .inl hp⟩
  · exact ⟨sym, .inr hp⟩

theorem performs_bstep_or_build {s : State} {i : Instr} (hp : s.performs i) (hf : i.family = .tree) :
    s.performs .bstep ∨ s.performs .build := by
  obtain rfl | rfl := Instr.eq_bstep_or_build hf
  · exact .inl hp
  · exact .inr hp

/-! ## The writers of single elements -/

/-- Settles O42: of the effects a command can have, only those of CLRFREQ, SRST, COUNT and SETFREQ write FREQ. -/
theorem frequencyTableWriters : Obligations.FrequencyTableWriters := by
  intro s t h hne
  rcases step_changes h fun hk => hne hk.freq.freq with hr | ⟨i, hp, he⟩
  · exact .inl hr
  generalize hf : i.family = f at he
  cases he with
  | softReset => exact .inr (.inr (.inl (Instr.eq_srst hf ▸ hp)))
  | clear => exact .inr (.inl (Instr.eq_clrfreq hf ▸ hp))
  | counts idle =>
    obtain ⟨sym, hi⟩ := performs_count_or_setfreq hp hf
    exact .inr (.inr (.inr ⟨sym, hi, idle⟩))
  | tree u frame => exact absurd frame.freq.freq hne
  | _ => exact absurd rfl hne

/-- Settles O43: of the effects a command can have, only those of CLRFREQ, SRST, BSTEP and BUILD write TBS, and BSTEP and
BUILD are no-ops in DONE. -/
theorem builderStateWriters : Obligations.BuilderStateWriters := by
  intro s t h hne
  rcases step_changes h fun hk => hne hk.tree.tbs with hr | ⟨i, hp, he⟩
  · exact .inl hr
  generalize hf : i.family = f at he
  cases he with
  | softReset => exact .inr (.inr (.inl (Instr.eq_srst hf ▸ hp)))
  | clear => exact .inr (.inl (Instr.eq_clrfreq hf ▸ hp))
  | tree u frame kept =>
    have hd : s.tbs ≠ .done := fun hd =>
      hne (show u.tbs = s.tbs by rw [kept hd]; rfl)
    exact .inr (.inr (.inr ⟨performs_bstep_or_build hp hf, hd⟩))
  | _ => exact absurd rfl hne

/-- Settles O44: BSTEP and BUILD are no-ops in DONE, and where they write the code table they end in DONE. -/
theorem codeTableIsReadOnly : Obligations.CodeTableIsReadOnly := by
  intro s t h hne
  rcases step_changes h fun hk => hne hk.codes with hr | ⟨i, hp, he⟩
  · exact .inl hr
  generalize hf : i.family = f at he
  cases he with
  | softReset => exact .inr (.inr (.inl (Instr.eq_srst hf ▸ hp)))
  | clear => exact .inr (.inl (Instr.eq_clrfreq hf ▸ hp))
  | tree u frame kept codes =>
    have hd : s.tbs ≠ .done := fun hd =>
      hne (show SameCodeTable s u.reportOk by rw [kept hd]; exact ⟨rfl, rfl⟩)
    have ht : u.tbs = .done := codes.resolve_left fun hc => hne ⟨hc.ctlen, hc.ctcode⟩
    exact .inr (.inr (.inr ⟨performs_bstep_or_build hp hf, hd, ht⟩))
  | _ => exact absurd ⟨rfl, rfl⟩ hne

/-- Settles O45: every command but SRST leaves the interface alone. -/
theorem dataIsTheHosts : Obligations.DataIsTheHosts := by
  intro s t h hne
  rcases step_cases h with ⟨i, hp, hx⟩ | ⟨hr, -⟩ | ⟨-, hd⟩
  · by_cases hf : i.family = .softReset
    · exact .inr (.inl (Instr.eq_srst hf ▸ hp))
    · exact absurd ((exec_effect hx).sameInterface hf).data hne
  · exact .inl hr
  · exact .inr (.inr (hd.resolve_left hne))

/-! ## The bounds of the buffers (R45 item 9) -/

/-- A state with the parameters and the buffers of one in bounds is in bounds. -/
theorem BufferBounds.of_same {s t : State} (h : BufferBounds s) (hp : t.params = s.params) (hb : SameBits s t)
    (hk : SamePacked s t) : BufferBounds t := by
  obtain ⟨h1, h2, h3, h4⟩ := h
  unfold State.blen at h1 h2
  unfold State.plen at h3 h4
  constructor
  · rwa [State.blen, hb.bitbuf, hb.brp]
  · rwa [State.blen, hb.bitbuf, hp]
  · rwa [State.plen, hk.pbuf, hk.prp]
  · rwa [State.plen, hk.pbuf, hp]

/-- Writing BITBUF and BRP within their bounds keeps the bounds. -/
theorem BufferBounds.of_bits {s : State} (h : BufferBounds s) {b : Bits} {p : Word} (hp : p.toNat ≤ b.length)
    (hb : b.length ≤ s.params.maxbits) (x : Word) (e : Bool) :
    BufferBounds (State.reportOk { s with bitbuf := b, brp := p, res0 := x, eos := e }) :=
  ⟨hp, hb, h.prp, h.plen⟩

/-- Writing PBUF and PRP within their bounds keeps the bounds. -/
theorem BufferBounds.of_packed {s : State} (h : BufferBounds s) {b : List Byte} {p : Word} (hp : p.toNat ≤ b.length)
    (hb : b.length ≤ s.params.pbmax) (x : Word) (e : Bool) :
    BufferBounds (State.reportOk { s with pbuf := b, prp := p, res0 := x, eos := e }) :=
  ⟨h.brp, h.blen, hp, hb⟩

theorem BufferBounds.reportErr {s : State} (h : BufferBounds s) (e : Err) : BufferBounds (s.reportErr e) :=
  h.of_same rfl ⟨rfl, rfl⟩ ⟨rfl, rfl⟩

/-- A read position that moves on over an entry stays within the length. -/
theorem succ_toNat_le {p : Word} {n : Nat} (h : p.toNat < n) : (p + 1).toNat ≤ n := by
  rw [BitVec.toNat_add]
  exact Nat.le_trans (Nat.mod_le _ _) h

theorem execDec_bounds {s t : State} (h : BufferBounds s) (hx : execDec s = .next t) : BufferBounds t := by
  rcases execDec_next hx with ⟨-, rfl⟩ | ⟨-, -, rfl⟩ | ⟨-, -, rfl⟩ | ⟨-, sym, n, hd, rfl⟩
  · exact h.reportErr _
  · exact h.of_bits h.brp h.blen _ _
  · exact h.reportErr _
  · refine h.of_bits ?_ h.blen _ _
    have hn := decLoop_consumed hd
    have hp := h.brp
    unfold State.blen at hp
    rw [List.length_nil, List.length_drop] at hn
    rw [BitVec.toNat_ofNat]
    exact Nat.le_trans (Nat.mod_le _ _) (by omega)

theorem execBget_bounds {s t : State} (h : BufferBounds s) (hx : execBget s = .next t) : BufferBounds t := by
  rcases execBget_next hx with ⟨-, rfl⟩ | ⟨b, hb, rfl⟩
  · exact h.of_bits h.brp h.blen _ _
  · exact h.of_bits (succ_toNat_le (List.getElem?_eq_some_iff.1 hb).1) h.blen _ _

theorem execPrd_bounds {s t : State} (h : BufferBounds s) (hx : execPrd s = .next t) : BufferBounds t := by
  rcases execPrd_next hx with ⟨-, rfl⟩ | ⟨x, hk, rfl⟩
  · exact h.of_packed h.prp h.plen _ _
  · exact h.of_packed (succ_toNat_le (List.getElem?_eq_some_iff.1 hk).1) h.plen _ _

theorem execEnc_bounds {sym : Nat} {s t : State} (h : BufferBounds s) (hx : execEnc sym s = .next t) :
    BufferBounds t := by
  rcases execEnc_next hx with ⟨-, rfl⟩ | ⟨-, -, rfl⟩ | ⟨-, -, -, rfl⟩ | ⟨-, -, -, -, rfl⟩ | ⟨-, -, -, hfit, rfl⟩
  iterate 4 exact h.reportErr _
  have hlen : (s.bitbuf ++ s.codeOf sym).length = s.blen + (s.ctlen.read sym).toNat := by
    rw [List.length_append, codeOf_length, State.blen]
  have hp := h.brp
  exact h.of_bits (by omega) (by omega) _ _

theorem execBput_bounds {bit : Bool} {s t : State} (h : BufferBounds s) (hx : execBput bit s = .next t) :
    BufferBounds t := by
  rcases execBput_next hx with ⟨-, rfl⟩ | ⟨hne, rfl⟩
  · exact h.reportErr _
  · have hlen : (s.bitbuf ++ [bit]).length = s.blen + 1 := List.length_append
    have hp := h.brp
    have hb := h.blen
    exact h.of_bits (by omega) (by omega) _ _

theorem execPwr_bounds {s t : State} (h : BufferBounds s) (hx : execPwr s = .next t) : BufferBounds t := by
  rcases execPwr_next hx with ⟨-, rfl⟩ | ⟨hne, rfl⟩
  · exact h.reportErr _
  · have hlen : (s.pbuf ++ [s.dataByte]).length = s.plen + 1 := List.length_append
    have hp := h.prp
    have hb := h.plen
    exact h.of_packed (by omega) (by omega) _ _

/-- A packed buffer is never longer than PBMAX (R8, R191). -/
theorem packBits_length_le {p : Params} {b : Bits} (h : b.length ≤ p.maxbits) : (packBits b).length ≤ p.pbmax := by
  rw [packBits_length, ceil8, Params.pbmax]
  omega

theorem execUnpack_bounds {s t : State} (h : BufferBounds s) (hx : execUnpack s = .next t) : BufferBounds t := by
  rcases execUnpack_next hx with ⟨-, rfl⟩ | ⟨b, hb, rfl⟩
  · exact h.reportErr _
  · obtain ⟨-, hfit, -, -, rfl⟩ := unpackBytes_some hb
    refine h.of_bits (Nat.zero_le _) ?_ _ _
    rwa [List.length_map, List.length_range]

/-- The commands that write a buffer or a read position keep the bounds, each by the check of its own rule. -/
theorem exec_bounds {i : Instr} {s t : State} (h : BufferBounds s) (hx : exec i s = .next t) : BufferBounds t := by
  cases i with
  | dec => exact execDec_bounds h hx
  | bget => exact execBget_bounds h hx
  | prd => exact execPrd_bounds h hx
  | enc sym => exact execEnc_bounds h hx
  | bput bit => exact execBput_bounds h hx
  | unpack => exact execUnpack_bounds h hx
  | pwr => exact execPwr_bounds h hx
  | bclr =>
    cases execBclr_next hx
    exact h.of_bits (Nat.zero_le _) (Nat.zero_le _) _ _
  | brwd =>
    cases execBrwd_next hx
    exact h.of_bits (Nat.zero_le _) h.blen _ _
  | pclr =>
    cases execPclr_next hx
    exact h.of_packed (Nat.zero_le _) (Nat.zero_le _) _ _
  | pack =>
    cases execPack_next hx
    exact h.of_packed (Nat.zero_le _) (packBits_length_le h.blen) _ _
  | srst =>
    cases execSrst_next hx
    exact bufferBounds_nil rfl rfl rfl rfl
  | _ =>
    obtain ⟨hb, hk⟩ := (exec_effect hx).sameBuffers rfl
    exact h.of_same (exec_effect hx).params hb hk

/-- Settles O59: every command keeps the bounds by its own checks, a reset empties both buffers or leaves them alone, and no
other step writes them. -/
theorem stepKeepsBufferBounds : Obligations.StepKeepsBufferBounds := by
  intro s t _ hb h
  rcases step_cases h with ⟨i, -, hx⟩ | ⟨-, rfl | rfl⟩ | ⟨hk, -⟩
  · have hs : BufferBounds s.performing := hb.of_same rfl ⟨rfl, rfl⟩ ⟨rfl, rfl⟩
    exact ⟨exec_bounds hs hx, (exec_effect hx).params⟩
  · exact ⟨hb.of_same rfl ⟨rfl, rfl⟩ ⟨rfl, rfl⟩, rfl⟩
  · exact ⟨bufferBounds_nil rfl rfl rfl rfl, rfl⟩
  · exact ⟨hb.of_same hk.params hk.bits hk.packed, hk.params⟩

/-! ## The reading commands -/

/-- What the commands that report on the state leave alone: everything but the result registers, ERR and STICKY. -/
structure ReportFrame (s t : State) : Prop where
  freq : SameFrequency s t
  tree : SameTree s t
  codes : SameCodeTable s t
  bits : SameBits s t
  packed : SamePacked s t
  interface : SameInterface s t
  eos : t.eos = s.eos

/-- What the streaming reads leave alone, beside the read position of the other buffer. -/
structure StreamFrame (s t : State) : Prop where
  freq : SameFrequency s t
  tree : SameTree s t
  codes : SameCodeTable s t
  interface : SameInterface s t
  bitbuf : t.bitbuf = s.bitbuf
  pbuf : t.pbuf = s.pbuf
  res1 : t.res1 = s.res1
  res2 : t.res2 = s.res2

theorem ReportFrame.of_results (s : State) (x y z : Word) (e : Err) (b : Bool) :
    ReportFrame s { s with res0 := x, res1 := y, res2 := z, err := e, sticky := b } :=
  ⟨⟨rfl, rfl⟩, ⟨rfl, rfl, rfl, rfl, rfl⟩, ⟨rfl, rfl⟩, ⟨rfl, rfl⟩, ⟨rfl, rfl⟩, ⟨rfl, rfl, rfl, rfl, rfl, rfl, rfl, rfl⟩, rfl⟩

theorem StreamFrame.of_read (s : State) (x p q : Word) (eos : Bool) (e : Err) (b : Bool) :
    StreamFrame s { s with res0 := x, brp := p, prp := q, eos := eos, err := e, sticky := b } :=
  ⟨⟨rfl, rfl⟩, ⟨rfl, rfl, rfl, rfl, rfl⟩, ⟨rfl, rfl⟩, ⟨rfl, rfl, rfl, rfl, rfl, rfl, rfl, rfl⟩, rfl, rfl, rfl, rfl⟩

section
variable {s t : State}

theorem Effect.nothing_frame (h : Effect s .nothing t) :
    ReportFrame s t ∧ t.res0 = s.res0 ∧ t.res1 = s.res1 ∧ t.res2 = s.res2 := by
  cases h <;> exact ⟨.of_results .., rfl, rfl, rfl⟩

theorem Effect.result_frame (h : Effect s .result t) : ReportFrame s t ∧ t.res1 = s.res1 ∧ t.res2 = s.res2 := by
  cases h <;> exact ⟨.of_results .., rfl, rfl⟩

theorem Effect.results_frame (h : Effect s .results t) : ReportFrame s t := by
  cases h <;> exact .of_results ..

theorem Effect.readBits_frame (h : Effect s .readBits t) : StreamFrame s t ∧ t.prp = s.prp := by
  cases h <;> exact ⟨.of_read .., rfl⟩

theorem Effect.readByte_frame (h : Effect s .readByte t) : StreamFrame s t ∧ t.brp = s.brp := by
  cases h <;> exact ⟨.of_read .., rfl⟩

end

/-- Settles O38: each of the eight commands has the frame of its family. -/
theorem readCommandsFrame : Obligations.ReadCommandsFrame := by
  intro i s t hx
  have he := exec_effect hx
  constructor
  · intro hi
    have hframe : ReportFrame s t := by
      rcases hi with rfl | rfl | ⟨sym, rfl | rfl⟩ | ⟨len, rfl⟩
      · exact he.nothing_frame.1
      · exact he.results_frame
      · exact he.result_frame.1
      · exact he.results_frame
      · exact he.result_frame.1
    refine ⟨hframe.freq, hframe.tree, hframe.codes, hframe.bits, hframe.packed, hframe.interface, hframe.eos, ?_, ?_⟩
    · rintro rfl
      exact he.nothing_frame.2.1
    · rintro (rfl | ⟨sym, rfl⟩ | ⟨len, rfl⟩)
      · exact he.nothing_frame.2.2
      · exact he.result_frame.2
      · exact he.result_frame.2
  · intro hi
    have hframe : StreamFrame s t := by
      rcases hi with rfl | rfl | rfl
      · exact he.readBits_frame.1
      · exact he.readBits_frame.1
      · exact he.readByte_frame.1
    refine ⟨hframe.freq, hframe.tree, hframe.codes, hframe.interface, fun k => by rw [hframe.bitbuf],
      fun k => by rw [hframe.pbuf], hframe.res1, hframe.res2, ?_, fun hne => ?_⟩
    · rintro rfl
      exact he.readByte_frame.2
    · rcases hi with rfl | rfl | rfl
      · exact he.readBits_frame.2
      · exact he.readBits_frame.2
      · exact absurd rfl hne

/-- Settles O25: what DT answers has that code, and in a complete table no other symbol has it. -/
theorem decodeTableInvertsEncodeTable : Obligations.DecodeTableInvertsEncodeTable := by
  intro s _ ht hs c sym
  constructor
  · intro h
    obtain ⟨hsym, hc, hl, -⟩ := dt_some h
    exact ⟨hsym, hl, hc⟩
  · rintro ⟨hsym, hl, rfl⟩
    exact dt_codeOf ht hs hsym hl

/-! ## The words of the register window -/

/-- A word made of two fields is their sum, the upper one by its weight. -/
theorem toNat_append_eq_add {m n : Nat} (x : BitVec m) (y : BitVec n) :
    (x ++ y).toNat = x.toNat * 2 ^ n + y.toNat := by
  rw [BitVec.toNat_append, ← Nat.shiftLeft_add_eq_or_of_lt y.isLt, Nat.shiftLeft_eq]

/-- STATUS as the sum of its fields (R36). -/
theorem status_toNat (s : State) :
    s.status.toNat = s.busy.toNat + 2 * s.tv.toNat + 4 * s.eos.toNat + 8 * s.sticky.toNat + 16 * s.overrun.toNat
      + 2 ^ 8 * s.tbs.code.toNat + 2 ^ 16 * s.err.code.toNat := by
  refine (toNat_append_eq_add _ _).trans ?_
  simp only [toNat_append_eq_add, BitVec.toNat_ofBool, BitVec.toNat_ofNat]
  omega

/-- CONFIG as the sum of its fields (R38). -/
theorem configWord_toNat {s : State} (h : s.params.wf) :
    s.configWord.toNat = s.params.symw + 2 ^ 8 * s.params.maxlen := by
  obtain ⟨⟨-, hsymw⟩, ⟨-, hmaxlen⟩, -, -⟩ := h
  refine (toNat_append_eq_add _ _).trans ?_
  simp only [toNat_append_eq_add, BitVec.toNat_ofNat]
  omega

theorem extractLsb'_eq_of_toNat {w : Word} {k n : Nat} {v : BitVec n} (h : w.toNat / 2 ^ k % 2 ^ n = v.toNat) :
    w.extractLsb' k n = v := by
  apply BitVec.eq_of_toNat_eq
  rw [BitVec.extractLsb'_toNat, Nat.shiftRight_eq_div_pow, h]

theorem extractLsb'_eq_zero_of_toNat {w : Word} {k n : Nat} (h : w.toNat / 2 ^ k % 2 ^ n = 0) : w.extractLsb' k n = 0 :=
  extractLsb'_eq_of_toNat (h.trans (BitVec.toNat_zero (w := n)).symm)

theorem getLsbD_eq_of_toNat {w : Word} {k : Nat} {b : Bool} (h : w.toNat / 2 ^ k % 2 = b.toNat) : w.getLsbD k = b := by
  rw [BitVec.getLsbD, Nat.testBit_eq_decide_div_mod_eq, h]
  cases b <;> rfl

/-- LMAX fits its register: it is some CTLEN, of 7 bits (R29, R31). -/
theorem lmax_lt (s : State) : s.lmax < 2 ^ 7 := by
  obtain ⟨sym, -, h⟩ := lmax_reached s
  exact h ▸ (s.ctlen.read sym).isLt

theorem lmaxWord_toNat (s : State) : (BitVec.ofNat 32 s.lmax).toNat = s.lmax := by
  have h := lmax_lt s
  rw [BitVec.toNat_ofNat, Nat.mod_eq_of_lt (by omega)]

theorem lmax_eq_zero {s : State} (h : ∀ sym < s.nsym, s.ctlen.read sym = 0) : s.lmax = 0 := by
  obtain ⟨sym, hsym, hr⟩ := lmax_reached s
  rw [← hr, h sym hsym]
  rfl

/-- The value of the window at an offset with BUSY = 0; a reserved offset reads 0 (R66). -/
def State.windowValue (s : State) (off : Nat) : Word :=
  match regAt off with
  | none => 0
  | some r => s.regValue r

theorem windowValue_offset (s : State) (r : Reg) : s.windowValue r.offset = s.regValue r := by
  rw [State.windowValue, regAt_offset]

theorem windowValue_reserved (s : State) {off : Nat} (h : 0x48 ≤ off) : s.windowValue off = 0 := by
  rw [State.windowValue, regAt_eq_none_iff.2 (by omega)]

theorem windowRead_of_idle {s : State} (h : s.busy = false) (off : Nat) :
    windowRead s off = s.observe (s.windowValue off) := by
  unfold windowRead State.windowValue
  cases regAt off with
  | none => rfl
  | some r => exact if_pos (.inl h)

/-- A read inside the interface with BUSY = 0: the value of the window joins the observation (R66 to R68). -/
theorem step_read_of_idle {s : State} {off : Nat} {rest : List Event} (hp : s.phase = .idle) (h4 : off % 4 = 0)
    (ho : off < 256) (hs : s.pending = .read .w32 (s.params.base + off) :: rest) :
    step s = .next { s with pending := rest, reads := s.reads ++ [s.windowValue off] } := by
  have hv : State.windowValue { s with pending := rest } off = s.windowValue off := by
    unfold State.windowValue
    cases regAt off with
    | none => rfl
    | some r => cases r <;> rfl
  have hb : State.busy { s with pending := rest } = false := by simp [State.busy, hp]
  have ha := accessOffset_valid (s := { s with pending := rest }) (by simp [hp]) ho h4
  rw [step_of_cons hs, takeEvent, hostRead, ha]
  simp only [windowRead_of_idle hb, hv, State.observe]

/-- Settles O47: the value read is that of the register at the offset. -/
theorem registerReads : Obligations.RegisterReads := by
  intro s off rest hp h4 ho hs
  refine ⟨s.windowValue off, step_read_of_idle hp h4 ho hs, ?_⟩
  have hreg (r : Reg) (h : off = r.offset) : s.windowValue off = s.regValue r := h ▸ windowValue_offset s r
  refine ⟨hreg .cmd, hreg .data, hreg .status, hreg .res0, hreg .res1, hreg .res2, hreg .total, hreg .nsyms, hreg .nnodes,
    hreg .root, hreg .blen, hreg .brp, hreg .plen, hreg .prp, fun h => ?_, fun h hw => ?_, hreg .maxbits, hreg .id,
    windowValue_reserved s⟩
  · have hl : s.windowValue off = BitVec.ofNat 32 s.lmax := hreg .lmax h
    rw [hl, lmaxWord_toNat]
    exact ⟨fun sym => ctlen_le_lmax, fun h0 => by rw [lmax_eq_zero h0]; rfl, lmax_reached s⟩
  · have hc : s.windowValue off = s.configWord := hreg .config h
    rw [hc, configWord_toNat hw]

/-- Settles O46: the fields are read off STATUS as their sum. -/
theorem statusLayout : Obligations.StatusLayout := by
  refine ⟨by decide, by decide, fun s => ?_⟩
  have hs := status_toNat s
  have hbusy := s.busy.toNat_lt
  have htv := s.tv.toNat_lt
  have heos := s.eos.toNat_lt
  have hsticky := s.sticky.toNat_lt
  have hoverrun := s.overrun.toNat_lt
  have htbs := s.tbs.code.isLt
  have herr := s.err.code.isLt
  refine ⟨getLsbD_eq_of_toNat ?_, getLsbD_eq_of_toNat (b := s.tv) ?_, getLsbD_eq_of_toNat ?_, getLsbD_eq_of_toNat ?_,
    getLsbD_eq_of_toNat ?_, extractLsb'_eq_zero_of_toNat ?_, extractLsb'_eq_of_toNat ?_,
    extractLsb'_eq_zero_of_toNat ?_, extractLsb'_eq_of_toNat ?_, extractLsb'_eq_zero_of_toNat ?_⟩ <;> rw [hs] <;> omega

/-- Settles O11: the values of R46; LMAX is 0 because no symbol has a code. -/
theorem resetValues : Obligations.ResetValues := by
  have hlmax : State.reset.lmax = 0 := lmax_eq_zero fun _ _ => rfl
  exact ⟨rfl, rfl, rfl, rfl, rfl, rfl, rfl, rfl, rfl, rfl, hlmax, rfl, rfl, rfl, rfl, rfl, rfl, rfl, rfl, rfl, rfl, rfl, rfl,
    rfl, rfl, rfl, rfl, rfl⟩

/-- Settles O56: the state after reset has no tree, no counts and empty buffers. -/
theorem resetMeetsInvariant : Obligations.ResetMeetsInvariant :=
  inv_of_empty (by decide) Memory.wf_nil (freqSum_nil rfl).symm rfl rfl rfl rfl rfl rfl rfl
    (bufferBounds_nil rfl rfl rfl rfl) fun _ => ⟨rfl, rfl⟩
end Sys2Proof.Machine

namespace Sys2Proof.Machine

/-! ## The canonical form of the memories (R60, R61; log 9) -/

/-- Empty memories are canonical. -/
theorem memoriesCanonical_nil {s : State} (hf : s.freq = []) (hi : s.inq = []) (hl : s.ctlen = []) (hc : s.ctcode = []) :
    MemoriesCanonical s :=
  ⟨hf ▸ Memory.wf_nil, hi ▸ Memory.wf_nil, hl ▸ Memory.wf_nil, hc ▸ Memory.wf_nil⟩

/-- The canonical form is a property of the four memories alone. -/
theorem MemoriesCanonical.of_same {s t : State} (h : MemoriesCanonical s) (hf : t.freq = s.freq) (hi : t.inq = s.inq)
    (hc : SameCodeTable s t) : MemoriesCanonical t :=
  ⟨hf ▸ h.freq, hi ▸ h.inq, hc.ctlen ▸ h.ctlen, hc.ctcode ▸ h.ctcode⟩

theorem MemoriesCanonical.reportOk {s : State} (h : MemoriesCanonical s) : MemoriesCanonical s.reportOk :=
  h.of_same rfl rfl ⟨rfl, rfl⟩

theorem MemoriesCanonical.reportErr {s : State} (h : MemoriesCanonical s) (e : Err) : MemoriesCanonical (s.reportErr e) :=
  h.of_same rfl rfl ⟨rfl, rfl⟩

/-- A write of one count keeps the form. -/
theorem MemoriesCanonical.writeFreq {s : State} (h : MemoriesCanonical s) (sym : Nat) (v n : Word) :
    MemoriesCanonical { s with freq := s.freq.write sym v, total := n } :=
  ⟨Memory.write_wf h.freq sym v, h.inq, h.ctlen, h.ctcode⟩

/-! ### The steps of the tree builder -/

theorem stepInit_canonical {s : State} (h : MemoriesCanonical s) : MemoriesCanonical (stepInit s) := by
  have hq (k : Nat) : (enqueueFirst s.inq k).wf := enqueueFirst_wf h.inq k
  unfold stepInit
  simp only
  split_ifs
  · exact ⟨h.freq, hq _, h.ctlen, h.ctcode⟩
  · exact ⟨h.freq, Memory.write_wf (hq _) _ _, h.ctlen, h.ctcode⟩
  · exact ⟨h.freq, hq _, h.ctlen, h.ctcode⟩

theorem extract_canonical {s s1 : State} {k : Nat × Nat} (h : MemoriesCanonical s) (he : extract s = some (k, s1)) :
    MemoriesCanonical s1 := by
  obtain ⟨-, -, -, rfl, -⟩ := extract_some he
  exact ⟨h.freq, Memory.write_wf h.inq _ _, h.ctlen, h.ctcode⟩

theorem insertParent_canonical {s : State} (h : MemoriesCanonical s) (a b : Nat × Nat) :
    MemoriesCanonical (insertParent a b s) := by
  have hq : (s.inq.write s.nnodes 1).wf := Memory.write_wf h.inq _ _
  unfold insertParent
  simp only
  split_ifs
  · exact ⟨h.freq, Memory.write_wf hq _ _, h.ctlen, h.ctcode⟩
  · exact ⟨h.freq, hq, h.ctlen, h.ctcode⟩

theorem stepMerge_canonical {s t : State} (h : MemoriesCanonical s) (ht : stepMerge s = .stepped t) :
    MemoriesCanonical t := by
  obtain ⟨a, b, s1, s2, h1, h2, rfl⟩ := stepMerge_stepped ht
  exact insertParent_canonical (extract_canonical (extract_canonical h h1) h2) a b

theorem stepAssign_canonical {s t : State} (h : MemoriesCanonical s) (ht : stepAssign s = .stepped t) :
    MemoriesCanonical t := by
  obtain ⟨codes, -, -, rfl⟩ := stepAssign_stepped ht
  exact ⟨h.freq, h.inq, Memory.foldl_write_wf _ _ codes h.ctlen, Memory.foldl_write_wf _ _ codes h.ctcode⟩

theorem tbStep_canonical {s t : State} (h : MemoriesCanonical s) (ht : tbStep s = .stepped t) : MemoriesCanonical t := by
  rcases tbStep_stepped ht with ⟨-, rfl⟩ | ⟨-, ht⟩ | ⟨-, ht⟩ | ⟨-, rfl⟩
  · exact stepInit_canonical h
  · exact stepMerge_canonical h ht
  · exact stepAssign_canonical h ht
  · exact h

/-! ### The commands -/

/-- Every effect but those of the counting commands and the tree builder leaves the four memories alone or empties them. -/
theorem Effect.canonical {s t : State} {f : Family} (he : Effect s f t) (h : MemoriesCanonical s) (hc : f ≠ .counts)
    (ht : f ≠ .tree) : MemoriesCanonical t := by
  cases he with
  | counts => exact absurd rfl hc
  | tree => exact absurd rfl ht
  | softReset | clear => exact memoriesCanonical_nil rfl rfl rfl rfl
  | _ => exact h.of_same rfl rfl ⟨rfl, rfl⟩

theorem execCount_canonical {sym : Nat} {s t : State} (h : MemoriesCanonical s) (hx : execCount sym s = .next t) :
    MemoriesCanonical t := by
  rcases execCount_next hx with ⟨-, rfl⟩ | ⟨-, -, rfl⟩ | ⟨-, -, -, rfl⟩ | ⟨-, -, -, rfl⟩
  iterate 3 exact h.reportErr _
  exact (h.writeFreq ..).reportOk

theorem execSetfreq_canonical {sym : Nat} {s t : State} (h : MemoriesCanonical s) (hx : execSetfreq sym s = .next t) :
    MemoriesCanonical t := by
  rcases execSetfreq_next hx with ⟨-, rfl⟩ | ⟨-, -, rfl⟩ | ⟨-, -, -, rfl⟩ | ⟨-, -, -, rfl⟩
  iterate 3 exact h.reportErr _
  exact (h.writeFreq ..).reportOk

theorem execBstep_canonical {s t : State} (h : MemoriesCanonical s) (hx : execBstep s = .next t) :
    MemoriesCanonical t := by
  rcases execBstep_next hx with ⟨u, hu, rfl⟩ | ⟨-, rfl⟩
  · exact (tbStep_canonical h hu).reportOk
  · exact h.reportErr _

theorem execBuild_canonical {s t : State} (h : MemoriesCanonical s) (hx : execBuild s = .next t) :
    MemoriesCanonical t := by
  rcases execBuild_next hx with ⟨u, hu, rfl⟩ | ⟨-, rfl⟩
  · exact (runToDone_induction (fun _ _ => tbStep_canonical) h hu).1.reportOk
  · exact h.reportErr _

theorem exec_canonical {i : Instr} {s t : State} (h : MemoriesCanonical s) (hx : exec i s = .next t) :
    MemoriesCanonical t := by
  cases i with
  | count sym => exact execCount_canonical h hx
  | setfreq sym => exact execSetfreq_canonical h hx
  | bstep => exact execBstep_canonical h hx
  | build => exact execBuild_canonical h hx
  | _ => exact (exec_effect hx).canonical h nofun nofun

/-- Settles O58: the writes of the commands go through `Memory.write`, a reset empties the memories, and no other step
writes them. -/
theorem stepKeepsCanonicalMemories : Obligations.StepKeepsCanonicalMemories := by
  intro s t h hst
  rcases step_cases hst with ⟨i, -, hx⟩ | ⟨-, rfl | rfl⟩ | ⟨hk, -⟩
  · exact exec_canonical (s := s.performing) (h.of_same rfl rfl ⟨rfl, rfl⟩) hx
  · exact memoriesCanonical_nil rfl rfl rfl rfl
  · exact memoriesCanonical_nil rfl rfl rfl rfl
  · exact h.of_same hk.freq.freq hk.tree.inq hk.codes

/-! ## Host accesses (R65, R68, R250) -/

/-- Settles O48: a read that is answered is a read of the window. -/
theorem readsHaveNoSideEffects : Obligations.ReadsHaveNoSideEffects := by
  intro width addr s t h
  obtain ⟨off, -, rfl⟩ := hostRead_next h
  obtain ⟨v, d, hw, -⟩ := windowRead_eq s off
  exact ⟨v, d, hw⟩

/-- A host access, read or write, has no step where its address has no offset in the window. -/
theorem step_access_refused {s : State} {rest : List Event} {width : Width} {addr : Nat} {v : Word} {e : Event}
    {r : Refusal} (he : e = .read width addr ∨ e = .write width addr v) (hp : s.pending = e :: rest)
    (hr : accessOffset s width addr = .refused r) : step s = .refused r := by
  have ha : accessOffset { s with pending := rest } width addr = .refused r := hr
  rw [step_of_cons hp]
  rcases he with rfl | rfl
  · rw [takeEvent, hostRead, ha]
  · rw [takeEvent, hostWrite, ha]

/-- The checks of an access to the window, in their order (log 11). -/
theorem accessOffset_window (s : State) (width : Width) {off : Nat} (ho : off < 256) :
    accessOffset s width (s.params.base + off) =
      if s.phase = .inReset then .refused .accessInReset
      else if width ≠ .w32 then .refused .accessWidth
      else if off % 4 ≠ 0 then .refused .accessMisaligned
      else .next off := by
  unfold accessOffset
  rw [if_neg (by omega), Nat.add_sub_cancel_left]

/-- Settles O50: the checks of the access refuse it, whether it is a read or a write. -/
theorem invalidAccessesAreRefused : Obligations.InvalidAccessesAreRefused := by
  intro s rest width off v e ho he hs
  have hw := accessOffset_window s width ho
  refine ⟨fun hp => ?_, fun hp h32 => ?_, fun hp h32 h4 => ?_⟩
  · exact step_access_refused he hs (by rw [hw, if_pos hp])
  · exact step_access_refused he hs (by rw [hw, if_neg hp, if_pos h32])
  · exact step_access_refused he hs (by rw [hw, if_neg hp, if_neg (not_not.2 h32), if_pos h4])

end Sys2Proof.Machine

/-! ## Encoding (R80 to R90) -/

namespace Sys2Proof

/-! ### A word is its OPC and its fields (R81 to R85) -/

/-- A word whose OPC and low 24 bits are another's is that word. -/
theorem eq_of_opcField_of_low {x y : Word} (ho : opcField x = opcField y)
    (hl : x &&& 0x00FFFFFF#32 = y &&& 0x00FFFFFF#32) : x = y := by
  have hm : ∀ i < 24, (0x00FFFFFF#32).getLsbD i = true := by decide
  refine BitVec.eq_of_getLsbD_eq fun i _ => ?_
  by_cases hi : i < 24
  · have hb := congrArg (fun v => v.getLsbD i) hl
    simpa only [BitVec.getLsbD_and, hm i hi, Bool.and_true] using hb
  · exact getLsbD_of_opcField ho (by omega)

theorem opcField_append_low (w : Word) : opcField w ++ w.extractLsb' 0 24 = w :=
  calc opcField w ++ w.extractLsb' 0 24 = w.extractLsb' 0 32 := BitVec.extractLsb'_append_extractLsb'_eq_extractLsb' rfl
    _ = w := BitVec.extractLsb'_eq_self

theorem ofBool_bitField (w : Word) : BitVec.ofBool (bitField w) = w.extractLsb' 0 1 := by
  refine BitVec.eq_of_getLsbD_eq fun i hi => ?_
  obtain rfl : i = 0 := by omega
  simp [bitField]

theorem wordN_of_reserved {w : Word} (h : w.extractLsb' 0 24 = 0) : wordN (opcField w) = w :=
  calc wordN (opcField w) = opcField w ++ w.extractLsb' 0 24 := by rw [h]; rfl
    _ = w := opcField_append_low w

theorem wordS_of_reserved {w : Word} (h : w.extractLsb' 16 8 = 0) : wordS (opcField w) (symField w) = w :=
  calc wordS (opcField w) (symField w)
      = opcField w ++ (w.extractLsb' 16 8 ++ w.extractLsb' 0 16) := by
        rw [h, wordS, symField, BitVec.ofNat_toNat, BitVec.setWidth_eq]; rfl
    _ = opcField w ++ w.extractLsb' 0 24 :=
        congrArg (opcField w ++ ·) (BitVec.extractLsb'_append_extractLsb'_eq_extractLsb' rfl)
    _ = w := opcField_append_low w

theorem wordB_of_reserved {w : Word} (h : w.extractLsb' 1 23 = 0) : wordB (opcField w) (bitField w) = w :=
  calc wordB (opcField w) (bitField w)
      = opcField w ++ (w.extractLsb' 1 23 ++ w.extractLsb' 0 1) := by rw [h, wordB, ofBool_bitField]; rfl
    _ = opcField w ++ w.extractLsb' 0 24 :=
        congrArg (opcField w ++ ·) (BitVec.extractLsb'_append_extractLsb'_eq_extractLsb' rfl)
    _ = w := opcField_append_low w

theorem wordL_of_reserved {w : Word} (h : w.extractLsb' 8 16 = 0) : wordL (opcField w) (lenField w) = w :=
  calc wordL (opcField w) (lenField w)
      = opcField w ++ (w.extractLsb' 8 16 ++ w.extractLsb' 0 8) := by
        rw [h, wordL, lenField, BitVec.ofNat_toNat, BitVec.setWidth_eq]; rfl
    _ = opcField w ++ w.extractLsb' 0 24 :=
        congrArg (opcField w ++ ·) (BitVec.extractLsb'_append_extractLsb'_eq_extractLsb' rfl)
    _ = w := opcField_append_low w

theorem symFits_symField (w : Word) : symFits (symField w) = true := decide_eq_true (w.extractLsb' 0 16).isLt

theorem lenFits_lenField (w : Word) : lenFits (lenField w) = true := decide_eq_true (w.extractLsb' 0 8).isLt

/-! ### The row of a word (R89, R90) -/

/-- The OPCs of the opcode map are distinct, so a row is its OPC's only one. -/
theorem row_eq_of_opcField {r r' : OpcodeRow} (hr : r ∈ opcodeRows) (hr' : r' ∈ opcodeRows)
    (h : opcField r.pattern = opcField r'.pattern) : r = r' := by
  have hnodup : (opcodeRows.map fun r => opcField r.pattern).Nodup := by decide
  exact List.inj_on_of_nodup_map hnodup hr hr' h

/-- Every row tests the whole OPC, and its pattern is 0 below it. -/
theorem row_fields {r : OpcodeRow} (hr : r ∈ opcodeRows) :
    opcField r.mask = BitVec.allOnes 8 ∧ r.pattern &&& 0x00FFFFFF#32 = 0 := by
  have hall : ∀ r ∈ opcodeRows, opcField r.mask = BitVec.allOnes 8 ∧ r.pattern &&& 0x00FFFFFF#32 = 0 := by decide
  exact hall r hr

/-- A word with the OPC of a row matches the row exactly where its reserved bits are 0. -/
theorem matches_row_iff {w : Word} {r : OpcodeRow} (hr : r ∈ opcodeRows) (ho : opcField r.pattern = opcField w) :
    w &&& r.mask = r.pattern ↔ w &&& r.mask &&& 0x00FFFFFF#32 = 0 := by
  obtain ⟨hmask, hlow⟩ := row_fields hr
  refine ⟨fun h => by rw [h, hlow], fun h => eq_of_opcField_of_low ?_ (h.trans hlow.symm)⟩
  calc opcField (w &&& r.mask) = opcField w &&& opcField r.mask := BitVec.extractLsb'_and
    _ = opcField r.pattern := by rw [hmask, BitVec.and_allOnes, ho]

theorem rowOf_eq_some_iff {w : Word} {r : OpcodeRow} :
    rowOf w = some r ↔ r ∈ opcodeRows ∧ opcField r.pattern = opcField w := by
  refine ⟨fun h => ⟨mem_of_rowOf h, opcField_of_rowOf h⟩, fun ⟨hr, ho⟩ => ?_⟩
  cases hw : rowOf w with
  | none =>
    have hno := List.find?_eq_none.1 hw r hr
    exact absurd (beq_iff_eq.2 ho) hno
  | some r' => rw [row_eq_of_opcField (mem_of_rowOf hw) hr ((opcField_of_rowOf hw).trans ho.symm)]

theorem decode_of_no_row {w : Word} (h : rowOf w = none) : decode w = .illegal .unlistedOpc := by
  unfold decode
  rw [h]

theorem decode_of_rowOf {w : Word} {r : OpcodeRow} (h : rowOf w = some r) :
    decode w = if w &&& r.mask &&& 0x00FFFFFF#32 = 0 then .command (r.read w) else .illegal .reservedBit := by
  have hm := matches_row_iff (mem_of_rowOf h) (opcField_of_rowOf h)
  unfold decode
  rw [h]
  exact if_congr hm rfl rfl

/-- R90, for a word whose OPC is listed. -/
theorem illegal_iff_reserved {w : Word} {r : OpcodeRow} (h : rowOf w = some r) :
    (∃ why, decode w = .illegal why) ↔ w &&& r.mask &&& 0x00FFFFFF#32 ≠ 0 := by
  rw [decode_of_rowOf h]
  split
  · next h0 => exact ⟨(fun ⟨_, hd⟩ => by cases hd), fun hne => absurd h0 hne⟩
  · next h0 => exact ⟨fun _ => h0, fun _ => ⟨_, rfl⟩⟩

end Sys2Proof

namespace Sys2Proof.Machine

/-! ### From a command to its word and back, format by format -/

theorem encodesN.decode_word {o : BitVec 8} {i : Instr} (h : encodesN o i) : decode (wordN o) = .command i := by
  rw [h _ (opcField_wordN o), if_pos (reserved_wordN o)]

theorem encodesS.decode_word {o : BitVec 8} {i : Nat → Instr} (h : encodesS o i) {sym : Nat} (hs : symFits sym = true) :
    decode (wordS o sym) = .command (i sym) := by
  rw [h _ (opcField_wordS o sym), if_pos (reserved_wordS o sym)]
  exact congrArg (fun n => Decoded.command (i n)) (symField_wordS o hs)

theorem encodesB.decode_word {o : BitVec 8} {i : Bool → Instr} (h : encodesB o i) (bit : Bool) :
    decode (wordB o bit) = .command (i bit) := by
  rw [h _ (opcField_wordB o bit), if_pos (reserved_wordB o bit)]
  exact congrArg (fun b => Decoded.command (i b)) (bitField_wordB o bit)

theorem encodesL.decode_word {o : BitVec 8} {i : Nat → Instr} (h : encodesL o i) {len : Nat} (hl : lenFits len = true) :
    decode (wordL o len) = .command (i len) := by
  rw [h _ (opcField_wordL o len), if_pos (reserved_wordL o len)]
  exact congrArg (fun n => Decoded.command (i n)) (lenField_wordL o hl)

theorem ite_eq_command {p : Prop} [Decidable p] {i j : Instr} {why : IllegalWord}
    (h : (if p then Decoded.command i else .illegal why) = .command j) : p ∧ i = j := by
  split at h
  · next hp => exact ⟨hp, Decoded.command.inj h⟩
  · cases h

/-- A word with this OPC that decodes is the one word of its command. -/
def OneWord (o : BitVec 8) : Prop :=
  ∀ w j, opcField w = o → decode w = .command j → j.wellFormed = true ∧ encode j = w

theorem encodesN.oneWord {o : BitVec 8} {i : Instr} (h : encodesN o i) (hwf : i.wellFormed = true)
    (henc : encode i = wordN o) : OneWord o := by
  rintro w j rfl hd
  obtain ⟨h0, rfl⟩ := ite_eq_command ((h w rfl).symm.trans hd)
  exact ⟨hwf, henc.trans (wordN_of_reserved h0)⟩

theorem encodesS.oneWord {o : BitVec 8} {i : Nat → Instr} (h : encodesS o i)
    (hwf : ∀ sym, (i sym).wellFormed = symFits sym) (henc : ∀ sym, encode (i sym) = wordS o sym) : OneWord o := by
  rintro w j rfl hd
  obtain ⟨h0, rfl⟩ := ite_eq_command ((h w rfl).symm.trans hd)
  exact ⟨(hwf _).trans (symFits_symField w), (henc _).trans (wordS_of_reserved h0)⟩

theorem encodesB.oneWord {o : BitVec 8} {i : Bool → Instr} (h : encodesB o i)
    (hwf : ∀ bit, (i bit).wellFormed = true) (henc : ∀ bit, encode (i bit) = wordB o bit) : OneWord o := by
  rintro w j rfl hd
  obtain ⟨h0, rfl⟩ := ite_eq_command ((h w rfl).symm.trans hd)
  exact ⟨hwf _, (henc _).trans (wordB_of_reserved h0)⟩

theorem encodesL.oneWord {o : BitVec 8} {i : Nat → Instr} (h : encodesL o i)
    (hwf : ∀ len, (i len).wellFormed = lenFits len) (henc : ∀ len, encode (i len) = wordL o len) : OneWord o := by
  rintro w j rfl hd
  obtain ⟨h0, rfl⟩ := ite_eq_command ((h w rfl).symm.trans hd)
  exact ⟨(hwf _).trans (lenFits_lenField w), (henc _).trans (wordL_of_reserved h0)⟩

/-! ### The statements of the encoding -/

/-- Settles O1: each command's OPC and format, and the field of the format that holds its operand. -/
theorem decodeInvertsEncode : Obligations.DecodeInvertsEncode := by
  intro i hi
  cases i with
  | nop => exact nop_opcode.decode_word
  | srst => exact srst_opcode.decode_word
  | clrfreq => exact clrfreq_opcode.decode_word
  | count sym => exact count_opcode.decode_word hi
  | setfreq sym => exact setfreq_opcode.decode_word hi
  | getfreq sym => exact getfreq_opcode.decode_word hi
  | build => exact build_opcode.decode_word
  | bstep => exact bstep_opcode.decode_word
  | tnode => exact tnode_opcode.decode_word
  | lookup sym => exact lookup_opcode.decode_word hi
  | dlookup len => exact dlookup_opcode.decode_word hi
  | enc sym => exact enc_opcode.decode_word hi
  | dec => exact dec_opcode.decode_word
  | bclr => exact bclr_opcode.decode_word
  | bput bit => exact bput_opcode.decode_word bit
  | bget => exact bget_opcode.decode_word
  | brwd => exact brwd_opcode.decode_word
  | pclr => exact pclr_opcode.decode_word
  | pwr => exact pwr_opcode.decode_word
  | prd => exact prd_opcode.decode_word
  | pack => exact pack_opcode.decode_word
  | unpack => exact unpack_opcode.decode_word

/-- Every OPC of the opcode map is the OPC of one command. -/
theorem oneWord_of_row : ∀ r ∈ opcodeRows, OneWord (opcField r.pattern) := by
  simp only [opcodeRows, controlRows, frequencyRows, treeBuilderRows, codeTableRows, bitBufferRows, packerRows,
    List.forall_mem_append, List.forall_mem_cons, List.not_mem_nil, false_imp_iff, implies_true, and_true, and_assoc]
  exact ⟨nop_opcode.oneWord rfl rfl, srst_opcode.oneWord rfl rfl, clrfreq_opcode.oneWord rfl rfl,
    count_opcode.oneWord (fun _ => rfl) fun _ => rfl, setfreq_opcode.oneWord (fun _ => rfl) fun _ => rfl,
    getfreq_opcode.oneWord (fun _ => rfl) fun _ => rfl, build_opcode.oneWord rfl rfl, bstep_opcode.oneWord rfl rfl,
    tnode_opcode.oneWord rfl rfl, lookup_opcode.oneWord (fun _ => rfl) fun _ => rfl,
    dlookup_opcode.oneWord (fun _ => rfl) fun _ => rfl, enc_opcode.oneWord (fun _ => rfl) fun _ => rfl,
    dec_opcode.oneWord rfl rfl, bclr_opcode.oneWord rfl rfl, bput_opcode.oneWord (fun _ => rfl) fun _ => rfl,
    bget_opcode.oneWord rfl rfl, brwd_opcode.oneWord rfl rfl, pclr_opcode.oneWord rfl rfl, pwr_opcode.oneWord rfl rfl,
    prd_opcode.oneWord rfl rfl, pack_opcode.oneWord rfl rfl, unpack_opcode.oneWord rfl rfl⟩

/-- Settles O3: five words are encodings; the other two have a reserved bit at 1 and no row. -/
theorem sampleWordsDecode : Obligations.SampleWordsDecode :=
  ⟨decodeInvertsEncode (.count 0x61) rfl, decodeInvertsEncode (.bput true) rfl, decodeInvertsEncode (.dlookup 2) rfl,
    decodeInvertsEncode .build rfl, decodeInvertsEncode .unpack rfl, by decide, by decide⟩

/-- Settles O2: a word that decodes has the OPC of a row. -/
theorem encodeInvertsDecode : Obligations.EncodeInvertsDecode := by
  intro w i h
  cases hr : rowOf w with
  | none =>
    rw [decode_of_no_row hr] at h
    cases h
  | some r => exact oneWord_of_row r (mem_of_rowOf hr) w i (opcField_of_rowOf hr).symm h

theorem performLatched_of_command {s : State} {i : Instr} (h : decode s.cmdl = .command i) :
    performLatched s = exec i s := by
  unfold performLatched
  rw [h]

theorem performLatched_of_illegal {s : State} {why : IllegalWord} (h : decode s.cmdl = .illegal why) :
    performLatched s = .next { s with err := .illegalCmd, sticky := true } := by
  unfold performLatched
  rw [h]
  rfl

/-- Settles O4: a word without a row has an unlisted OPC; a word with one is illegal by its reserved bits alone. -/
theorem illegalEncodings : Obligations.IllegalEncodings := by
  refine ⟨fun w => ?_, fun s why h => performLatched_of_illegal h⟩
  cases hr : rowOf w with
  | none =>
    have hun : unlistedOpcode (opcField w).toNat := (rowOf_eq_none_iff w).1 hr
    exact ⟨fun _ => .inl hun, fun _ => ⟨_, decode_of_no_row hr⟩⟩
  | some r =>
    rw [illegal_iff_reserved hr]
    refine ⟨fun h => .inr ⟨r, mem_of_rowOf hr, opcField_of_rowOf hr, h⟩, ?_⟩
    rintro (hun | ⟨r', hr', ho, h⟩)
    · rw [(rowOf_eq_none_iff w).2 hun] at hr
      cases hr
    · obtain rfl : r' = r := Option.some.inj ((rowOf_eq_some_iff.2 ⟨hr', ho⟩).symm.trans hr)
      exact h

theorem engineTurn_of_command {s : State} (h : s.phase = .command) : engineTurn s = performLatched s.completeCommand := by
  simp only [engineTurn, h]

theorem engineTurn_of_clearing {s : State} (h : s.phase = .clearing) : engineTurn s = .next s.completeClear := by
  simp only [engineTurn, h]

theorem engineTurn_of_idle_or_inReset {s : State} (h : s.phase = .idle ∨ s.phase = .inReset) : engineTurn s = .next s := by
  rcases h with h | h <;> simp only [engineTurn, h]

/-- Settles O5: at the engine's turn the step is engineTurn, phase by phase. -/
theorem stepRunsLatchedCommand : Obligations.StepRunsLatchedCommand := by
  intro s hs
  rw [step_of_enginesTurn hs]
  refine ⟨fun hp => ?_, fun hp => engineTurn_of_clearing hp, fun hp => engineTurn_of_idle_or_inReset hp⟩
  rw [engineTurn_of_command (s := s.afterEvent) hp]
  exact ⟨fun i h => performLatched_of_command (s := s.performing) h,
    fun why h => performLatched_of_illegal (s := s.performing) h⟩

end Sys2Proof.Machine

namespace Sys2Proof.Machine

/-! ## The frequency stage (R101 to R104)

COUNT and SETFREQ end alike: where their checks pass, one count and TOTAL are written. What that leaves is said once. -/

/-- What COUNT and SETFREQ leave alone: everything but FREQ, TOTAL, ERR and STICKY. -/
structure CountsFrame (s t : State) : Prop where
  tree : SameTree s t
  codes : SameCodeTable s t
  bits : SameBits s t
  packed : SamePacked s t
  results : SameResults s t
  interface : SameInterface s t
  eos : t.eos = s.eos

theorem Effect.counts_frame {s t : State} (h : Effect s .counts t) : CountsFrame s t := by
  cases h <;>
    exact ⟨⟨rfl, rfl, rfl, rfl, rfl⟩, ⟨rfl, rfl⟩, ⟨rfl, rfl⟩, ⟨rfl, rfl⟩, ⟨rfl, rfl, rfl⟩,
      ⟨rfl, rfl, rfl, rfl, rfl, rfl, rfl, rfl⟩, rfl⟩

/-- One count and TOTAL are written. -/
def State.writeCount (s : State) (sym : Nat) (v n : Word) : State :=
  { s with freq := s.freq.write sym v, total := n }

theorem read_freq_writeCount_other (s : State) {sym x : Nat} (v n : Word) (h : x ≠ sym) :
    (s.writeCount sym v n).freq.read x = s.freq.read x :=
  Memory.read_write_other h

/-- A successful COUNT or SETFREQ: one count holds v, every other count and the rest of the state are as before. -/
structure CountWritten (s t : State) (sym : Nat) (v : Word) : Prop where
  written : t.freq.read sym = v
  others : ∀ x, x ≠ sym → t.freq.read x = s.freq.read x
  ok : Succeeded s t
  frame : CountsFrame s t

theorem countWritten {s : State} (hw : s.freq.wf) (hs : s.tbs = .idle) (sym : Nat) (v n : Word) :
    CountWritten s (s.writeCount sym v n).reportOk sym v where
  written := Memory.read_write_self hw sym v
  others _ := read_freq_writeCount_other s v n
  ok := ⟨rfl, rfl⟩
  frame := (Effect.counts hs (s.freq.write sym v) n).counts_frame

/-! ### The checks in their order (R102, R103) -/

section
variable {s : State} {sym : Nat}

theorem execCount_badSymbol (h : s.nsym ≤ sym) : execCount sym s = raise .badSymbol s := if_pos h

theorem execCount_sequence (h : sym < s.nsym) (hs : s.tbs ≠ .idle) : execCount sym s = raise .sequence s := by
  rw [execCount, if_neg (Nat.not_le.2 h), if_pos hs]

theorem execCount_freqOverflow (h : sym < s.nsym) (hs : s.tbs = .idle) (ht : s.total.toNat = totalMax) :
    execCount sym s = raise .freqOverflow s := by
  rw [execCount, if_neg (Nat.not_le.2 h), if_neg (not_not.2 hs), if_pos ht]

theorem execCount_succeeds (h : sym < s.nsym) (hs : s.tbs = .idle) (ht : s.total.toNat ≠ totalMax) :
    execCount sym s = succeed (s.writeCount sym (s.freq.read sym + 1) (s.total + 1)) := by
  rw [execCount, if_neg (Nat.not_le.2 h), if_neg (not_not.2 hs), if_neg ht, State.writeCount]

theorem execSetfreq_badSymbol (h : s.nsym ≤ sym) : execSetfreq sym s = raise .badSymbol s := if_pos h

theorem execSetfreq_sequence (h : sym < s.nsym) (hs : s.tbs ≠ .idle) : execSetfreq sym s = raise .sequence s := by
  rw [execSetfreq, if_neg (Nat.not_le.2 h), if_pos hs]

theorem execSetfreq_freqOverflow (h : sym < s.nsym) (hs : s.tbs = .idle) (ht : totalMax < s.newTotal sym) :
    execSetfreq sym s = raise .freqOverflow s := by
  rw [execSetfreq, if_neg (Nat.not_le.2 h), if_neg (not_not.2 hs), if_pos ht]

theorem execSetfreq_succeeds (h : sym < s.nsym) (hs : s.tbs = .idle) (ht : s.newTotal sym ≤ totalMax) :
    execSetfreq sym s = succeed (s.writeCount sym s.data (BitVec.ofNat 32 (s.newTotal sym))) := by
  rw [execSetfreq, if_neg (Nat.not_le.2 h), if_neg (not_not.2 hs), if_neg (Nat.not_lt.2 ht), State.writeCount]

/-- Below its greatest value TOTAL counts on (R10). -/
theorem total_succ_toNat (ht : s.total.toNat ≠ totalMax) : (s.total + 1).toNat = s.total.toNat + 1 := by
  have hlt := s.total.isLt
  unfold totalMax at ht
  bv_omega

/-- The sum of R103 fits TOTAL where it is at most the greatest value. -/
theorem newTotal_toNat (ht : s.newTotal sym ≤ totalMax) : (BitVec.ofNat 32 (s.newTotal sym)).toNat = s.newTotal sym := by
  unfold totalMax at ht
  rw [BitVec.toNat_ofNat, Nat.mod_eq_of_lt (by omega)]

end

/-! ### The results -/

/-- Settles O12: CLRFREQ empties the memories, and an empty memory reads 0. -/
theorem clearFrequencyResult : Obligations.ClearFrequencyResult :=
  ⟨clrfreq_opcode, fun _ => ⟨_, rfl, fun _ => ⟨rfl, rfl, rfl⟩, fun _ => rfl, rfl, rfl, rfl, rfl, rfl, rfl, ⟨rfl, rfl⟩,
    ⟨rfl, rfl⟩, ⟨rfl, rfl⟩, ⟨rfl, rfl, rfl⟩, ⟨rfl, rfl, rfl, rfl, rfl, rfl, rfl, rfl⟩, rfl⟩⟩

/-- Settles O15: GETFREQ has the one check of its symbol. -/
theorem getFrequencyResult : Obligations.GetFrequencyResult :=
  ⟨getfreq_opcode, fun _ _ => ⟨fun h => if_pos h, fun h => if_neg (Nat.not_le.2 h)⟩⟩

/-- Settles O13: each check in its order, and the write where all pass; TOTAL does not wrap. -/
theorem countResult : Obligations.CountResult := by
  refine ⟨count_opcode, fun s sym hw => ⟨execCount_badSymbol, execCount_sequence, execCount_freqOverflow,
    fun h hs ht => ?_⟩⟩
  obtain ⟨hwritten, hothers, hok, hframe⟩ := countWritten hw hs sym (s.freq.read sym + 1) (s.total + 1)
  exact ⟨_, execCount_succeeds h hs ht, hwritten, hothers, total_succ_toNat ht, hok, hframe.tree, hframe.codes,
    hframe.bits, hframe.packed, hframe.results, hframe.interface, hframe.eos⟩

/-- Settles O14: each check in its order, and the write where all pass; the new TOTAL fits. -/
theorem setFrequencyResult : Obligations.SetFrequencyResult := by
  refine ⟨setfreq_opcode, fun s sym hw _ => ⟨execSetfreq_badSymbol, execSetfreq_sequence, execSetfreq_freqOverflow,
    fun h hs ht => ?_⟩⟩
  obtain ⟨hwritten, hothers, hok, hframe⟩ := countWritten hw hs sym s.data (BitVec.ofNat 32 (s.newTotal sym))
  exact ⟨_, execSetfreq_succeeds h hs ht, hwritten, hothers, newTotal_toNat ht, hok, hframe.tree, hframe.codes,
    hframe.bits, hframe.packed, hframe.results, hframe.interface, hframe.eos⟩

/-- COUNT and SETFREQ, where they answer: an error report, or a write of the count of their symbol and of TOTAL. -/
theorem exec_counts_cases {i : Instr} {sym : Nat} {s t : State} (hi : i = .count sym ∨ i = .setfreq sym)
    (hx : exec i s = .next t) : (∃ e, t = s.reportErr e) ∨ ∃ v n, t = (s.writeCount sym v n).reportOk := by
  rcases hi with rfl | rfl
  · rcases execCount_next hx with ⟨-, h⟩ | ⟨-, -, h⟩ | ⟨-, -, -, h⟩ | ⟨-, -, -, h⟩
    iterate 3 exact .inl ⟨_, h⟩
    exact .inr ⟨_, _, h⟩
  · rcases execSetfreq_next hx with ⟨-, h⟩ | ⟨-, -, h⟩ | ⟨-, -, -, h⟩ | ⟨-, -, -, h⟩
    iterate 3 exact .inl ⟨_, h⟩
    exact .inr ⟨_, _, h⟩

/-- Settles O39: both commands have the frame of their family, and write no other count. -/
theorem frequencyWritesFrame : Obligations.FrequencyWritesFrame := by
  intro i sym s t hi hx
  have hf : i.family = .counts := by rcases hi with rfl | rfl <;> rfl
  obtain ⟨htree, hcodes, hbits, hpacked, hresults, hinterface, heos⟩ := (hf ▸ exec_effect hx).counts_frame
  refine ⟨fun x hne => ?_, htree, hcodes, hbits, hpacked, hresults, hinterface, heos⟩
  rcases exec_counts_cases hi hx with ⟨e, rfl⟩ | ⟨v, n, rfl⟩
  · rfl
  · exact read_freq_writeCount_other s v n hne

/-! ## The invariant of R45 -/

/-- The invariant is about the contents and the reset clear. -/
theorem Inv.of_contents {s t : State} (h : Inv s) (hk : ContentsKept s t) (hc : t.phase = .clearing → s.phase = .clearing) :
    Inv t :=
  h.of_same hk.params hk.freq hk.tree hk.codes (h.bounds.of_same hk.params hk.bits hk.packed) hc

/-! ### The counting commands -/

/-- In IDLE, where there is no tree, writing a count keeps the invariant if TOTAL follows the sum of the counts (R22). -/
theorem Inv.writeCount {s : State} (h : Inv s) (hs : s.tbs = .idle) (hc : s.phase ≠ .clearing) {sym : Nat}
    (hsym : sym < s.nsym) {v n : Word} (hn : n.toNat + (s.freq.read sym).toNat = s.total.toNat + v.toNat) :
    Inv (s.writeCount sym v n) := by
  have hne : s.tbs ≠ .done := by rw [hs]; decide
  have hsum : freqSum (s.writeCount sym v n) + (s.freq.read sym).toNat = freqSum s + v.toNat :=
    freqSum_write h.canonical.freq hsym rfl rfl
  have htotal : n.toNat = freqSum (s.writeCount sym v n) := by
    rw [h.total] at hn
    omega
  exact inv_of_empty h.params (Memory.write_wf h.canonical.freq sym v) htotal hs (h.idle.node hs) (h.idle.inq hs)
    (h.idle.nsyms hs) (h.idle.root hs) (h.codes.ctlen hne) (h.codes.ctcode hne)
    (h.bounds.of_same rfl ⟨rfl, rfl⟩ ⟨rfl, rfl⟩) fun hp => absurd hp hc

/-- A count is at most TOTAL (R45 item 1). -/
theorem Inv.read_le_total {s : State} (h : Inv s) {sym : Nat} (hsym : sym < s.nsym) :
    (s.freq.read sym).toNat ≤ s.total.toNat :=
  h.total ▸ freq_le_freqSum hsym

theorem execCount_inv {sym : Nat} {s t : State} (h : Inv s) (hc : s.phase ≠ .clearing) (hx : execCount sym s = .next t) :
    Inv t := by
  rcases execCount_next hx with ⟨-, rfl⟩ | ⟨-, -, rfl⟩ | ⟨-, -, -, rfl⟩ | ⟨hsym, hs, ht, rfl⟩
  iterate 3 exact reportErr_inv h _
  refine reportOk_inv (h.writeCount hs hc hsym ?_)
  have htotal := total_succ_toNat ht
  have hle := h.read_le_total hsym
  unfold totalMax at ht
  bv_omega

theorem execSetfreq_inv {sym : Nat} {s t : State} (h : Inv s) (hc : s.phase ≠ .clearing)
    (hx : execSetfreq sym s = .next t) : Inv t := by
  rcases execSetfreq_next hx with ⟨-, rfl⟩ | ⟨-, -, rfl⟩ | ⟨-, -, -, rfl⟩ | ⟨hsym, hs, ht, rfl⟩
  iterate 3 exact reportErr_inv h _
  refine reportOk_inv (h.writeCount hs hc hsym ?_)
  have hle := h.read_le_total hsym
  rw [newTotal_toNat ht, State.newTotal, State.dataCount]
  omega

/-! ### The tree builder -/

theorem execBstep_inv {s t : State} (h : Inv s) (hc : s.phase ≠ .clearing) (hx : execBstep s = .next t) : Inv t := by
  rcases execBstep_next hx with ⟨u, hu, rfl⟩ | ⟨-, rfl⟩
  · exact reportOk_inv (tbStep_inv h hc hu)
  · exact reportErr_inv h _

/-- The steps of BUILD keep the invariant, and none starts a reset clear. -/
theorem execBuild_inv {s t : State} (h : Inv s) (hc : s.phase ≠ .clearing) (hx : execBuild s = .next t) : Inv t := by
  rcases execBuild_next hx with ⟨u, hu, rfl⟩ | ⟨-, rfl⟩
  · obtain ⟨⟨hinv, -⟩, -⟩ := runToDone_induction (P := fun s => Inv s ∧ s.phase ≠ .clearing)
      (fun _ _ ⟨hi, hp⟩ ht => ⟨tbStep_inv hi hp ht, (tbStep_frame ht).interface.phase ▸ hp⟩) ⟨h, hc⟩ hu
    exact reportOk_inv hinv
  · exact reportErr_inv h _

/-! ### Every command -/

/-- SRST and CLRFREQ leave a state without a tree; every other effect, but those of the counting commands and the tree
builder, leaves what the invariant says of the counts, the tree and the code table. -/
theorem Effect.inv {s t : State} {f : Family} (he : Effect s f t) (h : Inv s) (hb : BufferBounds t) (hp : s.phase ≠ .clearing)
    (hc : f ≠ .counts) (ht : f ≠ .tree) : Inv t := by
  cases he with
  | counts => exact absurd rfl hc
  | tree => exact absurd rfl ht
  | softReset | clear =>
    exact inv_of_empty h.params Memory.wf_nil (freqSum_nil rfl).symm rfl rfl rfl rfl rfl rfl rfl hb fun hh => absurd hh hp
  | _ => exact h.of_same rfl ⟨rfl, rfl⟩ ⟨rfl, rfl, rfl, rfl, rfl⟩ ⟨rfl, rfl⟩ hb id

theorem exec_inv {i : Instr} {s t : State} (h : Inv s) (hc : s.phase ≠ .clearing) (hx : exec i s = .next t) : Inv t := by
  cases i with
  | count sym => exact execCount_inv h hc hx
  | setfreq sym => exact execSetfreq_inv h hc hx
  | bstep => exact execBstep_inv h hc hx
  | build => exact execBuild_inv h hc hx
  | _ => exact (exec_effect hx).inv h (exec_bounds h.bounds hx) hc nofun nofun

/-! ### Every step -/

/-- The end of the reset clear clears memories that are clear already (R250, R251). -/
theorem completeClear_inv {s : State} (h : Inv s) (hp : s.phase = .clearing) : Inv s.completeClear := by
  obtain ⟨hfreq, htotal⟩ := h.clearing.freq hp
  obtain ⟨htbs, hinq⟩ := h.clearing.tree hp
  obtain ⟨hctlen, hctcode⟩ := h.clearing.codes hp
  exact h.of_same rfl ⟨hfreq.symm, rfl⟩ ⟨rfl, rfl, hinq.symm, rfl, rfl⟩ ⟨hctlen.symm, hctcode.symm⟩
    (h.bounds.of_same rfl ⟨rfl, rfl⟩ ⟨rfl, rfl⟩) nofun

theorem releaseReset_inv {s : State} (h : Inv s) : Inv (releaseReset s) := by
  unfold releaseReset
  split_ifs with hp
  · exact inv_of_empty h.params Memory.wf_nil (freqSum_nil rfl).symm rfl rfl rfl rfl rfl rfl rfl
      (bufferBounds_nil rfl rfl rfl rfl) fun _ => ⟨rfl, rfl⟩
  · exact h

theorem engineTurn_inv {s t : State} (h : Inv s) (ht : engineTurn s = .next t) : Inv t := by
  have hdone : Inv s.completeCommand := h.of_contents (.of_interface ..) nofun
  rcases engineTurn_next ht with ⟨i, -, -, hx⟩ | ⟨why, -, -, rfl⟩ | ⟨hp, rfl⟩ | ⟨-, rfl⟩
  · exact exec_inv hdone nofun hx
  · exact reportErr_inv hdone _
  · exact completeClear_inv h hp
  · exact h

theorem windowRead_phase (s : State) (off : Nat) : (windowRead s off).phase = s.phase := by
  obtain ⟨v, d, hw, -⟩ := windowRead_eq s off
  rw [hw]

/-- No host write starts a reset clear. -/
theorem windowWrite_clearing {s : State} {off : Nat} {v : Word} (h : (windowWrite s off v).phase = .clearing) :
    s.phase = .clearing := by
  rcases windowWrite_cases s off v with ⟨-, -, hw⟩ | ⟨-, -, hw⟩ | ⟨-, -, hw⟩ | ⟨-, -, hw⟩ <;> rw [hw] at h
  · cases h
  iterate 3 exact h

/-- Settles O57: the engine's turn keeps the invariant command by command, a host access and the assertion of reset leave
the contents alone, and the release of reset leaves a state without counts or tree and with empty buffers. -/
theorem stepKeepsInvariant : Obligations.StepKeepsInvariant := by
  intro s t h hst
  have hevent : Inv s.afterEvent := h.of_contents (.of_interface ..) id
  rcases step_next hst with ⟨-, ht⟩ | ⟨off, -, -, -, -, rfl⟩ | ⟨off, v, -, -, -, hp, rfl⟩ | ⟨-, rfl⟩ | ⟨-, rfl⟩
  · exact engineTurn_inv hevent ht
  · exact h.of_contents (windowRead_kept s off).1 fun hc => windowRead_phase s.afterEvent off ▸ hc
  · exact h.of_contents (windowWrite_kept hp).1 fun hc => windowWrite_clearing (s := s.afterEvent) hc
  · exact h.of_contents (.of_interface ..) nofun
  · exact releaseReset_inv hevent

end Sys2Proof.Machine

namespace Sys2Proof.Machine

/-! ## The tree builder (R120 to R129) -/

/-- A success report is no write of the tree builder. -/
theorem StepFrame.reportOk {s t : State} (h : StepFrame s t) : StepFrame s t.reportOk :=
  h.trans ⟨⟨rfl, rfl⟩, ⟨rfl, rfl⟩, ⟨rfl, rfl⟩, ⟨rfl, rfl, rfl⟩, ⟨rfl, rfl, rfl, rfl, rfl, rfl, rfl, rfl⟩, rfl, rfl⟩

/-- Settles O40: BSTEP and BUILD report an error, or succeed in a state their steps lead to, and no step writes any of
this. -/
theorem treeStepsFrame : Obligations.TreeStepsFrame := by
  intro i s t hi hx
  have hf : i.family = .tree := by rcases hi with rfl | rfl <;> rfl
  have he : Effect s .tree t := hf ▸ exec_effect hx
  cases he with
  | report => exact ⟨⟨rfl, rfl⟩, ⟨rfl, rfl⟩, ⟨rfl, rfl⟩, ⟨rfl, rfl, rfl⟩, ⟨rfl, rfl, rfl, rfl, rfl, rfl, rfl, rfl⟩, rfl⟩
  | tree u frame =>
    have hu := frame.reportOk
    exact ⟨hu.freq, hu.bits, hu.packed, hu.results, hu.interface, hu.eos⟩

/-! ### BSTEP and BUILD, by what their steps give (R127, R128) -/

theorem exec_bstep_of_stepped {s t : State} (h : tbStep s = .stepped t) : exec .bstep s = .next t.reportOk := by
  show finishSteps s (tbStep s) = _
  rw [h]
  rfl

theorem exec_bstep_of_tooLong {s : State} (h : tbStep s = .tooLong) : reports .bstep s .codeTooLong := by
  show finishSteps s (tbStep s) = _
  rw [h]
  rfl

theorem exec_build_of_stepped {s t : State} (h : runToDone (s.nsym + 1) s = .stepped t) :
    exec .build s = .next t.reportOk := by
  show finishSteps s (runToDone (s.nsym + 1) s) = _
  rw [h]
  rfl

theorem exec_build_of_tooLong {s : State} (h : runToDone (s.nsym + 1) s = .tooLong) : reports .build s .codeTooLong := by
  show finishSteps s (runToDone (s.nsym + 1) s) = _
  rw [h]
  rfl

/-- Settles O16: in DONE there is no step to take; and of the effects a command can have there, only those of CLRFREQ and
SRST write the tree or the code table. -/
theorem doneStepsAreNoOps : Obligations.DoneStepsAreNoOps := by
  refine ⟨fun s hd => ⟨exec_bstep_of_stepped (tbStep_of_done hd), exec_build_of_stepped (runToDone_of_done hd _)⟩, ?_⟩
  intro s t hd h hr hclr hsrst
  by_cases hk : ContentsKept s t
  · exact ⟨hk.tree, hk.codes⟩
  obtain ⟨i, hp, he⟩ := (step_changes h hk).resolve_left hr
  generalize hf : i.family = f at he
  cases he with
  | softReset => exact absurd (Instr.eq_srst hf ▸ hp) hsrst
  | clear => exact absurd (Instr.eq_clrfreq hf ▸ hp) hclr
  | counts idle => exact absurd (hd.symm.trans idle) nofun
  | tree u frame kept =>
    rw [kept hd]
    exact ⟨⟨rfl, rfl, rfl, rfl, rfl⟩, ⟨rfl, rfl⟩⟩
  | _ => exact ⟨⟨rfl, rfl, rfl, rfl, rfl⟩, ⟨rfl, rfl⟩⟩

/-! ### INIT (R123) -/

theorem tbStep_of_idle {s : State} (h : s.tbs = .idle) : tbStep s = .stepped (stepInit s) := by
  unfold tbStep
  rw [h]

theorem queue_of_inq_nil {s : State} (h : s.inq = []) : s.queue = [] := by rw [State.queue, h]; rfl

section
variable {s : State} (hq : s.inq = [])
include hq

theorem stepInit_root (hr : s.root = 0) : (stepInit s).root = 0 := by
  rw [stepInit_eq hq]
  split_ifs
  · exact hr
  · rfl
  · exact hr

theorem stepInit_of_empty (h : s.alphabet.length = 0) : (stepInit s).tbs = .done ∧ (stepInit s).queue = [] := by
  rw [stepInit_eq hq, if_pos h]
  exact ⟨rfl, rfl⟩

theorem stepInit_of_single (h : s.alphabet.length = 1) : (stepInit s).tbs = .assign ∧ (stepInit s).queue = [] := by
  rw [stepInit_eq hq, if_neg (by omega), if_pos h]
  exact ⟨rfl, rfl⟩

theorem stepInit_of_several (h : 2 ≤ s.alphabet.length) :
    (stepInit s).tbs = .merge ∧ (stepInit s).queue = List.range s.alphabet.length := by
  rw [stepInit_eq hq, if_neg (by omega), if_neg (by omega)]
  exact ⟨rfl, queue_enqueueFirst rfl⟩

end

/-- Settles O17: BSTEP in IDLE is the INIT step, which ends by the size of the alphabet. -/
theorem initStepResult : Obligations.InitStepResult := by
  intro s hp hidle hs
  have hq := hidle.inq hs
  have hframe := (stepInit_frame s).reportOk
  have hcodes := stepInit_codes s
  exact ⟨_, exec_bstep_of_stepped (tbStep_of_idle hs), stepInit_node s, stepInit_nsyms_toNat hp,
    stepInit_root hq (hidle.root hs), stepInit_of_empty hq, stepInit_of_single hq, stepInit_of_several hq,
    ⟨rfl, hframe.sticky⟩, hframe.freq, ⟨hcodes.ctlen, hcodes.ctcode⟩, hframe.bits, hframe.packed, hframe.results,
    hframe.interface, hframe.eos⟩

/-! ### MERGE (R124) -/

theorem tbStep_of_merge {s : State} (h : s.tbs = .merge) : tbStep s = stepMerge s := by
  unfold tbStep
  rw [h]

theorem toNat_ofNat_word {n : Nat} (h : n < 2 ^ 32) : (BitVec.ofNat 32 n).toNat = n :=
  (BitVec.toNat_ofNat ..).trans (Nat.mod_eq_of_lt h)

/-- The parent of two slots whose indexes and whose sum of frequencies fit their fields. -/
theorem parentOf_fields {a b : Nat × Nat} (hf : a.1 + b.1 < 2 ^ 32) (ha : a.2 < 2 ^ 32) (hb : b.2 < 2 ^ 32) :
    (parentOf a b).freq.toNat = a.1 + b.1 ∧ (parentOf a b).leaf = false ∧ (parentOf a b).sym = 0
      ∧ (parentOf a b).left.toNat = a.2 ∧ (parentOf a b).right.toNat = b.2 :=
  ⟨toNat_ofNat_word hf, rfl, rfl, toNat_ofNat_word ha, toNat_ofNat_word hb⟩

section
variable {s : State} {a b : Nat} (hm : MergeFacts s a b)
include hm

/-- Where more than two slots are queued, the parent joins the others. -/
theorem MergeFacts.step_of_several (h : 2 < s.queue.length) : stepMerge s = .stepped (s.withParent a b) := by
  have h1 := hm.perm.length_eq
  have h2 := hm.perm'.length_eq
  simp only [List.length_cons] at h1 h2
  rw [hm.step, insertParent_eq, if_neg (by omega)]

/-- Where two slots are queued, their parent is alone and becomes the root. -/
theorem MergeFacts.step_of_two (h : s.queue.length = 2) :
    stepMerge s = .stepped { s.withParent a b with
      inq := (s.withParent a b).inq.write s.nnodes 0, root := BitVec.ofNat 32 s.nnodes, tbs := .assign } := by
  have h1 := hm.perm.length_eq
  have h2 := hm.perm'.length_eq
  simp only [List.length_cons] at h1 h2
  rw [hm.step, insertParent_eq, if_pos (by omega)]

end

/-- In MERGE two slots at least are queued (R45 item 4). -/
theorem Inv.two_le_queue {s : State} (h : Inv s) (hs : s.tbs = .merge) : 2 ≤ s.queue.length := by
  have hcount := h.merge.count hs
  have hhigh := h.merge.high hs
  omega

theorem Inv.phase_ne_clearing_of_merge {s : State} (h : Inv s) (hs : s.tbs = .merge) : s.phase ≠ .clearing := fun hp =>
  absurd (hs.symm.trans (h.clearing.tree hp).1) nofun

/-- What the MERGE step makes of the two slots it extracts. -/
structure Merged (s t : State) (a b : Nat) : Prop where
  node : t.node = s.node ++ [parentOf (s.freqAt a, a) (s.freqAt b, b)]
  nsyms : t.nsyms = s.nsyms
  several : 2 < s.queue.length → t.tbs = .merge ∧ t.root = s.root
    ∧ ∀ i, i ∈ t.queue ↔ (i ∈ s.queue ∧ i ≠ a ∧ i ≠ b) ∨ i = s.nnodes
  two : s.queue.length = 2 → t.tbs = .assign ∧ t.root.toNat = s.nnodes ∧ t.queue = []

/-- The MERGE step ends by the length of the queue. -/
theorem MergeFacts.merged {s : State} {a b : Nat} (hm : MergeFacts s a b) (h : Inv s) (hs : s.tbs = .merge) :
    ∃ t, stepMerge s = .stepped t ∧ Merged s t a b := by
  by_cases h2 : s.queue.length = 2
  · have hstep := hm.step_of_two h2
    have hinv := stepMerge_inv h hs (h.phase_ne_clearing_of_merge hs) hstep
    have hslots := hm.slots
    exact ⟨_, hstep, rfl, rfl, fun hlt => by omega, fun _ =>
      ⟨rfl, toNat_ofNat_word (by omega), queue_of_inq_nil (hinv.finished.queue (.inl rfl))⟩⟩
  · have hle := h.two_le_queue hs
    exact ⟨_, hm.step_of_several (by omega), rfl, rfl, fun _ => ⟨hs, rfl, hm.members⟩, fun heq => absurd heq h2⟩

/-- Settles O18: the two extracted slots and their parent are those of `mergeFacts`. -/
theorem mergeStepResult : Obligations.MergeStepResult := by
  intro s h hs
  obtain ⟨a, b, hm⟩ := mergeFacts h hs
  obtain ⟨t, ht, hmerged⟩ := hm.merged h hs
  have hslots := hm.slots
  have hleft := hm.leftLt
  have hright := hm.rightLt
  have hfields := parentOf_fields (a := (s.freqAt a, a)) (b := (s.freqAt b, b)) hm.fits (by omega) (by omega)
  have hframe := (stepMerge_frame ht).reportOk
  have hcodes := stepMerge_codes ht
  exact ⟨_, a, b, exec_bstep_of_stepped ((tbStep_of_merge hs).trans ht), hm.left, hm.right, hm.ne, hm.least, hm.next,
    ⟨_, hmerged.node, hfields⟩, hmerged.several, hmerged.two, hmerged.nsyms, ⟨rfl, hframe.sticky⟩, hframe.freq,
    ⟨hcodes.ctlen, hcodes.ctcode⟩, hframe.bits, hframe.packed, hframe.results, hframe.interface, hframe.eos⟩

/-! ### ASSIGN (R125, R140 to R143) -/

theorem tbStep_of_assign {s : State} (h : s.tbs = .assign) : tbStep s = stepAssign s := by
  unfold tbStep
  rw [h]

/-- The leaves have the first NSYMS slots (R45 item 6). -/
theorem Inv.nsyms_le_of_internal {s : State} (h : Inv s) (hs : s.tbs ≠ .idle) {k : Nat} {nd : Node}
    (hk : s.node[k]? = some nd) (hl : nd.leaf = false) : s.nsyms.toNat ≤ k := by
  by_contra hlt
  have htake : (s.node.take s.nsyms.toNat)[k]? = some nd := by rw [List.getElem?_take_of_lt (by omega), hk]
  rw [h.tree.leaves hs] at htake
  obtain ⟨sym, -, rfl⟩ := getElem_leaves htake
  cases hl

section
variable {s : State} (h : Inv s) (hs : s.tbs = .assign)
include h hs

/-- A tree in ASSIGN has a leaf (R45 item 5). -/
theorem Inv.nsyms_ne_zero_of_assign : s.nsyms ≠ 0 := fun h0 =>
  absurd (hs.symm.trans (h.finished.none (.inl hs) h0).2.2) nofun

/-- In a tree of m leaves no path is longer than m - 1: each step of a path but the last goes from an internal slot to
another, a lower one, and there are m - 1 internal slots. -/
theorem pathOf_length_lt {sym : Nat} {p : Bits} (hp : s.pathOf sym p) : p.length < s.nsyms.toNat := by
  have hn := h.nsyms_ne_zero_of_assign hs
  have hpos : s.nsyms.toNat ≠ 0 := fun h0 => hn (BitVec.eq_of_toNat_eq h0)
  have hslots := h.finished.slots (.inl hs) hn
  have hroot := h.finished.root (.inl hs) hn
  have hlt : s.root.toNat < s.node.length := by rw [State.nnodes] at hroot; omega
  obtain ⟨j, hw, -⟩ := hp
  rcases List.eq_nil_or_concat p with rfl | ⟨q, b, rfl⟩
  · rw [List.length_nil]
    omega
  · rw [List.concat_eq_append] at hw ⊢
    obtain ⟨k, nd, hk, hnd, hl, -⟩ := walk_snoc hw
    have hinternal := h.nsyms_le_of_internal (by rw [hs]; decide) hnd hl
    have hwalk := walk_length h.tree.lower hlt hk
    rw [List.length_append, List.length_singleton]
    omega

/-- The ASSIGN step reports CODE_TOO_LONG exactly where some path is longer than MAXLEN (R142). -/
theorem stepAssign_tooLong_iff :
    stepAssign s = .tooLong ↔ ∃ sym p, s.pathOf sym p ∧ s.params.maxlen < p.length := by
  obtain ⟨codes, hc, hg, hone, hpaths⟩ := assignment_spec h hs
  have hmax := h.params.2.1.1
  constructor
  · intro ht
    obtain ⟨codes', hc', ⟨sym, p⟩, he, hlt⟩ := stepAssign_tooLong ht
    obtain rfl := Option.some.inj (hc.symm.trans hc')
    by_cases h1 : s.nsyms = 1
    · rw [hone h1 _ he] at hlt
      exact absurd hlt (Nat.not_lt.2 hmax)
    · exact ⟨sym, p, (hpaths h1 sym p).1 he, hlt⟩
  · rintro ⟨sym, p, hp, hlt⟩
    have h1 : s.nsyms ≠ 1 := fun h1 => by
      have hshort := pathOf_length_lt h hs hp
      rw [h1] at hshort
      have hshort : p.length < 1 := hshort
      omega
    cases ht : stepAssign s with
    | stepped t =>
      obtain ⟨codes', hc', hle, -⟩ := stepAssign_stepped ht
      obtain rfl := Option.some.inj (hc.symm.trans hc')
      exact absurd hlt (Nat.not_lt.2 (hle _ ((hpaths h1 sym p).2 hp)))
    | tooLong => rfl
    | broken f => exact absurd ((tbStep_of_assign hs).trans ht) (tbStep_ne_broken h)

/-- Where no path is longer than MAXLEN the ASSIGN step is taken. -/
theorem stepAssign_of_short (hshort : ∀ sym p, s.pathOf sym p → p.length ≤ s.params.maxlen) :
    ∃ t, stepAssign s = .stepped t := by
  cases ht : stepAssign s with
  | stepped t => exact ⟨t, rfl⟩
  | tooLong =>
    obtain ⟨sym, p, hp, hlt⟩ := (stepAssign_tooLong_iff h hs).1 ht
    exact absurd hlt (Nat.not_lt.2 (hshort sym p hp))
  | broken f => exact absurd ((tbStep_of_assign hs).trans ht) (tbStep_ne_broken h)

/-- The table the ASSIGN step writes (R141, R143). -/
theorem stepAssign_table {t : State} (ht : stepAssign s = .stepped t) :
    ∃ codes, GoodCodes s codes ∧ TableOf s t codes ∧ (s.nsyms = 1 → ∀ e ∈ codes, e.2 = [false])
      ∧ (s.nsyms ≠ 1 → ∀ sym p, (sym, p) ∈ codes ↔ s.pathOf sym p) := by
  obtain ⟨codes, hc, hg, hone, hpaths⟩ := assignment_spec h hs
  obtain ⟨codes', hc', hle, rfl⟩ := stepAssign_stepped ht
  obtain rfl := Option.some.inj (hc.symm.trans hc')
  have hne : s.tbs ≠ .done := by rw [hs]; decide
  refine ⟨codes, hg, tableOf hg (fun e he => (hle e he).trans h.params.2.1.2) ?_ ?_, hone, hpaths⟩
  · rw [h.codes.ctlen hne]
  · rw [h.codes.ctcode hne]

end

/-- The ASSIGN step ends in DONE, with the same tree. -/
theorem stepAssign_tree {s t : State} (h : stepAssign s = .stepped t) :
    t.tbs = .done ∧ t.node = s.node ∧ t.inq = s.inq ∧ t.nsyms = s.nsyms ∧ t.root = s.root := by
  obtain ⟨codes, -, -, rfl⟩ := stepAssign_stepped h
  exact ⟨rfl, rfl, rfl, rfl, rfl⟩

/-- Settles O19: the paths of the tree decide whether the ASSIGN step is taken, and the table is that of the assignment. -/
theorem assignStepResult : Obligations.AssignStepResult := by
  intro s h hs
  refine ⟨fun _ hlong => exec_bstep_of_tooLong ((tbStep_of_assign hs).trans ((stepAssign_tooLong_iff h hs).2 hlong)),
    fun hshort => ?_⟩
  obtain ⟨t, ht⟩ := stepAssign_of_short h hs hshort
  obtain ⟨codes, hg, htable, hone, hpaths⟩ := stepAssign_table h hs ht
  have hcode : ∀ sym < s.nsym, s.freq.read sym ≠ 0 → (sym, t.codeOf sym) ∈ codes := fun sym hsym hne => by
    obtain ⟨p, hp⟩ := hg.each sym (mem_alphabet.2 ⟨hsym, hne⟩)
    have hp' : t.codeOf sym = p := (htable.code _ hp).2.2
    rwa [hp']
  have hnone : ∀ sym < s.nsym, s.freq.read sym = 0 → t.ctlen.read sym = 0 ∧ t.ctcode.read sym = 0 := fun sym _ h0 =>
    htable.none sym fun hmem => (mem_alphabet.1 hmem).2 h0
  have hframe := (stepAssign_frame ht).reportOk
  obtain ⟨htbs, hnode, hinq, hnsyms, hroot⟩ := stepAssign_tree ht
  exact ⟨_, exec_bstep_of_stepped ((tbStep_of_assign hs).trans ht), htbs, hnone,
    fun h1 sym hsym hne => hone h1 _ (hcode sym hsym hne),
    fun h1 sym hsym hne => (hpaths h1 sym _).1 (hcode sym hsym hne), hnode, hinq, hnsyms, hroot, ⟨rfl, hframe.sticky⟩,
    hframe.freq, hframe.bits, hframe.packed, hframe.results, hframe.interface, hframe.eos⟩

/-! ### What the tree builder reads and writes

The steps of the tree builder read and write the parameters, FREQ, the tree and the code table only. So they commute with
whatever changes the rest of the state: a report between two BSTEPs, the phase of the engine, or another state altogether. -/

/-- The parameters, FREQ, the tree and the code table of s, and everything else of r. -/
def State.withRest (s r : State) : State :=
  { r with
    params := s.params, freq := s.freq, tbs := s.tbs, node := s.node, inq := s.inq, nsyms := s.nsyms, root := s.root
    ctlen := s.ctlen, ctcode := s.ctcode }

section
variable (s r : State)

@[simp] theorem State.withRest_self : s.withRest s = s := rfl
@[simp] theorem State.withRest_withRest (q : State) : (s.withRest r).withRest q = s.withRest q := rfl
@[simp] theorem State.withRest_params : (s.withRest r).params = s.params := rfl
@[simp] theorem State.withRest_tbs : (s.withRest r).tbs = s.tbs := rfl
@[simp] theorem State.withRest_alphabet : (s.withRest r).alphabet = s.alphabet := rfl
@[simp] theorem State.withRest_leafOf : (s.withRest r).leafOf = s.leafOf := rfl
@[simp] theorem State.withRest_queue : (s.withRest r).queue = s.queue := rfl
@[simp] theorem State.withRest_keyOf : (s.withRest r).keyOf = s.keyOf := rfl
@[simp] theorem State.withRest_assignment : (s.withRest r).assignment = s.assignment := rfl

end

/-- What a step gives, with the state changed. -/
def StepResult.map (f : State → State) : StepResult → StepResult
  | .stepped s => .stepped (f s)
  | .tooLong => .tooLong
  | .broken x => .broken x

theorem StepResult.map_map (f g : State → State) (x : StepResult) : (x.map f).map g = x.map fun s => g (f s) := by
  cases x <;> rfl

theorem StepResult.map_eq_tooLong {f : State → State} {x : StepResult} : x.map f = .tooLong ↔ x = .tooLong := by
  cases x <;> simp [StepResult.map]

/-- A new slot, queued. -/
def State.withSlot (s : State) (nd : Node) : State :=
  { s with node := s.node ++ [nd], inq := s.inq.write s.nnodes 1 }

theorem insertParent_eq_ite (a b : Nat × Nat) (s : State) :
    insertParent a b s =
      if (s.withSlot (parentOf a b)).queue.length = 1 then
        { s.withSlot (parentOf a b) with
          inq := (s.withSlot (parentOf a b)).inq.write s.nnodes 0, root := BitVec.ofNat 32 s.nnodes, tbs := .assign }
      else s.withSlot (parentOf a b) := rfl

section
variable (s r : State)

theorem stepInit_withRest : stepInit (s.withRest r) = (stepInit s).withRest r := by
  unfold stepInit
  rw [State.withRest_alphabet, State.withRest_leafOf]
  dsimp only
  split_ifs <;> rfl

theorem keysOf_withRest (is : List Nat) : keysOf (s.withRest r) is = keysOf s is := by
  induction is with
  | nil => rfl
  | cons i is ih => rw [keysOf, keysOf, ih, State.withRest_keyOf]

theorem extract_withRest : extract (s.withRest r) = (extract s).map fun e => (e.1, e.2.withRest r) := by
  unfold extract
  rw [State.withRest_queue, keysOf_withRest]
  cases keysOf s s.queue with
  | none => rfl
  | some ks =>
    dsimp only
    cases leastKey ks <;> rfl

theorem insertParent_withRest (a b : Nat × Nat) : insertParent a b (s.withRest r) = (insertParent a b s).withRest r := by
  have hslot : (s.withRest r).withSlot (parentOf a b) = (s.withSlot (parentOf a b)).withRest r := rfl
  rw [insertParent_eq_ite, insertParent_eq_ite, hslot, State.withRest_queue]
  split_ifs <;> rfl

theorem stepMerge_withRest : stepMerge (s.withRest r) = (stepMerge s).map (·.withRest r) := by
  unfold stepMerge
  rw [extract_withRest]
  cases extract s with
  | none => rfl
  | some e =>
    obtain ⟨a, s1⟩ := e
    dsimp only [Option.map_some]
    rw [extract_withRest]
    cases extract s1 with
    | none => rfl
    | some e =>
      obtain ⟨b, s2⟩ := e
      exact congrArg StepResult.stepped (insertParent_withRest s2 r a b)

theorem stepAssign_withRest : stepAssign (s.withRest r) = (stepAssign s).map (·.withRest r) := by
  unfold stepAssign
  rw [State.withRest_assignment, State.withRest_params]
  cases s.assignment with
  | none => rfl
  | some codes =>
    dsimp only
    split_ifs <;> rfl

theorem tbStep_withRest : tbStep (s.withRest r) = (tbStep s).map (·.withRest r) := by
  have htbs := s.withRest_tbs r
  cases hs : s.tbs with
  | idle =>
    rw [tbStep_of_idle hs, tbStep_of_idle (htbs.trans hs), stepInit_withRest]
    rfl
  | merge => rw [tbStep_of_merge hs, tbStep_of_merge (htbs.trans hs), stepMerge_withRest]
  | assign => rw [tbStep_of_assign hs, tbStep_of_assign (htbs.trans hs), stepAssign_withRest]
  | done =>
    rw [tbStep_of_done hs, tbStep_of_done (htbs.trans hs)]
    rfl

end

/-- A step commutes with a change of the rest of the state. -/
theorem tbStep_of_rest {f : State → State} (hf : ∀ s r : State, f (s.withRest r) = s.withRest (f r)) (s : State) :
    tbStep (f s) = (tbStep s).map f :=
  calc tbStep (f s) = tbStep (s.withRest (f s)) := by rw [← hf, s.withRest_self]
    _ = (tbStep s).map (·.withRest (f s)) := tbStep_withRest s (f s)
    _ = ((tbStep s).map (·.withRest s)).map f := by simp only [StepResult.map_map, hf]
    _ = (tbStep s).map f := by rw [← tbStep_withRest, s.withRest_self]

/-- A step writes nothing of the rest. -/
theorem tbStep_keeps_rest {s t : State} (h : tbStep s = .stepped t) : t.withRest s = t := by
  have hmap := tbStep_withRest s s
  rw [s.withRest_self, h] at hmap
  exact (StepResult.stepped.inj hmap).symm

/-- Only the ASSIGN step reports CODE_TOO_LONG (R125). -/
theorem tbs_of_tooLong {s : State} (h : tbStep s = .tooLong) : s.tbs = .assign := by
  cases hs : s.tbs with
  | idle => exact absurd ((tbStep_of_idle hs).symm.trans h) nofun
  | merge => exact absurd ((tbStep_of_merge hs).symm.trans h) stepMerge_ne_tooLong
  | assign => rfl
  | done => exact absurd ((tbStep_of_done hs).symm.trans h) nofun

/-! ### The loop of BUILD (R128) -/

theorem runToDone_of_stepped {s t : State} (hd : s.tbs ≠ .done) (h : tbStep s = .stepped t) (n : Nat) :
    runToDone (n + 1) s = runToDone n t := by
  rw [runToDone, if_neg hd, h]

theorem runToDone_of_tooLong {s : State} (h : tbStep s = .tooLong) (n : Nat) : runToDone (n + 1) s = .tooLong := by
  have hd : s.tbs ≠ .done := fun hd => by
    rw [tbStep_of_done hd] at h
    cases h
  rw [runToDone, if_neg hd, h]

theorem runToDone_succ_stepped {n : Nat} {s t : State} (hd : s.tbs ≠ .done) (h : runToDone (n + 1) s = .stepped t) :
    ∃ u, tbStep s = .stepped u ∧ runToDone n u = .stepped t := by
  rw [runToDone, if_neg hd] at h
  cases hu : tbStep s with
  | stepped u => exact ⟨u, rfl, by rwa [hu] at h⟩
  | tooLong =>
    rw [hu] at h
    cases h
  | broken f =>
    rw [hu] at h
    cases h

theorem tbs_of_runToDone {n : Nat} {s t : State} (h : runToDone n s = .stepped t) : t.tbs = .done :=
  (runToDone_induction (P := fun _ => True) (fun _ _ _ _ => trivial) trivial h).2

theorem runToDone_withRest (n : Nat) (s r : State) : runToDone n (s.withRest r) = (runToDone n s).map (·.withRest r) := by
  induction n generalizing s with
  | zero =>
    rw [runToDone, runToDone, State.withRest_tbs]
    split_ifs <;> rfl
  | succ n ih =>
    rw [runToDone, runToDone, State.withRest_tbs, tbStep_withRest]
    split_ifs
    · rfl
    · cases tbStep s with
      | stepped t => exact ih t
      | tooLong => rfl
      | broken f => rfl

/-- Where the loop reports CODE_TOO_LONG, the step of some state on its way does. -/
theorem runToDone_tooLong_induction {P : State → Prop} (keep : ∀ s t, P s → tbStep s = .stepped t → P t) {n : Nat}
    {s : State} (hs : P s) (h : runToDone n s = .tooLong) : ∃ u, P u ∧ tbStep u = .tooLong := by
  induction n generalizing s with
  | zero =>
    rw [runToDone] at h
    split_ifs at h
  | succ n ih =>
    rw [runToDone] at h
    split_ifs at h
    cases ht : tbStep s with
    | stepped t => exact ih (keep s t hs ht) (by rwa [ht] at h)
    | tooLong => exact ⟨s, hs, ht⟩
    | broken f =>
      rw [ht] at h
      cases h

/-! ### The invariant along the loop -/

/-- The invariant of R45 but for what it says of the reset clear, which the tree builder does not read. -/
def BuilderInv (s : State) : Prop := Inv s.completeCommand

theorem Inv.builder {s : State} (h : Inv s) : BuilderInv s := h.of_contents (.of_interface ..) nofun

section
variable {s : State}

theorem tbStep_completeCommand (s : State) : tbStep s.completeCommand = (tbStep s).map State.completeCommand :=
  tbStep_of_rest (fun _ _ => rfl) s

theorem BuilderInv.step {t : State} (h : BuilderInv s) (ht : tbStep s = .stepped t) : BuilderInv t :=
  tbStep_inv h nofun (by rw [tbStep_completeCommand, ht]; rfl)

theorem BuilderInv.stepsLeft_step {t : State} (h : BuilderInv s) (hd : s.tbs ≠ .done) (ht : tbStep s = .stepped t) :
    stepsLeft t + 1 = stepsLeft s :=
  Machine.stepsLeft_step (s := s.completeCommand) (t := t.completeCommand) h hd (by rw [tbStep_completeCommand, ht]; rfl)

theorem BuilderInv.tbStep_cases (h : BuilderInv s) : tbStep s = .tooLong ∨ ∃ t, tbStep s = .stepped t := by
  cases ht : tbStep s with
  | stepped t => exact .inr ⟨t, rfl⟩
  | tooLong => exact .inl rfl
  | broken f => exact absurd (by rw [tbStep_completeCommand, ht]; rfl) (tbStep_ne_broken h (f := f))

/-- In ASSIGN the paths decide whether the step is taken. -/
theorem BuilderInv.tbStep_tooLong_iff (h : BuilderInv s) (hs : s.tbs = .assign) :
    tbStep s = .tooLong ↔ ∃ sym p, s.pathOf sym p ∧ s.params.maxlen < p.length := by
  have hc : s.completeCommand.tbs = .assign := hs
  rw [← StepResult.map_eq_tooLong (f := State.completeCommand), ← tbStep_completeCommand, tbStep_of_assign hc]
  exact stepAssign_tooLong_iff h hs

/-- With enough steps the loop ends in DONE or reports CODE_TOO_LONG. -/
theorem BuilderInv.runToDone_cases {n : Nat} (h : BuilderInv s) (hn : stepsLeft s ≤ n) :
    runToDone n s = .tooLong ∨ ∃ t, runToDone n s = .stepped t := by
  induction n generalizing s with
  | zero =>
    have hd : s.tbs = .done := stepsLeft_eq_zero (s := s.completeCommand) h (Nat.le_zero.1 hn)
    exact .inr ⟨s, runToDone_of_done hd 0⟩
  | succ n ih =>
    by_cases hd : s.tbs = .done
    · exact .inr ⟨s, runToDone_of_done hd (n + 1)⟩
    · rcases h.tbStep_cases with ht | ⟨t, ht⟩
      · exact .inl (runToDone_of_tooLong ht n)
      · have hleft := h.stepsLeft_step hd ht
        rw [runToDone_of_stepped hd ht]
        exact ih (h.step ht) (by omega)

end

/-- The state t is on the way of a build from s. -/
structure BuildFrom (s t : State) : Prop where
  inv : BuilderInv t
  frame : StepFrame s t

section
variable {s t : State}

theorem BuilderInv.buildFrom (h : BuilderInv s) : BuildFrom s s := ⟨h, .refl s⟩

theorem BuildFrom.step {u : State} (h : BuildFrom s t) (ht : tbStep t = .stepped u) : BuildFrom s u :=
  ⟨h.inv.step ht, h.frame.trans (tbStep_frame ht)⟩

/-- Once INIT is taken, NSYMS is the size of the alphabet. -/
theorem BuildFrom.nsyms (h : BuildFrom s t) (ht : t.tbs ≠ .idle) : t.nsyms.toNat = s.alphabet.length := by
  have hcount : t.nsyms.toNat = t.alphabet.length := h.inv.tree.count ht
  rw [hcount, (alphabet_eq h.frame.interface.params h.frame.freq.freq).1]

/-- Exactly the symbols of the alphabet have a code after a finished build. -/
theorem BuildFrom.hasCode_iff (h : BuildFrom s t) (hd : t.tbs = .done) {sym : Nat} (hsym : sym < s.nsym) :
    t.ctlen.read sym ≠ 0 ↔ s.freq.read sym ≠ 0 := by
  have hn : t.nsym = s.nsym := by rw [State.nsym, State.nsym, h.frame.interface.params]
  have hcode : t.ctlen.read sym ≠ 0 ↔ t.freq.read sym ≠ 0 := h.inv.table.alphabet hd sym (hn ▸ hsym)
  rw [hcode, h.frame.freq.freq]

theorem buildFrom_of_runToDone {n : Nat} (h : BuilderInv s) (ht : runToDone n s = .stepped t) :
    BuildFrom s t ∧ t.tbs = .done :=
  runToDone_induction (fun _ _ => BuildFrom.step) h.buildFrom ht

/-- With at most MAXLEN + 1 symbols no path is longer than MAXLEN. -/
theorem runToDone_ne_tooLong {n : Nat} (h : BuilderInv s) (hlen : s.alphabet.length ≤ s.params.maxlen + 1) :
    runToDone n s ≠ .tooLong := by
  intro hn
  obtain ⟨u, hfrom, hu⟩ := runToDone_tooLong_induction (fun _ _ => BuildFrom.step) h.buildFrom hn
  have hs : u.tbs = .assign := tbs_of_tooLong hu
  obtain ⟨sym, p, hp, hlong⟩ := (hfrom.inv.tbStep_tooLong_iff hs).1 hu
  have hshort : p.length < u.nsyms.toNat := pathOf_length_lt hfrom.inv hs hp
  rw [hfrom.nsyms (by rw [hs]; decide)] at hshort
  rw [hfrom.frame.interface.params] at hlong
  omega

end

/-! ### BUILD and repeated BSTEP (R127, R128) -/

/-- A report between two BSTEPs is not seen by the second. -/
theorem exec_bstep_reportOk (s : State) : exec .bstep s.reportOk = exec .bstep s := by
  show finishSteps s.reportOk (tbStep s.reportOk) = finishSteps s (tbStep s)
  rw [tbStep_of_rest (f := State.reportOk) (fun _ _ => rfl)]
  cases tbStep s <;> rfl

theorem bsteps_succ {n : Nat} {s t : State} (h : exec .bstep s = .next t) : bsteps (n + 1) s = bsteps n t := by
  rw [bsteps, List.replicate_succ, performAll, h]
  rfl

theorem bsteps_succ_reportOk (n : Nat) (s : State) : bsteps (n + 1) s.reportOk = bsteps (n + 1) s := by
  rw [bsteps, List.replicate_succ, performAll, exec_bstep_reportOk]
  rfl

/-- The steps of the loop, taken by BSTEPs, each of which reports success; under the invariant they are no more than
`stepsLeft` counts. -/
theorem bsteps_of_runToDone {m : Nat} {s t : State} (h : runToDone m s = .stepped t) :
    ∃ n ≤ m, (BuilderInv s → n ≤ stepsLeft s) ∧ bsteps n s.reportOk = .next t.reportOk := by
  induction m generalizing s with
  | zero =>
    rw [runToDone] at h
    split_ifs at h
    cases h
    exact ⟨0, Nat.le_refl 0, fun _ => Nat.zero_le _, rfl⟩
  | succ m ih =>
    by_cases hd : s.tbs = .done
    · obtain rfl := StepResult.stepped.inj ((runToDone_of_done hd (m + 1)).symm.trans h)
      exact ⟨0, Nat.zero_le _, fun _ => Nat.zero_le _, rfl⟩
    · obtain ⟨u, hu, h⟩ := runToDone_succ_stepped hd h
      obtain ⟨n, hn, hleft, hrun⟩ := ih h
      refine ⟨n + 1, by omega, fun hi => ?_, ?_⟩
      · have hstep := hi.stepsLeft_step hd hu
        have hrest := hleft (hi.step hu)
        omega
      · rw [bsteps_succ ((exec_bstep_reportOk s).trans (exec_bstep_of_stepped hu)), hrun]

theorem bsteps_one_of_done {s : State} (hd : s.tbs = .done) : bsteps 1 s = .next s.reportOk :=
  bsteps_succ (exec_bstep_of_stepped (tbStep_of_done hd))

/-- One INIT, fewer merges than there are symbols, and one ASSIGN (R128). -/
theorem stepsLeft_le_alphabet {s : State} (h : Inv s) : stepsLeft s ≤ s.alphabet.length + 1 := by
  unfold stepsLeft
  cases hs : s.tbs with
  | idle =>
    dsimp only
    split_ifs <;> omega
  | merge =>
    have hcount := h.merge.count hs
    have hlow := h.merge.low hs
    have hsize := h.tree.count (by rw [hs]; decide)
    dsimp only
    omega
  | assign => exact Nat.le_add_left ..
  | done => exact Nat.zero_le _

/-- Settles O20: the loop of BUILD takes the steps of BSTEP; in DONE, where it takes none, one BSTEP does as little. -/
theorem buildIsRepeatedBstep : Obligations.BuildIsRepeatedBstep := by
  refine ⟨build_opcode, bstep_opcode, fun s t hx hok => ?_⟩
  rcases execBuild_next hx with ⟨u, hu, rfl⟩ | ⟨-, rfl⟩
  · have hdone := tbs_of_runToDone hu
    obtain ⟨n, hn, hleft, hrun⟩ := bsteps_of_runToDone hu
    refine ⟨hdone, ?_⟩
    cases n with
    | zero =>
      have hsame : s.reportOk = u.reportOk := Host.Outcome.next.inj hrun
      refine ⟨1, Nat.le_refl 1, by omega, fun _ => by omega, ?_⟩
      rw [← bsteps_succ_reportOk, hsame]
      exact bsteps_one_of_done hdone
    | succ n =>
      refine ⟨n + 1, by omega, hn, fun hi => ?_, (bsteps_succ_reportOk n s).symm.trans hrun⟩
      obtain ⟨hfrom, -⟩ := buildFrom_of_runToDone hi.builder hu
      calc n + 1 ≤ stepsLeft s := hleft hi.builder
        _ ≤ s.alphabet.length + 1 := stepsLeft_le_alphabet hi
        _ = u.reportOk.nsyms.toNat + 1 := by rw [State.reportOk_nsyms, hfrom.nsyms (by rw [hdone]; decide)]
  · cases hok

/-! ### How BUILD ends (R128, R142) -/

/-- A BSTEP, whether it takes a step or reports CODE_TOO_LONG, leaves the loop of BUILD what is left of it. -/
theorem runToDone_of_bstep {m : Nat} {s t : State} (h : BuilderInv s) (hm : stepsLeft s ≤ m)
    (hx : exec .bstep s = .next t) :
    BuilderInv t ∧ ∃ k, stepsLeft t ≤ k ∧ runToDone m s = (runToDone k t).map (·.withRest s) := by
  rcases execBstep_next hx with ⟨u, hu, rfl⟩ | ⟨-, rfl⟩
  · refine ⟨reportOk_inv (h.step hu), ?_⟩
    have hrest : u.reportOk.withRest s = u := tbStep_keeps_rest hu
    by_cases hd : s.tbs = .done
    · obtain rfl := StepResult.stepped.inj ((tbStep_of_done hd).symm.trans hu)
      exact ⟨m, hm, runToDone_withRest m s.reportOk s⟩
    · have hleft := h.stepsLeft_step hd hu
      obtain ⟨k, rfl⟩ : ∃ k, m = k + 1 := ⟨m - 1, by omega⟩
      refine ⟨k, show stepsLeft u ≤ k by omega, ?_⟩
      rw [runToDone_of_stepped hd hu, ← runToDone_withRest, hrest]
  · exact ⟨reportErr_inv h _, m, hm, runToDone_withRest m (s.reportErr .codeTooLong) s⟩

theorem runToDone_of_assign {m : Nat} {s : State} (h : BuilderInv s) (hs : s.tbs = .assign) :
    runToDone (m + 1) s = tbStep s := by
  have hd : s.tbs ≠ .done := by rw [hs]; decide
  rcases h.tbStep_cases with ht | ⟨t, ht⟩
  · rw [runToDone_of_tooLong ht, ht]
  · rw [runToDone_of_stepped hd ht, ht]
    exact runToDone_of_done (stepAssign_tree ((tbStep_of_assign hs).symm.trans ht)).1 m

/-- Where BSTEPs have led to ASSIGN, the step from there is the last of the loop. -/
theorem runToDone_of_bsteps {n m : Nat} {s u : State} (h : BuilderInv s) (hm : stepsLeft s ≤ m)
    (hu : bsteps n s = .next u) (hs : u.tbs = .assign) :
    BuilderInv u ∧ u.params = s.params ∧ runToDone m s = (tbStep u).map (·.withRest s) := by
  induction n generalizing s m with
  | zero =>
    obtain rfl := Host.Outcome.next.inj hu
    have hleft : stepsLeft s = 1 := by rw [stepsLeft, hs]
    obtain ⟨k, rfl⟩ : ∃ k, m = k + 1 := ⟨m - 1, by omega⟩
    exact ⟨h, rfl, (runToDone_of_assign h hs).trans (tbStep_withRest s s)⟩
  | succ n ih =>
    cases hx : exec .bstep s with
    | next t =>
      obtain ⟨ht, k, hk, hrun⟩ := runToDone_of_bstep h hm hx
      obtain ⟨hinv, hparams, hend⟩ := ih ht hk ((bsteps_succ hx).symm.trans hu)
      refine ⟨hinv, hparams.trans (exec_effect hx).params, ?_⟩
      simp only [hrun, hend, StepResult.map_map, State.withRest_withRest]
    | fault f =>
      rw [bsteps, List.replicate_succ, performAll, hx] at hu
      cases hu
    | refused r =>
      rw [bsteps, List.replicate_succ, performAll, hx] at hu
      cases hu

/-- Settles O21: the loop has steps enough; the step in ASSIGN, which the paths decide, is its last. -/
theorem buildCompletes : Obligations.BuildCompletes := by
  refine ⟨fun s h => ?_, fun s h hlen => ?_, fun s u n h hu hs => ?_⟩
  · rcases h.builder.runToDone_cases (stepsLeft_le h) with ht | ⟨t, ht⟩
    · exact .inl (exec_build_of_tooLong ht)
    · obtain ⟨hfrom, hdone⟩ := buildFrom_of_runToDone h.builder ht
      exact .inr ⟨_, exec_build_of_stepped ht, hdone, rfl, hfrom.frame.sticky⟩
  · obtain ⟨t, ht⟩ := (h.builder.runToDone_cases (stepsLeft_le h)).resolve_left (runToDone_ne_tooLong h.builder hlen)
    obtain ⟨hfrom, hdone⟩ := buildFrom_of_runToDone h.builder ht
    have hframe := hfrom.frame.reportOk
    exact ⟨_, exec_build_of_stepped ht, hdone, hfrom.nsyms (by rw [hdone]; decide), fun _ => hfrom.hasCode_iff hdone,
      ⟨rfl, hframe.sticky⟩, hframe.freq, hframe.bits, hframe.packed, hframe.results, hframe.interface, hframe.eos⟩
  · obtain ⟨hinv, hparams, hrun⟩ := runToDone_of_bsteps h.builder (stepsLeft_le h) hu hs
    have hiff := hinv.tbStep_tooLong_iff hs
    rw [hparams] at hiff
    refine ⟨fun hshort => ?_, fun hlong => ?_⟩
    · obtain ⟨t, ht⟩ := hinv.tbStep_cases.resolve_left fun hn => by
        obtain ⟨sym, p, hp, hlt⟩ := hiff.1 hn
        exact absurd hlt (Nat.not_lt.2 (hshort sym p hp))
      rw [ht] at hrun
      obtain ⟨hdone, hnode, -, -, hroot⟩ := stepAssign_tree ((tbStep_of_assign hs).symm.trans ht)
      exact ⟨_, exec_build_of_stepped hrun, hdone, hnode, hroot, rfl, rfl⟩
    · exact exec_build_of_tooLong (by rw [hrun, hiff.2 hlong]; rfl)

/-! ### What a build depends on (R131) -/

/-- In IDLE there is nothing but the counts for the tree builder to read (R45 item 2). -/
theorem Inv.eq_withRest_of_idle {s t : State} (h : Inv s) (ht : Inv t) (hs : s.tbs = .idle) (hts : t.tbs = .idle)
    (hf : s.freq = t.freq) (hp : s.params = t.params) : t = s.withRest t := by
  have hne : s.tbs ≠ .done := by rw [hs]; decide
  have htne : t.tbs ≠ .done := by rw [hts]; decide
  unfold State.withRest
  rw [hp, hf, hs.trans hts.symm, (h.idle.node hs).trans (ht.idle.node hts).symm,
    (h.idle.inq hs).trans (ht.idle.inq hts).symm, (h.idle.nsyms hs).trans (ht.idle.nsyms hts).symm,
    (h.idle.root hs).trans (ht.idle.root hts).symm, (h.codes.ctlen hne).trans (ht.codes.ctlen htne).symm,
    (h.codes.ctcode hne).trans (ht.codes.ctcode htne).symm]

/-- BUILD builds the same and reports the same whatever the rest of the state. -/
theorem exec_build_withRest {s t : State} (r : State) (hx : exec .build s = .next t) :
    ∃ t', exec .build (s.withRest r) = .next t' ∧ SameTree t t' ∧ SameCodeTable t t' ∧ t'.err = t.err := by
  have hrun := runToDone_withRest (s.nsym + 1) s r
  rcases execBuild_next hx with ⟨u, hu, rfl⟩ | ⟨hu, rfl⟩
  · rw [hu] at hrun
    exact ⟨_, exec_build_of_stepped hrun, ⟨rfl, rfl, rfl, rfl, rfl⟩, ⟨rfl, rfl⟩, rfl⟩
  · rw [hu] at hrun
    exact ⟨_, exec_build_of_tooLong hrun, ⟨rfl, rfl, rfl, rfl, rfl⟩, ⟨rfl, rfl⟩, rfl⟩

/-- Settles O22: in IDLE two states with the same counts differ in what the tree builder neither reads nor writes. -/
theorem buildDependsOnFrequenciesAlone : Obligations.BuildDependsOnFrequenciesAlone := by
  intro s s' t t' h h' hs hs' hf hp hx hx'
  obtain ⟨u, hu, htree, hcodes, herr⟩ := exec_build_withRest s' hx
  rw [← h.eq_withRest_of_idle h' hs hs' hf hp, hx'] at hu
  obtain rfl := Host.Outcome.next.inj hu
  exact ⟨htree.node.symm, htree.root.symm, hcodes.ctlen.symm, hcodes.ctcode.symm, htree.tbs.symm, herr.symm⟩

/-! ### TNODE (R129) -/

/-- Two flags above 30 bits. -/
theorem toNat_flags_or {x v : Word} (hx : x.toNat < 4) (hv : v.toNat < 2 ^ 30) :
    (x <<< 30 ||| v).toNat = x.toNat * 2 ^ 30 + v.toNat := by
  have hfit : x.toNat <<< 30 < 2 ^ 32 := by rw [Nat.shiftLeft_eq]; omega
  rw [BitVec.toNat_or, BitVec.toNat_shiftLeft, Nat.mod_eq_of_lt hfit, ← Nat.shiftLeft_add_eq_or_of_lt hv, Nat.shiftLeft_eq]

/-- RES1 of TNODE as the sum of its fields. -/
theorem tnodeWord_toNat (queued : BitVec 1) {nd : Node} (h : nd.leaf = false → nd.left.toNat < 2 ^ 30) :
    (tnodeWord queued nd).toNat = nd.leaf.toNat * 2 ^ 31 + queued.toNat * 2 ^ 30
      + (if nd.leaf then nd.sym.toNat else nd.left.toNat) := by
  have hq : (queued.setWidth 32).toNat = queued.toNat := BitVec.toNat_setWidth_of_le (by decide)
  have hqlt := queued.isLt
  unfold tnodeWord
  cases hl : nd.leaf
  · simp only [Bool.false_eq_true, if_false]
    rw [toNat_flags_or (by omega) (h hl), hq, Bool.toNat_false, Nat.zero_mul, Nat.zero_add]
  · have hflags : 0x80000000#32 ||| (queued.setWidth 32 <<< 30) = (2 + queued.setWidth 32) <<< 30 := by
      clear hq hqlt
      revert queued
      decide
    have hsum : (2 + queued.setWidth 32 : Word).toNat = 2 + queued.toNat := by
      rw [BitVec.toNat_add, hq]
      exact Nat.mod_eq_of_lt (show 2 + queued.toNat < 2 ^ 32 by omega)
    have hsym : (nd.sym.setWidth 32).toNat = nd.sym.toNat := BitVec.toNat_setWidth_of_le (by decide)
    have hsymlt := nd.sym.isLt
    simp only [if_true]
    rw [hflags, toNat_flags_or (by omega) (by omega), hsum, hsym, Bool.toNat_true]
    omega

section
variable (queued : BitVec 1) {nd : Node} (h : nd.leaf = false → nd.left.toNat < 2 ^ 30)
include h

/-- The symbol or the left slot leaves the two flags clear. -/
theorem tnodeField_lt : (if nd.leaf then nd.sym.toNat else nd.left.toNat) < 2 ^ 30 := by
  have hsym := nd.sym.isLt
  cases hl : nd.leaf
  · exact h hl
  · rw [if_pos rfl]
    omega

theorem tnodeWord_leafBit : (tnodeWord queued nd).getLsbD 31 = nd.leaf := by
  have hfield := tnodeField_lt h
  have hqueued := queued.isLt
  refine getLsbD_eq_of_toNat ?_
  rw [tnodeWord_toNat queued h]
  have hleaf := nd.leaf.toNat_lt
  omega

theorem tnodeWord_queueBit : (tnodeWord queued nd).getLsbD 30 = decide (queued = 1) := by
  have hfield := tnodeField_lt h
  have hbit : (decide (queued = 1)).toNat = queued.toNat := by
    revert queued
    decide
  refine getLsbD_eq_of_toNat ?_
  rw [tnodeWord_toNat queued h, hbit]
  have hqueued := queued.isLt
  omega

theorem tnodeWord_low :
    ((tnodeWord queued nd).extractLsb' 0 30).toNat = if nd.leaf then nd.sym.toNat else nd.left.toNat := by
  have hfield := tnodeField_lt h
  rw [BitVec.extractLsb'_toNat, Nat.shiftRight_zero, tnodeWord_toNat queued h]
  omega

end

/-- Settles O23: a slot at or above NNODES has no entry; of a valid slot, RES1 holds the three fields of R129. -/
theorem treeNodeResult : Obligations.TreeNodeResult := by
  refine ⟨tnode_opcode, fun s => ⟨fun hge => ?_, fun nd hnd hleft => ?_⟩⟩
  · have hnone : s.node[s.dataSlot]? = none := List.getElem?_eq_none hge
    show execTnode s = _
    rw [execTnode, hnone]
    rfl
  · have hx : exec .tnode s = succeed { s with
        res0 := nd.freq
        res1 := tnodeWord (s.inq.read s.dataSlot) nd
        res2 := if nd.leaf then 0 else nd.right } := by
      have hnd : s.node[s.dataSlot]? = some nd := hnd
      show execTnode s = _
      rw [execTnode, hnd]
    have hframe := (exec_effect hx).results_frame
    exact ⟨_, hx, rfl, tnodeWord_leafBit _ hleft, tnodeWord_queueBit _ hleft, tnodeWord_low _ hleft, rfl, ⟨rfl, rfl⟩,
      hframe.freq, hframe.tree, hframe.codes, hframe.bits, hframe.packed, hframe.interface, hframe.eos⟩

end Sys2Proof.Machine

namespace Sys2Proof.Machine

/-! ## The code table (R147, R148)

The checks of LOOKUP and DLOOKUP in their order, one equation for each way they end. -/

section
variable {s : State} {sym len : Nat}

theorem tv_eq_false (h : s.tbs ≠ .done) : s.tv = false := decide_eq_false h

theorem tv_ne_false (h : s.tbs = .done) : s.tv ≠ false := by
  rw [State.tv, decide_eq_true h]
  decide

/-! ### LOOKUP -/

/-- The length and the code of a symbol in the result registers (R147). -/
def State.lookupResults (s : State) (sym : Nat) : State :=
  { s with
    res0 := (s.ctlen.read sym).setWidth 32
    res1 := (s.ctcode.read sym).extractLsb' 0 32
    res2 := (s.ctcode.read sym).extractLsb' 32 32 }

theorem execLookup_badSymbol (h : s.nsym ≤ sym) : execLookup sym s = raise .badSymbol s := if_pos h

theorem execLookup_unavailable (h : sym < s.nsym) (hs : s.tbs ≠ .done) :
    execLookup sym s = raise .codeTableUnavailable s := by
  rw [execLookup, if_neg (Nat.not_le.2 h), if_pos (tv_eq_false hs)]

theorem execLookup_unknownSymbol (h : sym < s.nsym) (hs : s.tbs = .done) (hl : s.ctlen.read sym = 0) :
    execLookup sym s = raise .unknownSymbol s := by
  rw [execLookup, if_neg (Nat.not_le.2 h), if_neg (tv_ne_false hs), if_pos hl]

theorem execLookup_succeeds (h : sym < s.nsym) (hs : s.tbs = .done) (hl : s.ctlen.read sym ≠ 0) :
    execLookup sym s = succeed (s.lookupResults sym) := by
  rw [execLookup, if_neg (Nat.not_le.2 h), if_neg (tv_ne_false hs), if_neg hl, State.lookupResults]

/-- A length fits RES0. -/
theorem lookupResults_length (s : State) (sym : Nat) :
    (s.lookupResults sym).res0.toNat = (s.ctlen.read sym).toNat :=
  BitVec.toNat_setWidth_of_le (by decide)

/-- RES2 and RES1 are the two halves of the code register. -/
theorem lookupResults_code (s : State) (sym : Nat) :
    (s.lookupResults sym).res2 ++ (s.lookupResults sym).res1 = s.ctcode.read sym :=
  calc (s.ctcode.read sym).extractLsb' 32 32 ++ (s.ctcode.read sym).extractLsb' 0 32
      = (s.ctcode.read sym).extractLsb' 0 64 := BitVec.extractLsb'_append_extractLsb'_eq_extractLsb' rfl
    _ = s.ctcode.read sym := BitVec.extractLsb'_eq_self

/-! ### DLOOKUP -/

/-- The code operand is the low bits of DATA; `bitsOf` reads no others (R87). -/
theorem dataCode_eq (s : State) (len : Nat) : s.dataCode len = bitsOf len s.data.toNat := bitsOf_mod len s.data.toNat

theorem execDlookup_unavailable (hs : s.tbs ≠ .done) : execDlookup len s = raise .codeTableUnavailable s :=
  if_pos (tv_eq_false hs)

theorem execDlookup_range (hs : s.tbs = .done) (h : len = 0 ∨ 32 < len) : execDlookup len s = raise .range s := by
  rw [execDlookup, if_neg (tv_ne_false hs), if_pos h]

theorem execDlookup_noMatch (hs : s.tbs = .done) (h1 : 1 ≤ len) (h32 : len ≤ 32)
    (hd : s.dt (bitsOf len s.data.toNat) = none) : execDlookup len s = raise .noMatch s := by
  rw [execDlookup, if_neg (tv_ne_false hs), if_neg (by omega), dataCode_eq, hd]

theorem execDlookup_succeeds (hs : s.tbs = .done) (h1 : 1 ≤ len) (h32 : len ≤ 32)
    (hd : s.dt (bitsOf len s.data.toNat) = some sym) :
    execDlookup len s = succeed { s with res0 := BitVec.ofNat 32 sym } := by
  rw [execDlookup, if_neg (tv_ne_false hs), if_neg (by omega), dataCode_eq, hd]

end

/-! ### The results -/

/-- Settles O24: each check in its order, and the result registers where all pass. -/
theorem lookupResult : Obligations.LookupResult := by
  refine ⟨lookup_opcode, fun s sym => ⟨execLookup_badSymbol, execLookup_unavailable, execLookup_unknownSymbol,
    fun h hs hl => ?_⟩⟩
  have hx : exec (.lookup sym) s = .next (s.lookupResults sym).reportOk := execLookup_succeeds h hs hl
  have hframe := (exec_effect hx).results_frame
  exact ⟨_, hx, lookupResults_length s sym, lookupResults_code s sym, ⟨rfl, rfl⟩, hframe.freq, hframe.tree, hframe.codes,
    hframe.bits, hframe.packed, hframe.interface, hframe.eos⟩

/-- Settles O26: each check in its order, and the symbol of the decode table where all pass. -/
theorem decodeLookupResult : Obligations.DecodeLookupResult :=
  ⟨dlookup_opcode, fun _ _ => ⟨execDlookup_unavailable, execDlookup_range, execDlookup_noMatch,
    fun hs h1 h32 _ hd => execDlookup_succeeds hs h1 h32 hd⟩⟩

end Sys2Proof.Machine

namespace Sys2Proof.Machine

/-! ## The commands that write a buffer (R160, R180, R181, R183, R194 to R196, R198) -/

/-- What the commands that write a buffer leave alone, beside the buffer they do not write: everything but the buffers, ERR
and STICKY. -/
structure BufferFrame (s t : State) : Prop where
  freq : SameFrequency s t
  tree : SameTree s t
  codes : SameCodeTable s t
  results : SameResults s t
  interface : SameInterface s t
  eos : t.eos = s.eos

theorem BufferFrame.of_buffers (s : State) (b : Bits) (p : Word) (c : List Byte) (q : Word) (e : Err) (sticky : Bool) :
    BufferFrame s { s with bitbuf := b, brp := p, pbuf := c, prp := q, err := e, sticky := sticky } :=
  ⟨⟨rfl, rfl⟩, ⟨rfl, rfl, rfl, rfl, rfl⟩, ⟨rfl, rfl⟩, ⟨rfl, rfl, rfl⟩, ⟨rfl, rfl, rfl, rfl, rfl, rfl, rfl, rfl⟩, rfl⟩

section
variable {s t : State}

theorem Effect.writeBits_frame (h : Effect s .writeBits t) : BufferFrame s t ∧ SamePacked s t := by
  cases h <;> exact ⟨.of_buffers .., rfl, rfl⟩

theorem Effect.writeBytes_frame (h : Effect s .writeBytes t) : BufferFrame s t ∧ SameBits s t := by
  cases h <;> exact ⟨.of_buffers .., rfl, rfl⟩

/-- ENC stores from BLEN on (R160). -/
theorem execEnc_extends {sym : Nat} (h : execEnc sym s = .next t) : t.brp = s.brp ∧ s.bitbuf <+: t.bitbuf := by
  rcases execEnc_next h with ⟨-, rfl⟩ | ⟨-, -, rfl⟩ | ⟨-, -, -, rfl⟩ | ⟨-, -, -, -, rfl⟩ | ⟨-, -, -, -, rfl⟩
  iterate 4 exact ⟨rfl, [], List.append_nil _⟩
  exact ⟨rfl, _, rfl⟩

/-- BPUT stores at BLEN (R181). -/
theorem execBput_extends {bit : Bool} (h : execBput bit s = .next t) : t.brp = s.brp ∧ s.bitbuf <+: t.bitbuf := by
  rcases execBput_next h with ⟨-, rfl⟩ | ⟨-, rfl⟩
  · exact ⟨rfl, [], List.append_nil _⟩
  · exact ⟨rfl, _, rfl⟩

/-- PWR stores at PLEN (R195). -/
theorem execPwr_extends (h : execPwr s = .next t) : t.prp = s.prp ∧ s.pbuf <+: t.pbuf := by
  rcases execPwr_next h with ⟨-, rfl⟩ | ⟨-, rfl⟩
  · exact ⟨rfl, [], List.append_nil _⟩
  · exact ⟨rfl, _, rfl⟩

end

/-- A buffer that is extended keeps its entries. -/
theorem getElem?_of_extends {α : Type} {l l' : List α} (h : l <+: l') {k : Nat} (hk : k < l.length) : l'[k]? = l[k]? := by
  obtain ⟨new, rfl⟩ := h
  exact List.getElem?_append_left hk

/-- Settles O41: each command has the frame of its family, and ENC, BPUT and PWR extend their buffer. -/
theorem bufferWritesFrame : Obligations.BufferWritesFrame := by
  intro i s t hx hi
  have he := exec_effect hx
  have hframe : BufferFrame s t := by
    rcases hi with rfl | rfl | rfl | rfl | rfl | rfl | ⟨bit, rfl⟩ | ⟨sym, rfl⟩
    · exact he.writeBits_frame.1
    · exact he.writeBits_frame.1
    · exact he.writeBytes_frame.1
    · exact he.writeBytes_frame.1
    · exact he.writeBytes_frame.1
    · exact he.writeBits_frame.1
    · exact he.writeBits_frame.1
    · exact he.writeBits_frame.1
  refine ⟨hframe.freq, hframe.tree, hframe.codes, hframe.results, hframe.interface, hframe.eos, ?_, ?_, ?_, ?_, ?_⟩
  · rintro (rfl | rfl | rfl) <;> exact he.writeBytes_frame.2
  · rintro (rfl | rfl | rfl | ⟨bit, rfl⟩ | ⟨sym, rfl⟩) <;> exact he.writeBits_frame.2
  · intro hput
    have hext : t.brp = s.brp ∧ s.bitbuf <+: t.bitbuf := by
      rcases hput with ⟨bit, rfl⟩ | ⟨sym, rfl⟩
      · exact execBput_extends hx
      · exact execEnc_extends hx
    exact hext.imp_right fun hb _ => getElem?_of_extends hb
  · rintro rfl
    cases execBrwd_next hx
    rfl
  · rintro rfl
    exact (execPwr_extends hx).imp_right fun hb _ => getElem?_of_extends hb

/-! ## The encoder (R160, R161) -/

section
variable {s : State} {sym : Nat}

/-- The code of a symbol stored at the end of the bit buffer, and success reported (R160). -/
def State.appendCode (s : State) (sym : Nat) : State := State.reportOk { s with bitbuf := s.bitbuf ++ s.codeOf sym }

theorem exec_enc_badSymbol (h : s.nsym ≤ sym) : reports (.enc sym) s .badSymbol := if_pos h

theorem exec_enc_unavailable (h : sym < s.nsym) (hs : s.tbs ≠ .done) : reports (.enc sym) s .codeTableUnavailable := by
  show execEnc sym s = raise .codeTableUnavailable s
  rw [execEnc, if_neg (Nat.not_le.2 h), if_pos (tv_eq_false hs)]

theorem exec_enc_unknownSymbol (h : sym < s.nsym) (hs : s.tbs = .done) (hl : s.ctlen.read sym = 0) :
    reports (.enc sym) s .unknownSymbol := by
  show execEnc sym s = raise .unknownSymbol s
  rw [execEnc, if_neg (Nat.not_le.2 h), if_neg (tv_ne_false hs), if_pos hl]

theorem exec_enc_overflow (h : sym < s.nsym) (hs : s.tbs = .done) (hl : s.ctlen.read sym ≠ 0)
    (hfull : s.params.maxbits < s.blen + (s.ctlen.read sym).toNat) : reports (.enc sym) s .bitbufOverflow := by
  show execEnc sym s = raise .bitbufOverflow s
  rw [execEnc, if_neg (Nat.not_le.2 h), if_neg (tv_ne_false hs), if_neg hl, if_pos hfull]

theorem exec_enc_succeeds (h : sym < s.nsym) (hs : s.tbs = .done) (hl : s.ctlen.read sym ≠ 0)
    (hfit : s.blen + (s.ctlen.read sym).toNat ≤ s.params.maxbits) : exec (.enc sym) s = .next (s.appendCode sym) := by
  show execEnc sym s = _
  rw [execEnc, if_neg (Nat.not_le.2 h), if_neg (tv_ne_false hs), if_neg hl, if_neg (Nat.not_lt.2 hfit)]
  rfl

/-- BLEN grows by the length of the code (R160). -/
theorem appendCode_blen (s : State) (sym : Nat) : (s.appendCode sym).blen = s.blen + (s.ctlen.read sym).toNat :=
  calc (s.bitbuf ++ s.codeOf sym).length = s.bitbuf.length + (s.codeOf sym).length := List.length_append
    _ = s.blen + (s.ctlen.read sym).toNat := by rw [codeOf_length, State.blen]

/-- The bits stored are those of CTCODE, most significant first (R160). -/
theorem appendCode_bit {j : Nat} (h : j < (s.ctlen.read sym).toNat) :
    (s.appendCode sym).bitbuf[s.blen + j]? = some ((s.ctcode.read sym).getLsbD ((s.ctlen.read sym).toNat - 1 - j)) :=
  calc (s.bitbuf ++ s.codeOf sym)[s.bitbuf.length + j]? = (s.codeOf sym)[j]? := by
        rw [List.getElem?_append_right (Nat.le_add_right ..), Nat.add_sub_cancel_left]
    _ = some ((s.ctcode.read sym).getLsbD ((s.ctlen.read sym).toNat - 1 - j)) := bitsOf_getElem? h

end

/-- Settles O27: each check in its order, and the bits of the code at the end of the buffer where all pass. -/
theorem encodeResult : Obligations.EncodeResult := by
  refine ⟨enc_opcode, fun s sym => ⟨exec_enc_badSymbol, exec_enc_unavailable, exec_enc_unknownSymbol, exec_enc_overflow,
    fun h hs hl hfit => ?_⟩⟩
  have hx := exec_enc_succeeds h hs hl hfit
  obtain ⟨hframe, hpacked⟩ := (exec_effect hx).writeBits_frame
  obtain ⟨hbrp, hbits⟩ := execEnc_extends hx
  exact ⟨_, hx, appendCode_blen s sym, fun _ => getElem?_of_extends hbits, fun _ => appendCode_bit, hbrp, ⟨rfl, rfl⟩,
    hframe.freq, hframe.tree, hframe.codes, hpacked, hframe.results, hframe.interface, hframe.eos⟩

/-! ### Texts (R161) -/

/-- The codes of a text stored at the end of the bit buffer; an empty text leaves ERR alone. -/
def State.appendCodes (s : State) (text : List Nat) : State :=
  { s with bitbuf := s.bitbuf ++ s.codesOf text, err := if text = [] then s.err else .ok }

theorem appendCodes_nil (s : State) : s.appendCodes [] = s := by
  rw [State.appendCodes, State.codesOf, List.flatMap_nil, List.append_nil, if_pos rfl]

/-- A text is stored symbol by symbol: ENC leaves the code table alone. -/
theorem appendCodes_cons (s : State) (sym : Nat) (text : List Nat) :
    s.appendCodes (sym :: text) = (s.appendCode sym).appendCodes text := by
  have hbits : s.bitbuf ++ s.codesOf (sym :: text) = (s.bitbuf ++ s.codeOf sym) ++ s.codesOf text := by
    rw [State.codesOf, List.flatMap_cons, List.append_assoc, State.codesOf]
  have herr : (if text = [] then (s.appendCode sym).err else .ok) = .ok := ite_self _
  rw [State.appendCodes, State.appendCodes, hbits, herr, if_neg (List.cons_ne_nil sym text)]
  rfl

/-- Every text that fits is stored, by one ENC a symbol. -/
theorem performAll_enc {text : List Nat} {s : State} (hs : s.tbs = .done)
    (hcodes : ∀ sym ∈ text, sym < s.nsym ∧ s.ctlen.read sym ≠ 0)
    (hfit : s.blen + (s.codesOf text).length ≤ s.params.maxbits) :
    performAll (text.map .enc) s = .next (s.appendCodes text) := by
  induction text generalizing s with
  | nil => rw [appendCodes_nil]; rfl
  | cons sym text ih =>
    obtain ⟨⟨hsym, hl⟩, htext⟩ := List.forall_mem_cons.1 hcodes
    have hlen : (s.codesOf (sym :: text)).length = (s.ctlen.read sym).toNat + (s.codesOf text).length := by
      rw [State.codesOf, List.flatMap_cons, List.length_append, codeOf_length, State.codesOf]
    have hrest : (s.appendCode sym).blen + (s.codesOf text).length ≤ s.params.maxbits := by
      rw [appendCode_blen]
      omega
    rw [List.map_cons, performAll, exec_enc_succeeds hsym hs hl (by omega), appendCodes_cons]
    exact ih hs htext hrest

/-- Settles O30: the ENCs of a text store its codes one after the other. -/
theorem encodingATextConcatenates : Obligations.EncodingATextConcatenates := by
  intro text s hs hcodes hfit
  exact ⟨_, performAll_enc hs hcodes hfit, rfl, rfl, rfl, rfl, rfl, ⟨rfl, rfl⟩, ⟨rfl, rfl, rfl, rfl, rfl⟩, ⟨rfl, rfl⟩,
    ⟨rfl, rfl⟩, ⟨rfl, rfl, rfl⟩, ⟨rfl, rfl, rfl, rfl, rfl, rfl, rfl, rfl⟩⟩

end Sys2Proof.Machine

namespace Sys2Proof.Machine

/-! ## The decoder (R170 to R174) -/

section
variable {s : State} {sym : Nat} {rest : Bits}

/-- The state after DEC of a symbol whose code is at BRP: the symbol stands in RES0, BRP is past its code, and success is
reported (R170). -/
def State.decoded (s : State) (sym : Nat) : State :=
  State.reportOk { s with
    res0 := BitVec.ofNat 32 sym, brp := BitVec.ofNat 32 (s.brp.toNat + (s.ctlen.read sym).toNat), eos := false }

/-! ### The ways DEC ends -/

theorem exec_dec_unavailable (hs : s.tbs ≠ .done) : reports .dec s .codeTableUnavailable := if_pos (tv_eq_false hs)

/-- No bits are left (R172). -/
theorem exec_dec_endOfStream (hs : s.tbs = .done) (hend : s.bitbuf.drop s.brp.toNat = []) :
    exec .dec s = .next { s with eos := true, err := .ok } := by
  show execDec s = _
  rw [execDec, if_neg (tv_ne_false hs), hend]
  rfl

/-- Bits are left, and no code is at their head (R172, R173). -/
theorem exec_dec_truncated (hs : s.tbs = .done) (hleft : s.bitbuf.drop s.brp.toNat ≠ [])
    (hno : ∀ sym < s.nsym, s.ctlen.read sym ≠ 0 → ¬ (s.codeOf sym <+: s.bitbuf.drop s.brp.toNat)) :
    reports .dec s .truncatedStream := by
  show execDec s = raise .truncatedStream s
  rw [execDec, if_neg (tv_ne_false hs), decLoop_truncated (cand := []) hno hleft]

/-- A code is at the head of the bits left (R170, R171). -/
theorem exec_dec_code (ht : TableComplete s) (hs : s.tbs = .done) (h : sym < s.nsym) (hl : s.ctlen.read sym ≠ 0)
    (hbits : s.bitbuf.drop s.brp.toNat = s.codeOf sym ++ rest) : exec .dec s = .next (s.decoded sym) := by
  have hne : s.codeOf sym ≠ [] := by
    rwa [← List.length_pos_iff_ne_nil, codeOf_length, Nat.pos_iff_ne_zero, ← ctlen_ne_zero_iff]
  show execDec s = _
  rw [execDec, if_neg (tv_ne_false hs), hbits, decLoop_code ht hs h hl (List.nil_append _) hne]
  rfl

/-! ### The state after a symbol -/

/-- A symbol fits RES0. -/
theorem decoded_res0 (hp : s.params.wf) (h : sym < s.nsym) : (s.decoded sym).res0.toNat = sym :=
  toNat_ofNat_word (by have := nsym_le hp; omega)

/-- BRP does not wrap: the code it moves over is stored below MAXBITS (R8, R45 item 9). -/
theorem decoded_brp (hp : s.params.wf) (hb : BufferBounds s) (hl : s.ctlen.read sym ≠ 0)
    (hbits : s.bitbuf.drop s.brp.toNat = s.codeOf sym ++ rest) :
    (s.decoded sym).brp.toNat = s.brp.toNat + (s.ctlen.read sym).toNat := by
  obtain ⟨-, -, ⟨-, hmax⟩, -⟩ := hp
  have hlen : s.blen - s.brp.toNat = (s.ctlen.read sym).toNat + rest.length := by
    rw [State.blen, ← List.length_drop, hbits, List.length_append, codeOf_length]
  have hblen := hb.blen
  have hpos := ctlen_ne_zero_iff.1 hl
  exact toNat_ofNat_word (by omega)

/-- The bits left after a symbol are those behind its code. -/
theorem decoded_bitsLeft (hp : s.params.wf) (hb : BufferBounds s) (hl : s.ctlen.read sym ≠ 0)
    (hbits : s.bitbuf.drop s.brp.toNat = s.codeOf sym ++ rest) :
    (s.decoded sym).bitbuf.drop (s.decoded sym).brp.toNat = rest :=
  calc (s.decoded sym).bitbuf.drop (s.decoded sym).brp.toNat
      = (s.bitbuf.drop s.brp.toNat).drop (s.codeOf sym).length := by
        rw [decoded_brp hp hb hl hbits, List.drop_drop, codeOf_length]
        rfl
    _ = rest := by rw [hbits, List.drop_left]

/-- DEC leaves the counts and the code table alone. -/
theorem TableComplete.decoded (ht : TableComplete s) (sym : Nat) : TableComplete (s.decoded sym) :=
  ⟨ht.alphabet, ht.bound, ht.value, ht.free⟩

end

/-! ### One DEC -/

/-- Settles O28: the table is checked, then the end of the stream; a code at the head of the bits left is recognised. -/
theorem decodeResult : Obligations.DecodeResult := by
  refine ⟨dec_opcode, fun _ => exec_dec_unavailable, fun s hs hend => ?_, fun s sym rest hp ht hb hs h hl hbits => ?_⟩
  · exact exec_dec_endOfStream hs (List.drop_eq_nil_of_le hend.ge)
  · have hx := exec_dec_code ht hs h hl hbits
    obtain ⟨hframe, hprp⟩ := (exec_effect hx).readBits_frame
    exact ⟨_, hx, decoded_res0 hp h, decoded_brp hp hb hl hbits, rfl, hframe.res1, hframe.res2, hframe.bitbuf, ⟨rfl, rfl⟩,
      hframe.freq, hframe.tree, hframe.codes, ⟨hframe.pbuf, hprp⟩, hframe.interface⟩

/-- Settles O29: the loop of DEC finds no code, and the error has no other effect. -/
theorem truncatedStreamIsReported : Obligations.TruncatedStreamIsReported := fun _ => exec_dec_truncated

/-! ### Streams (R174) -/

/-- Settles O31, by induction on the text: each DEC takes the code of one symbol off the bits left, and the one after the
last finds none left. -/
theorem decodingAStreamReturnsItsText : Obligations.DecodingAStreamReturnsItsText := by
  intro text
  induction text with
  | nil =>
    intro s _ _ _ hs _ hbits
    exact ⟨_, exec_dec_endOfStream hs hbits, rfl, rfl, rfl⟩
  | cons sym text ih =>
    intro s hp ht hb hs hcodes hbits
    obtain ⟨⟨hsym, hl⟩, htext⟩ := List.forall_mem_cons.1 hcodes
    have hhead : s.bitbuf.drop s.brp.toNat = s.codeOf sym ++ s.codesOf text := hbits
    have hx := exec_dec_code ht hs hsym hl hhead
    have hrest : decodesTo (s.decoded sym) text :=
      ih (s.decoded sym) hp (ht.decoded sym) (exec_bounds hb hx) hs htext (decoded_bitsLeft hp hb hl hhead)
    exact ⟨_, hx, rfl, rfl, decoded_res0 hp hsym, hrest⟩

end Sys2Proof.Machine

namespace Sys2Proof.Machine

/-! ## The bit buffer (R180 to R183, R194) -/

section
variable {s : State} {bit : Bool}

/-! ### BPUT (R181) -/

/-- A bit stored at the end of the bit buffer, and success reported (R181). -/
def State.appendBit (s : State) (bit : Bool) : State := State.reportOk { s with bitbuf := s.bitbuf ++ [bit] }

theorem exec_bput_overflow (h : s.blen = s.params.maxbits) : reports (.bput bit) s .bitbufOverflow := if_pos h

theorem exec_bput_succeeds (h : s.blen ≠ s.params.maxbits) : exec (.bput bit) s = .next (s.appendBit bit) := if_neg h

theorem appendBit_blen (s : State) (bit : Bool) : (s.appendBit bit).blen = s.blen + 1 := List.length_append

/-- The bit is stored at index BLEN (R181). -/
theorem appendBit_bit (s : State) (bit : Bool) : (s.appendBit bit).bitbuf[s.blen]? = some bit := List.getElem?_concat_length

/-! ### BGET (R182) -/

/-- The state after BGET of a bit: it stands in RES0, zero-extended, BRP is past it, and success is reported (R182). -/
def State.gotBit (s : State) (bit : Bool) : State :=
  State.reportOk { s with res0 := (BitVec.ofBool bit).setWidth 32, brp := s.brp + 1, eos := false }

/-- No bits are left (R182). -/
theorem exec_bget_endOfStream (hend : s.brp.toNat = s.blen) : exec .bget s = .next { s with eos := true, err := .ok } := by
  have hnone : s.bitbuf[s.brp.toNat]? = none := List.getElem?_eq_none hend.ge
  show execBget s = _
  rw [execBget, hnone]
  rfl

theorem exec_bget_bit (hbit : s.bitbuf[s.brp.toNat]? = some bit) : exec .bget s = .next (s.gotBit bit) := by
  show execBget s = _
  rw [execBget, hbit]
  rfl

theorem gotBit_res0 (s : State) (bit : Bool) : (s.gotBit bit).res0.toNat = bit.toNat := by
  cases bit <;> rfl

/-- BRP does not wrap: it moves over a bit stored below BLEN, and BLEN fits its register. -/
theorem gotBit_brp (hlen : s.blen < 2 ^ 32) (hbit : s.bitbuf[s.brp.toNat]? = some bit) :
    (s.gotBit bit).brp.toNat = s.brp.toNat + 1 := by
  have hlt : s.brp.toNat < s.blen := (List.getElem?_eq_some_iff.1 hbit).1
  exact BitVec.toNat_add_of_lt (Nat.lt_of_le_of_lt hlt hlen)

end

/-! ### The results -/

/-- Settles O33: BPUT by whether the buffer is full, BGET by whether a bit is left at BRP. -/
theorem bitPutAndGetResults : Obligations.BitPutAndGetResults := by
  refine ⟨⟨bput_opcode, bget_opcode⟩, fun s bit => ⟨exec_bput_overflow, fun hroom => ?_⟩,
    fun s hlen => ⟨exec_bget_endOfStream, fun bit hbit => ?_⟩⟩
  · have hx := exec_bput_succeeds (bit := bit) hroom
    obtain ⟨hframe, hpacked⟩ := (exec_effect hx).writeBits_frame
    obtain ⟨hbrp, hbits⟩ := execBput_extends hx
    exact ⟨_, hx, appendBit_blen s bit, appendBit_bit s bit, fun _ => getElem?_of_extends hbits, hbrp, ⟨rfl, rfl⟩,
      hframe.freq, hframe.tree, hframe.codes, hpacked, hframe.results, hframe.interface, hframe.eos⟩
  · have hx := exec_bget_bit hbit
    obtain ⟨hframe, hprp⟩ := (exec_effect hx).readBits_frame
    exact ⟨_, hx, gotBit_res0 s bit, gotBit_brp hlen hbit, rfl, hframe.res1, hframe.res2, hframe.bitbuf, ⟨rfl, rfl⟩,
      hframe.freq, hframe.tree, hframe.codes, ⟨hframe.pbuf, hprp⟩, hframe.interface⟩

/-- Settles O32: the three commands have no check, so each answers its writes and the success report in every state. -/
theorem bufferClearResults : Obligations.BufferClearResults :=
  ⟨⟨bclr_opcode, brwd_opcode, pclr_opcode⟩, fun _ => ⟨rfl, rfl, rfl⟩⟩

end Sys2Proof.Machine

namespace Sys2Proof.Machine

/-! ## The packed buffer (R190 to R193, R195 to R198) -/

section
variable {s : State} {x : Byte}

/-! ### PWR (R195) -/

/-- The byte of DATA stored at the end of the packed buffer, and success reported (R195). -/
def State.appendByte (s : State) : State := State.reportOk { s with pbuf := s.pbuf ++ [s.dataByte] }

theorem exec_pwr_overflow (h : s.plen = s.params.pbmax) : reports .pwr s .pbufOverflow := if_pos h

theorem exec_pwr_succeeds (h : s.plen ≠ s.params.pbmax) : exec .pwr s = .next s.appendByte := if_neg h

theorem appendByte_plen (s : State) : s.appendByte.plen = s.plen + 1 := List.length_append

/-- The byte is stored at index PLEN (R195). -/
theorem appendByte_byte (s : State) : s.appendByte.pbuf[s.plen]? = some (s.data.extractLsb' 0 8) :=
  List.getElem?_concat_length

/-! ### PRD (R197) -/

/-- The state after PRD of a byte: it stands in RES0, zero-extended, PRP is past it, and success is reported (R197). -/
def State.gotByte (s : State) (x : Byte) : State :=
  State.reportOk { s with res0 := x.setWidth 32, prp := s.prp + 1, eos := false }

/-- No bytes are left (R197). -/
theorem exec_prd_endOfStream (hend : s.prp.toNat = s.plen) : exec .prd s = .next { s with eos := true, err := .ok } := by
  have hnone : s.pbuf[s.prp.toNat]? = none := List.getElem?_eq_none hend.ge
  show execPrd s = _
  rw [execPrd, hnone]
  rfl

theorem exec_prd_byte (hbyte : s.pbuf[s.prp.toNat]? = some x) : exec .prd s = .next (s.gotByte x) := by
  show execPrd s = _
  rw [execPrd, hbyte]
  rfl

theorem gotByte_res0 (s : State) (x : Byte) : (s.gotByte x).res0.toNat = x.toNat := BitVec.toNat_setWidth_of_le (by decide)

/-- PRP does not wrap: it moves over a byte stored below PLEN, and PLEN fits its register. -/
theorem gotByte_prp (hlen : s.plen < 2 ^ 32) (hbyte : s.pbuf[s.prp.toNat]? = some x) :
    (s.gotByte x).prp.toNat = s.prp.toNat + 1 := by
  have hlt : s.prp.toNat < s.plen := (List.getElem?_eq_some_iff.1 hbyte).1
  exact BitVec.toNat_add_of_lt (Nat.lt_of_le_of_lt hlt hlen)

end

/-- Settles O34: PWR by whether the buffer is full, PRD by whether a byte is left at PRP. -/
theorem byteWriteAndReadResults : Obligations.ByteWriteAndReadResults := by
  refine ⟨⟨pwr_opcode, prd_opcode⟩, fun s => ⟨exec_pwr_overflow, fun hroom => ?_⟩,
    fun s hlen => ⟨exec_prd_endOfStream, fun x hbyte => ?_⟩⟩
  · have hx := exec_pwr_succeeds hroom
    obtain ⟨hframe, hbits⟩ := (exec_effect hx).writeBytes_frame
    obtain ⟨hprp, hbytes⟩ := execPwr_extends hx
    exact ⟨_, hx, appendByte_plen s, appendByte_byte s, fun _ => getElem?_of_extends hbytes, hprp, ⟨rfl, rfl⟩,
      hframe.freq, hframe.tree, hframe.codes, hbits, hframe.results, hframe.interface, hframe.eos⟩
  · have hx := exec_prd_byte hbyte
    obtain ⟨hframe, hbrp⟩ := (exec_effect hx).readByte_frame
    exact ⟨_, hx, gotByte_res0 s x, gotByte_prp hlen hbyte, rfl, hframe.res1, hframe.res2, hframe.pbuf, ⟨rfl, rfl⟩,
      hframe.freq, hframe.tree, hframe.codes, ⟨hframe.bitbuf, hbrp⟩, hframe.interface⟩

/-! ### PACK (R191, R196) -/

/-- A bit of a byte behind the bit-count is the stream bit of its index, or 0 past the end (R191). -/
theorem packBits_bit (b : Bits) {j k : Nat} (hj : j < ceil8 b.length) (hk : k < 8) :
    ∃ x, (packBits b)[4 + j]? = some x ∧ x.getLsbD (7 - k) = b[8 * j + k]?.getD false :=
  ⟨_, packBits_tail b hj, (packByte_getLsbD b j hk).trans List.getD_eq_getElem?_getD⟩

/-- Settles O35: PACK has no check, and what it stores is `pack` of the bit buffer. -/
theorem packResult : Obligations.PackResult := by
  refine ⟨pack_opcode, fun s _ => ?_⟩
  have hx : exec .pack s = .next (State.reportOk { s with pbuf := packBits s.bitbuf, prp := 0 }) := rfl
  obtain ⟨hframe, hbits⟩ := (exec_effect hx).writeBytes_frame
  exact ⟨_, hx, packBits_length s.bitbuf, rfl, fun _ => packBits_head s.bitbuf, fun _ _ => packBits_bit s.bitbuf,
    ⟨rfl, rfl⟩, hframe.freq, hframe.tree, hframe.codes, hbits, hframe.results, hframe.interface, hframe.eos⟩

/-! ### Unpack undoes pack (R193) -/

/-- The pad bits of a packed sequence are 0 (R191). -/
theorem padBitSet_packBits (b : Bits) : padBitSet (packBits b) b.length = false := by
  refine List.any_eq_false.2 fun k hk => ?_
  have hpad := List.mem_range.1 hk
  rw [streamBit_packBits b (by omega), List.getD_eq_default _ _ (Nat.le_add_right ..)]
  exact Bool.false_ne_true

/-- The stream bits of a packed sequence below its bit-count are the sequence (R191, R192). -/
theorem map_streamBit_packBits (b : Bits) : (List.range b.length).map (streamBit (packBits b)) = b := by
  refine List.ext_getElem (by simp) fun i _ hi => ?_
  have hle := ceil8_le b.length
  rw [List.getElem_map, List.getElem_range, streamBit_packBits b (by omega), List.getD_eq_getElem _ _ hi]

/-- A packed sequence that fits passes every check of `unpack` (R192). -/
theorem unpackBytes_packBits {maxbits : Nat} {b : Bits} (hmax : maxbits ≤ 2 ^ 32 - 1) (h : b.length ≤ maxbits) :
    unpackBytes maxbits (packBits b) = some b := by
  have hcount : bitCount (packBits b) = b.length := bitCount_packBits (by omega)
  have hlen := packBits_length b
  rw [unpackBytes, hcount, if_neg (by omega), if_neg (by omega), if_neg (not_not.2 hlen), padBitSet_packBits,
    if_neg Bool.false_ne_true, map_streamBit_packBits]

/-! ### Pack undoes unpack (R193) -/

/-- The stream bits below the bit-count, and 0 from there on, are the stream bits of a buffer whose pad bits are 0. -/
theorem getD_map_streamBit {p : List Byte} {n i : Nat} (hpad : padBitSet p n = false) (hi : i < 8 * ceil8 n) :
    ((List.range n).map (streamBit p)).getD i false = streamBit p i := by
  by_cases hn : i < n
  · rw [List.getD_eq_getElem _ _ (by simpa using hn), List.getElem_map, List.getElem_range]
  · rw [List.getD_eq_default _ _ (by simpa using hn), streamBit_pad hpad (Nat.not_lt.1 hn) hi]

/-- The bits of a byte behind the bit-count are stream bits (R192). -/
theorem streamBit_byte (p : List Byte) (j : Nat) {k : Nat} (hk : k < 8) :
    streamBit p (8 * j + k) = (p.getD (4 + j) 0).getLsbD (7 - k) := by
  rw [streamBit, show (8 * j + k) / 8 = j by omega, show (8 * j + k) % 8 = k by omega]

/-- The byte packed from the stream bits of an accepted buffer is the buffer's own (R191, R192). -/
theorem packByte_map_streamBit {p : List Byte} {n j : Nat} (hpad : padBitSet p n = false) (hj : j < ceil8 n) :
    packByte ((List.range n).map (streamBit p)) j = p.getD (4 + j) 0 := by
  refine byte_ext fun k hk => ?_
  rw [packByte_getLsbD _ j hk, getD_map_streamBit hpad (by omega), streamBit_byte p j hk]

/-- The bytes of a list, read by their index. -/
theorem map_getD_range (p : List Byte) : (List.range p.length).map (fun j => p.getD j 0) = p := by
  refine List.ext_getElem (by simp) fun j _ hj => ?_
  rw [List.getElem_map, List.getElem_range, List.getD_eq_getElem _ _ hj]

/-- A buffer of 4 + m bytes is the big-endian form of its bit-count, and then m bytes from index 4 on. -/
theorem be32_bitCount_append {p : List Byte} {m : Nat} (h : p.length = 4 + m) :
    be32 (BitVec.ofNat 32 (bitCount p)) ++ (List.range m).map (fun j => p.getD (4 + j) 0) = p := by
  match p, h with
  | [], h | [_], h | [_, _], h | [_, _, _], h =>
    simp only [List.length_cons, List.length_nil] at h
    omega
  | p0 :: p1 :: p2 :: p3 :: rest, h =>
    have hm : m = rest.length := by
      simp only [List.length_cons] at h
      omega
    have hrest : (fun j => (p0 :: p1 :: p2 :: p3 :: rest).getD (4 + j) 0) = fun j => rest.getD j 0 :=
      funext fun j => by rw [Nat.add_comm 4 j]; rfl
    rw [be32_bitCount, hrest, hm, map_getD_range]
    rfl

/-- `pack` of what `unpack` answers is the buffer `unpack` accepted (R193). -/
theorem packBits_of_unpackBytes {maxbits : Nat} {p : List Byte} {b : Bits} (h : unpackBytes maxbits p = some b) :
    packBits b = p ∧ b.length ≤ maxbits := by
  obtain ⟨-, hfit, hlen, hpad, rfl⟩ := unpackBytes_some h
  have hcount : ((List.range (bitCount p)).map (streamBit p)).length = bitCount p := by simp
  have hbytes : (List.range (ceil8 (bitCount p))).map (packByte ((List.range (bitCount p)).map (streamBit p)))
      = (List.range (ceil8 (bitCount p))).map fun j => p.getD (4 + j) 0 :=
    List.map_congr_left fun j hj => packByte_map_streamBit hpad (List.mem_range.1 hj)
  exact ⟨by rw [packBits, hcount, hbytes, be32_bitCount_append hlen], hcount.trans_le hfit⟩

/-- Settles O36: the two directions of R193. -/
theorem packIsABijection : Obligations.PackIsABijection :=
  fun _ hmax => ⟨fun _ => unpackBytes_packBits hmax, fun _ _ => packBits_of_unpackBytes⟩

/-! ### UNPACK (R198) -/

/-- A buffer that `unpack` refuses is CORRUPT_BUFFER (R198). -/
theorem exec_unpack_corrupt {s : State} (h : unpackBytes s.params.maxbits s.pbuf = none) :
    reports .unpack s .corruptBuffer := by
  show execUnpack s = raise .corruptBuffer s
  rw [execUnpack, h]

theorem exec_unpack_succeeds {s : State} {b : Bits} (h : unpackBytes s.params.maxbits s.pbuf = some b) :
    exec .unpack s = .next { s with bitbuf := b, brp := 0, err := .ok } := by
  show execUnpack s = _
  rw [execUnpack, h]
  rfl

/-- Settles O37: by R193 the buffers `unpack` accepts are those `pack` answers of a sequence that fits. -/
theorem unpackResult : Obligations.UnpackResult := by
  refine ⟨unpack_opcode, fun s hp => ⟨fun b hfit hpack => ?_, fun hno => ?_⟩⟩
  · obtain ⟨-, -, ⟨-, hmax⟩, -⟩ := hp
    exact exec_unpack_succeeds (hpack ▸ unpackBytes_packBits hmax hfit)
  · refine exec_unpack_corrupt (Option.eq_none_iff_forall_ne_some.2 fun b hb => ?_)
    obtain ⟨hpack, hfit⟩ := packBits_of_unpackBytes hb
    exact hno b hfit hpack.symm

end Sys2Proof.Machine

namespace Sys2Proof.Machine

/-! ## The control commands (R210, R211)

NOP and SRST have no check (R227), so each answers the success report of its writes in every state. -/

/-- NOP writes nothing but the success report (R210). -/
theorem exec_nop (s : State) : exec .nop s = .next s.reportOk := rfl

/-- SRST answers the success report of the values after reset (R211). -/
theorem exec_srst (s : State) : exec .srst s = .next s.resetValues.reportOk := rfl

/-- After SRST no symbol has a code, so LMAX is 0 (R46, R211). -/
theorem lmax_reportOk_resetValues (s : State) : s.resetValues.reportOk.lmax = 0 := lmax_eq_zero fun _ _ => rfl

/-- Settles O9: NOP's one write is ERR. -/
theorem nopResult : Obligations.NopResult := ⟨nop_opcode, exec_nop⟩

/-- Settles O10: each stored element is read off the values after reset; TV, NNODES, BLEN and PLEN follow from TBS and the
empty lists, and LMAX from the empty code table. -/
theorem softResetResult : Obligations.SoftResetResult := by
  refine ⟨srst_opcode, fun s => ⟨s.resetValues.reportOk, exec_srst s, ?_⟩⟩
  have hlmax := lmax_reportOk_resetValues s
  simp [State.tv, State.nnodes, State.blen, State.plen, hlmax]

end Sys2Proof.Machine

namespace Sys2Proof.Machine

/-! ## How a command ends (R223, R224, R227)

The rule of a command is a chain of checks, each of which raises its error, and then the success report of what the command
writes. BSTEP and BUILD alone can stop the machine (log 13). -/

/-- An answer with which the rule of a command ends: an error report of its row of R227, a success that leaves STICKY
unchanged (SRST clears it), or, of BSTEP and BUILD, a stop of the model. -/
inductive Ends (i : Instr) (s : State) : Answer → Prop where
  | raised {e : Err} (listed : e ∈ checksOf i := by simp [checksOf]) : Ends i s (.next (s.reportErr e))
  | succeeded {u : State} (sticky : u.sticky = if i = .srst then false else s.sticky) : Ends i s (.next u.reportOk)
  | stopped {f : Fault} (builder : i = .bstep ∨ i = .build) : Ends i s (.fault f)

/-- A check of a rule raises an error of the row, or leaves the answer to the rest of the rule. -/
theorem Ends.check {i : Instr} {s : State} {e : Err} {c : Prop} [Decidable c] {a : Answer} (rest : Ends i s a)
    (listed : e ∈ checksOf i := by simp [checksOf]) : Ends i s (if c then raise e s else a) := by
  split_ifs
  · exact .raised listed
  · exact rest

/-- BSTEP and BUILD end with what their steps of the tree builder give. -/
theorem Ends.finishSteps {i : Instr} {s : State} {x : StepResult} (hi : i = .bstep ∨ i = .build)
    (hx : ∀ u, x = .stepped u → u.sticky = s.sticky) : Ends i s (finishSteps s x) := by
  cases x with
  | stepped u =>
    have hne : i ≠ .srst := by rcases hi with rfl | rfl <;> nofun
    exact .succeeded (by rw [if_neg hne, hx u rfl])
  | tooLong => exact .raised (by rcases hi with rfl | rfl <;> simp [checksOf])
  | broken f => exact .stopped hi

theorem runToDone_frame {n : Nat} {s t : State} (h : runToDone n s = .stepped t) : StepFrame s t :=
  (runToDone_induction (P := StepFrame s) (fun _ _ hs ht => hs.trans (tbStep_frame ht)) (.refl s) h).1

/-- Every command ends so, check by check in the order of its row. -/
theorem exec_ends (i : Instr) (s : State) : Ends i s (exec i s) := by
  cases i with
  | nop | srst | clrfreq | bclr | brwd | pclr | pack => exact .succeeded rfl
  | getfreq | bput | pwr => exact .check (.succeeded rfl)
  | count | setfreq | lookup => exact .check (.check (.check (.succeeded rfl)))
  | enc => exact .check (.check (.check (.check (.succeeded rfl))))
  | build => exact .finishSteps (.inr rfl) fun _ h => (runToDone_frame h).sticky
  | bstep => exact .finishSteps (.inl rfl) fun _ h => (tbStep_frame h).sticky
  | tnode | unpack =>
    dsimp only [exec, execTnode, execUnpack]
    split
    · exact .raised
    · exact .succeeded rfl
  | bget | prd =>
    dsimp only [exec, execBget, execPrd]
    split <;> exact .succeeded rfl
  | dlookup =>
    refine .check (.check ?_)
    split
    · exact .raised
    · exact .succeeded rfl
  | dec =>
    refine .check ?_
    split
    · exact .succeeded rfl
    · exact .raised
    · exact .succeeded rfl

/-- No row of R227 lists OK. -/
theorem ok_notMem_checksOf (i : Instr) : Err.ok ∉ checksOf i := by cases i <;> simp [checksOf]

/-- Of the commands only BSTEP and BUILD can stop the machine. -/
theorem builder_of_exec_fault {i : Instr} {s : State} {f : Fault} (h : exec i s = .fault f) : i = .bstep ∨ i = .build := by
  cases h ▸ exec_ends i s with
  | stopped builder => exact builder

theorem exec_ne_refused (i : Instr) (s : State) (r : Refusal) : exec i s ≠ .refused r := by
  intro h
  cases h ▸ exec_ends i s

/-- Settles O7: a rule ends with a report, and an error it reports is of its row; only BSTEP and BUILD can stop. -/
theorem commandsCompleteWithListedErrors : Obligations.CommandsCompleteWithListedErrors := by
  refine ⟨fun i s hbstep hbuild => ?_, exec_ne_refused, fun i s t hx => ?_⟩
  · cases hx : exec i s with
    | next t => exact ⟨t, rfl⟩
    | fault f => exact absurd (builder_of_exec_fault hx) (not_or.2 ⟨hbstep, hbuild⟩)
    | refused r => exact absurd hx (exec_ne_refused i s r)
  · cases hx ▸ exec_ends i s with
    | raised listed => exact .inr listed
    | succeeded => exact .inl rfl

/-- Settles O6: an error report writes ERR and STICKY alone, and the end of a command's rule says what its success makes of
STICKY. -/
theorem reportsOfCommands : Obligations.ReportsOfCommands := by
  refine ⟨fun i s t hx herr => ?_, fun i s t hx herr => ?_, fun s why hd => performLatched_of_illegal hd⟩
  · cases hx ▸ exec_ends i s with
    | raised => rfl
    | succeeded => exact absurd rfl herr
  · cases hx ▸ exec_ends i s with
    | raised listed => exact absurd (herr ▸ listed) (ok_notMem_checksOf i)
    | succeeded sticky => exact sticky

/-! ## STICKY and OVERRUN (R225, R256) -/

/-- Of the commands SRST alone clears STICKY. -/
theorem exec_sticky {i : Instr} {s t : State} (hx : exec i s = .next t) (hi : i ≠ .srst) (h : s.sticky = true) :
    t.sticky = true := by
  cases hx ▸ exec_ends i s with
  | raised => rfl
  | succeeded sticky => exact sticky.trans ((if_neg hi).trans h)

/-- No command sets OVERRUN, and of the commands SRST alone clears it. -/
theorem exec_overrun {i : Instr} {s t : State} (hx : exec i s = .next t) :
    t.overrun = s.overrun ∨ (i = .srst ∧ t.overrun = false) := by
  by_cases hf : i.family = .softReset
  · obtain rfl := Instr.eq_srst hf
    cases execSrst_next hx
    exact .inr ⟨rfl, rfl⟩
  · exact .inl ((exec_effect hx).sameInterface hf).overrun

/-- Settles O8: SRST alone of the commands clears either flag, no host access clears one, and the rest of what clears them
is a reset. -/
theorem stickyAndOverrunPersist : Obligations.StickyAndOverrunPersist := by
  intro s t hst hreset hsrst
  rcases step_next hst with ⟨he, ht⟩ | ⟨off, -, -, -, -, rfl⟩ | ⟨off, v, -, -, -, -, rfl⟩ | ⟨-, rfl⟩ | ⟨hp, rfl⟩
  · rcases engineTurn_next ht with ⟨i, hp, hd, hx⟩ | ⟨why, -, -, rfl⟩ | ⟨hp, rfl⟩ | ⟨-, rfl⟩
    · have hi : i ≠ .srst := fun hi => hsrst ⟨he, hp, hi ▸ hd⟩
      have hov := (exec_overrun hx).resolve_right fun h => hi h.1
      exact ⟨exec_sticky (s := s.performing) hx hi, fun h => hov.trans h⟩
    · exact ⟨fun _ => rfl, id⟩
    · exact absurd (.inr ⟨hp, he⟩) hreset
    · exact ⟨id, id⟩
  · obtain ⟨v, d, hw, -⟩ := windowRead_eq s.afterEvent off
    rw [hw]
    exact ⟨id, id⟩
  · rcases windowWrite_cases s.afterEvent off v with ⟨-, -, hw⟩ | ⟨-, -, hw⟩ | ⟨-, -, hw⟩ | ⟨-, -, hw⟩ <;> rw [hw]
    iterate 2 exact ⟨id, id⟩
    · exact ⟨id, fun _ => rfl⟩
    · exact ⟨id, id⟩
  · exact ⟨id, id⟩
  · have hne : s.afterEvent.phase ≠ .inReset := fun h => hreset (.inl ⟨h, hp⟩)
    rw [releaseReset, if_neg hne]
    exact ⟨id, id⟩

/-! ## No command stops the machine (R220, R229) -/

/-- Where the invariant holds no command meets a stop of the model. -/
theorem exec_ne_fault {i : Instr} {s : State} {f : Fault} (h : Inv s) : exec i s ≠ .fault f := by
  intro hx
  rcases builder_of_exec_fault hx with rfl | rfl
  · change finishSteps s (tbStep s) = .fault f at hx
    rcases h.builder.tbStep_cases with ht | ⟨t, ht⟩ <;> rw [ht] at hx <;> cases hx
  · change finishSteps s (runToDone (s.nsym + 1) s) = .fault f at hx
    rcases h.builder.runToDone_cases (stepsLeft_le h) with ht | ⟨t, ht⟩ <;> rw [ht] at hx <;> cases hx

/-- Where the invariant holds a command completes. -/
theorem exec_completes {s : State} (h : Inv s) (i : Instr) : ∃ t, exec i s = .next t := by
  cases hx : exec i s with
  | next t => exact ⟨t, rfl⟩
  | fault f => exact absurd hx (exec_ne_fault h)
  | refused r => exact absurd hx (exec_ne_refused i s r)

theorem performLatched_completes {s : State} (h : Inv s) : ∃ t, performLatched s = .next t := by
  cases hd : decode s.cmdl with
  | command i => exact performLatched_of_command hd ▸ exec_completes h i
  | illegal why => exact ⟨_, performLatched_of_illegal hd⟩

/-- Where the invariant holds a turn of the engine is answered. -/
theorem engineTurn_completes {s : State} (h : Inv s) : ∃ t, engineTurn s = .next t := by
  cases hp : s.phase with
  | command => exact engineTurn_of_command hp ▸ performLatched_completes (s := s.completeCommand) h.builder
  | clearing => exact ⟨_, engineTurn_of_clearing hp⟩
  | idle => exact ⟨_, engineTurn_of_idle_or_inReset (.inl hp)⟩
  | inReset => exact ⟨_, engineTurn_of_idle_or_inReset (.inr hp)⟩

theorem hostRead_fault {width : Width} {addr : Nat} {s : State} {f : Fault} (h : hostRead width addr s = .fault f) :
    f = .outsideWindow := by
  unfold hostRead at h
  split at h
  · cases h
  · next ha =>
    cases h
    exact accessOffset_fault ha
  · cases h

theorem hostWrite_fault {width : Width} {addr : Nat} {v : Word} {s : State} {f : Fault}
    (h : hostWrite width addr v s = .fault f) : f = .outsideWindow := by
  unfold hostWrite at h
  split at h
  · cases h
  · next ha =>
    cases h
    exact accessOffset_fault ha
  · cases h

theorem engineTurn_ne_fault {s : State} {f : Fault} (h : Inv s) : engineTurn s ≠ .fault f := by
  obtain ⟨t, ht⟩ := engineTurn_completes h
  rw [ht]
  nofun

/-- Settles O60: a turn of the engine is answered, the events of the reset input are, and the one check of an access that
faults is that of the window. -/
theorem stepFaultsOnlyOutsideWindow : Obligations.StepFaultsOnlyOutsideWindow := by
  intro s f h hst
  cases hp : s.pending with
  | nil => exact absurd ((step_of_nil hp).symm.trans hst) (engineTurn_ne_fault h)
  | cons e rest =>
    rw [step_of_cons hp] at hst
    cases e with
    | engineTurn => exact absurd hst (engineTurn_ne_fault (h.of_contents (.of_interface ..) id))
    | read width addr => exact hostRead_fault hst
    | write width addr v => exact hostWrite_fault hst
    | resetAssert => cases hst
    | resetRelease => cases hst
end Sys2Proof.Machine

namespace Sys2Proof.Machine

/-! ## Accesses inside the interface (R65 to R68, R254 to R257) -/

theorem step_read {s : State} {off : Nat} {rest : List Event} (hp : s.phase ≠ .inReset) (h4 : off % 4 = 0) (ho : off < 256)
    (hs : s.pending = .read .w32 (s.params.base + off) :: rest) :
    step s = .next (windowRead { s with pending := rest } off) := by
  have ha := accessOffset_valid (s := { s with pending := rest }) hp ho h4
  rw [step_of_cons hs, takeEvent, hostRead, ha]

theorem step_write {s : State} {off : Nat} {v : Word} {rest : List Event} (hp : s.phase ≠ .inReset) (h4 : off % 4 = 0)
    (ho : off < 256) (hs : s.pending = .write .w32 (s.params.base + off) v :: rest) :
    step s = .next (windowWrite { s with pending := rest } off v) := by
  have ha := accessOffset_valid (s := { s with pending := rest }) hp ho h4
  rw [step_of_cons hs, takeEvent, hostWrite, ha]

/-- A command is latched, or the reset clear is in progress: the phases in which a host access meets BUSY = 1. -/
abbrev State.inProgress (s : State) : Prop := s.phase = .command ∨ s.phase = .clearing

theorem State.inProgress.ne_inReset {s : State} (h : s.inProgress) : s.phase ≠ .inReset := by
  rcases h with h | h <;> rw [h] <;> nofun

theorem State.inProgress.busy {s : State} (h : s.inProgress) : s.busy = true := by
  rcases h with h | h <;> exact decide_eq_true (by rw [h]; nofun)

theorem busy_eq_false_iff {s : State} : s.busy = false ↔ s.phase = .idle := by simp [State.busy]

/-! ### Writes -/

/-- Settles O51: with BUSY = 0 a write of the window is an acceptance, a write of DATA, or nothing. -/
theorem writesWhileIdle : Obligations.WritesWhileIdle := by
  intro s off v rest hp h4 ho hs
  rw [step_write (by rw [hp]; nofun) h4 ho hs]
  have hb : State.busy { s with pending := rest } = false := busy_eq_false_iff.2 hp
  rcases windowWrite_cases { s with pending := rest } off v with
    ⟨h0, -, hw⟩ | ⟨h4, -, hw⟩ | ⟨-, hb', -⟩ | ⟨h0, h4, hw⟩
  · exact ⟨fun _ => by rw [hw]; rfl, by omega, by omega⟩
  · exact ⟨by omega, fun _ => by rw [hw], by omega⟩
  · cases hb.symm.trans hb'
  · exact ⟨by omega, by omega, fun _ _ => by rw [hw]⟩

/-- Settles O52: with BUSY = 1 a write of the window is lost or nothing. -/
theorem writesWhileBusy : Obligations.WritesWhileBusy := by
  intro s off v rest hp h4 ho hs
  rw [step_write (State.inProgress.ne_inReset hp) h4 ho hs]
  have hb : State.busy { s with pending := rest } = true := State.inProgress.busy hp
  rcases windowWrite_cases { s with pending := rest } off v with
    ⟨-, hb', -⟩ | ⟨-, hb', -⟩ | ⟨h04, -, hw⟩ | ⟨h0, h4, hw⟩
  · cases hb.symm.trans hb'
  · cases hb.symm.trans hb'
  · exact ⟨fun _ => by rw [hw], by omega⟩
  · exact ⟨by omega, fun _ _ => by rw [hw]⟩

/-! ### Reads while BUSY = 1 -/

/-- The value of the window at an offset with BUSY = 1 (R66, R257). -/
def State.busyWindowValue (s : State) (off : Nat) : Word :=
  match regAt off with
  | none => 0
  | some r => if r.steadyWhileBusy = true then s.regValue r else busyValue r (Config.freeWord s.draw)

/-- The free values drawn once the window has been read at an offset with BUSY = 1 (log 7). -/
def State.busyWindowDraw (s : State) (off : Nat) : Nat :=
  match regAt off with
  | none => s.draw
  | some r => if r.steadyWhileBusy = true then s.draw else s.draw + 1

theorem windowRead_of_busy {s : State} (h : s.busy = true) (off : Nat) :
    windowRead s off = { s with reads := s.reads ++ [s.busyWindowValue off], draw := s.busyWindowDraw off } := by
  unfold windowRead State.busyWindowValue State.busyWindowDraw
  cases regAt off with
  | none => rfl
  | some r => cases hr : r.steadyWhileBusy <;> simp [h, hr, State.observe]

/-- A read inside the interface with BUSY = 1: the value joins the observation, and its draw is used up. -/
theorem step_read_of_busy {s : State} {off : Nat} {rest : List Event} (hp : s.inProgress) (h4 : off % 4 = 0)
    (ho : off < 256) (hs : s.pending = .read .w32 (s.params.base + off) :: rest) :
    step s = .next { s with
      pending := rest, reads := s.reads ++ [s.busyWindowValue off], draw := s.busyWindowDraw off } := by
  have hb : State.busy { s with pending := rest } = true := hp.busy
  have hv : State.busyWindowValue { s with pending := rest } off = s.busyWindowValue off := by
    unfold State.busyWindowValue
    cases regAt off with
    | none => rfl
    | some r => cases r <;> rfl
  rw [step_read hp.ne_inReset h4 ho hs, windowRead_of_busy hb, hv]
  rfl

theorem busyWindow_steady (s : State) {r : Reg} (h : r.steadyWhileBusy = true) :
    s.busyWindowValue r.offset = s.regValue r ∧ s.busyWindowDraw r.offset = s.draw := by
  simp [State.busyWindowValue, State.busyWindowDraw, regAt_offset, h]

theorem busyWindow_unsteady (s : State) {r : Reg} (h : r.steadyWhileBusy = false) :
    s.busyWindowValue r.offset = busyValue r (Config.freeWord s.draw) ∧ s.busyWindowDraw r.offset = s.draw + 1 := by
  simp [State.busyWindowValue, State.busyWindowDraw, regAt_offset, h]

theorem busyWindow_reserved (s : State) {off : Nat} (h : 0x48 ≤ off) :
    s.busyWindowValue off = 0 ∧ s.busyWindowDraw off = s.draw := by
  simp [State.busyWindowValue, State.busyWindowDraw, regAt_eq_none_iff.2 (show ¬ (off % 4 = 0 ∧ off ≤ 0x44) by omega)]

/-- Every word offset up to that of ID has a register (R40). -/
theorem exists_reg_of_offset {off : Nat} (h4 : off % 4 = 0) (h : off ≤ 0x44) : ∃ r : Reg, r.offset = off := by
  cases hr : regAt off with
  | none => exact absurd ⟨h4, h⟩ (regAt_eq_none_iff.1 hr)
  | some r => exact ⟨r, offset_of_regAt hr⟩

/-- The registers with a value while BUSY = 1 are the two the host writes and the three constants (R257). -/
theorem steadyWhileBusy_iff (r : Reg) : r.steadyWhileBusy = true ↔ r.offset ≤ 0x04 ∨ 0x3C ≤ r.offset := by
  cases r <;> decide

/-- BUSY reads 1, and every other bit of STATUS is free (R257). -/
theorem busyValue_status (free : Word) :
    (busyValue .status free).getLsbD 0 = true ∧ ∀ k, k ≠ 0 → (busyValue .status free).getLsbD k = free.getLsbD k := by
  have h : busyValue .status free = free ||| 1 := rfl
  refine ⟨by simp [h], fun k hk => ?_⟩
  have hone : (1 : Word).getLsbD k = false := by simp [BitVec.getLsbD_one, hk]
  rw [h, BitVec.getLsbD_or, hone, Bool.or_false]

/-- Settles O49: the value read, and whether it is a draw, by the register at the offset. -/
theorem readsWhileBusy : Obligations.ReadsWhileBusy := by
  intro s off rest hp h4 ho hs
  have hsteady (r : Reg) (hr : r.steadyWhileBusy = true) (h : off = r.offset) : s.busyWindowValue off = s.regValue r :=
    h ▸ (busyWindow_steady s hr).1
  refine ⟨s.busyWindowValue off, s.busyWindowDraw off, step_read_of_busy hp h4 ho hs, ?status, ?free, hsteady .cmd rfl,
    hsteady .data rfl, hsteady .config rfl, hsteady .maxbits rfl, hsteady .id rfl,
    fun h => (busyWindow_reserved s h).1, ?kept⟩
  case status =>
    intro h
    obtain ⟨hv, hd⟩ := busyWindow_unsteady s (r := .status) rfl
    obtain ⟨hbusy, hother⟩ := busyValue_status (Config.freeWord s.draw)
    rw [h]
    exact ⟨hv ▸ hbusy, hv ▸ hother, hd⟩
  case free =>
    intro h1 h2
    obtain ⟨r, rfl⟩ := exists_reg_of_offset h4 (by omega)
    have hr : r.steadyWhileBusy = false := by
      rw [Bool.eq_false_iff, Ne, steadyWhileBusy_iff]
      omega
    have hne : r ≠ .status := by
      rintro rfl
      exact absurd h1 (by decide)
    rw [(busyWindow_unsteady s hr).1, busyValue, if_neg hne]
    exact ⟨rfl, (busyWindow_unsteady s hr).2⟩
  case kept =>
    intro h
    by_cases h48 : 0x48 ≤ off
    · exact (busyWindow_reserved s h48).2
    · obtain ⟨r, rfl⟩ := exists_reg_of_offset h4 (by omega)
      exact (busyWindow_steady s ((steadyWhileBusy_iff r).2 (by omega))).2

/-! ## A host that respects the hazards (R258) -/

/-- No turn of the engine sets OVERRUN. -/
theorem engineTurn_overrun {s t : State} (h : engineTurn s = .next t) (ho : s.overrun = false) : t.overrun = false := by
  rcases engineTurn_next h with ⟨i, -, -, hx⟩ | ⟨why, -, -, rfl⟩ | ⟨-, rfl⟩ | ⟨-, rfl⟩
  · rcases exec_overrun hx with hkept | ⟨-, hcleared⟩
    · exact hkept.trans ho
    · exact hcleared
  iterate 3 exact ho

/-- A write that is answered with BUSY = 0 is not lost: DATA is stored and CMD accepted. -/
theorem hostWrite_of_idle {width : Width} {addr : Nat} {v : Word} {s t : State} (hb : s.busy = false)
    (h : hostWrite width addr v s = .next t) :
    t.overrun = s.overrun ∧ (addr = s.params.base + 4 → t.data = v)
      ∧ (addr = s.params.base → t.cmdl = v ∧ t.phase = .command) := by
  obtain ⟨off, ha, rfl⟩ := hostWrite_next h
  obtain ⟨-, -, rfl, -, -⟩ := accessOffset_next ha
  rcases windowWrite_cases s off v with ⟨h0, -, hw⟩ | ⟨h4, -, hw⟩ | ⟨-, hb', -⟩ | ⟨h0, h4, hw⟩
  · rw [hw]
    exact ⟨rfl, by omega, fun _ => ⟨rfl, rfl⟩⟩
  · rw [hw]
    exact ⟨rfl, fun _ => rfl, by omega⟩
  · cases hb.symm.trans hb'
  · rw [hw]
    exact ⟨rfl, by omega, by omega⟩

/-- Settles O55: with BUSY = 0 no write is lost and no read draws a free value, and no other event sets OVERRUN. -/
theorem hazardFreeHostLosesNothing : Obligations.HazardFreeHostLosesNothing := by
  intro e s t hr ht
  cases e with
  | engineTurn => exact ⟨engineTurn_overrun ht, nofun, nofun, nofun⟩
  | read width addr =>
    obtain ⟨off, -, rfl⟩ := hostRead_next ht
    obtain ⟨v, d, hw, hd⟩ := windowRead_eq s off
    rw [hw]
    refine ⟨id, ?_, nofun, nofun⟩
    rintro _ _ ⟨⟩ hne
    have hb : s.busy = false := hr.resolve_right hne
    exact hd.resolve_right fun h => Bool.false_ne_true (hb.symm.trans h.2)
  | write width addr v =>
    obtain ⟨hoverrun, hdata, hcmd⟩ := hostWrite_of_idle hr ht
    refine ⟨hoverrun.trans, nofun, ?_, ?_⟩
    · rintro _ ⟨⟩
      exact hdata rfl
    · rintro _ ⟨⟩
      exact hcmd rfl
  | resetAssert =>
    cases ht
    exact ⟨id, nofun, nofun, nofun⟩
  | resetRelease =>
    cases ht
    refine ⟨fun h => ?_, nofun, nofun, nofun⟩
    unfold releaseReset
    split_ifs
    · rfl
    · exact h
end Sys2Proof.Machine

namespace Sys2Proof.Machine

/-! ## Runs of several steps -/

section
variable {M : Host.Core} {s t u : M.State}

theorem run_succ (h : M.step s = .next u) (n : Nat) : M.run (n + 1) s = M.run n u := by rw [Host.Core.run, h]

/-- A run that is answered takes its first step and runs on. -/
theorem run_succ_next {n : Nat} (h : M.run (n + 1) s = .next t) : ∃ u, M.step s = .next u ∧ M.run n u = .next t := by
  rw [Host.Core.run] at h
  split at h
  · next u hu => exact ⟨u, hu, h⟩
  · cases h
  · cases h

/-- A run goes on where a shorter one ends. -/
theorem run_add {m : Nat} (h : M.run m s = .next u) (n : Nat) : M.run (m + n) s = M.run n u := by
  induction m generalizing s with
  | zero =>
    cases h
    rw [Nat.zero_add]
  | succ m ih =>
    obtain ⟨v, hv, hrun⟩ := run_succ_next h
    rw [Nat.add_right_comm, run_succ hv, ih hrun]

/-- What every step keeps, a run keeps. -/
theorem run_induction {P : M.State → Prop} (keep : ∀ s t, P s → M.step s = .next t → P t) {n : Nat} (hs : P s)
    (h : M.run n s = .next t) : P t := by
  induction n generalizing s with
  | zero =>
    cases h
    exact hs
  | succ n ih =>
    obtain ⟨u, hu, hrun⟩ := run_succ_next h
    exact ih (keep s u hs hu) hrun

end

/-! ### What a step makes of the handshake -/

/-- No command writes the parameters, BUSY or the events still to come (R211: SRST leaves BUSY to the protocol). -/
theorem exec_handshake {s t : State} {i : Instr} (hx : exec i s = .next t) :
    t.params = s.params ∧ t.phase = s.phase ∧ t.pending = s.pending := by
  have he := exec_effect hx
  generalize i.family = f at he
  cases he with
  | tree u frame => exact ⟨frame.interface.params, frame.interface.phase, frame.interface.pending⟩
  | _ => exact ⟨rfl, rfl, rfl⟩

/-- A turn of the engine ends with BUSY = 0 unless the reset input is asserted. -/
theorem engineTurn_handshake {s t : State} (h : engineTurn s = .next t) :
    t.params = s.params ∧ t.pending = s.pending ∧ (s.phase ≠ .inReset → t.phase = .idle) := by
  rcases engineTurn_next h with ⟨i, -, -, hx⟩ | ⟨why, -, -, rfl⟩ | ⟨-, rfl⟩ | ⟨hp, rfl⟩
  · obtain ⟨hparams, hphase, hpending⟩ := exec_handshake hx
    exact ⟨hparams, hpending, fun _ => hphase⟩
  · exact ⟨rfl, rfl, fun _ => rfl⟩
  · exact ⟨rfl, rfl, fun _ => rfl⟩
  · exact ⟨rfl, rfl, hp.resolve_right⟩

/-- What a step makes of the phase: it ends with BUSY = 0, keeps the phase, accepts a command, or takes an event of the
reset input. -/
inductive PhaseStep (s t : State) : Prop where
  | ended (idle : t.phase = .idle)
  | kept (phase : t.phase = s.phase)
  | accepted (w : Word) (head : s.pending.head? = some (writeEvent s.params .cmd w))
  | reset (e : Event) (head : s.pending.head? = some e) (isReset : isReset e) (phase : t.phase ≠ .command)

theorem windowWrite_phaseStep {s : State} {off : Nat} {v : Word}
    (hp : s.pending.head? = some (.write .w32 (s.params.base + off) v)) :
    PhaseStep s (windowWrite s.afterEvent off v) := by
  rcases windowWrite_cases s.afterEvent off v with ⟨rfl, -, -⟩ | ⟨-, -, hw⟩ | ⟨-, -, hw⟩ | ⟨-, -, hw⟩
  · exact .accepted v hp
  iterate 3 exact .kept (by rw [hw]; rfl)

theorem windowWrite_pending (s : State) (off : Nat) (v : Word) : (windowWrite s off v).pending = s.pending := by
  rcases windowWrite_cases s off v with ⟨-, -, hw⟩ | ⟨-, -, hw⟩ | ⟨-, -, hw⟩ | ⟨-, -, hw⟩ <;> rw [hw]
  rfl

/-- A step takes the event at the head. -/
theorem step_handshake {s t : State} (h : step s = .next t) :
    t.params = s.params ∧ t.pending = s.pending.tail ∧ PhaseStep s t := by
  rcases step_next h with ⟨-, ht⟩ | ⟨off, -, -, -, -, rfl⟩ | ⟨off, v, -, -, -, hp, rfl⟩ | ⟨hp, rfl⟩ | ⟨hp, rfl⟩
  · obtain ⟨hparams, hpending, hphase⟩ := engineTurn_handshake ht
    refine ⟨hparams, hpending, ?_⟩
    by_cases hr : s.phase = .inReset
    · rw [engineTurn_of_idle_or_inReset (s := s.afterEvent) (.inr hr)] at ht
      cases ht
      exact .kept rfl
    · exact .ended (hphase hr)
  · obtain ⟨v, d, hw, -⟩ := windowRead_eq s.afterEvent off
    rw [hw]
    exact ⟨rfl, rfl, .kept rfl⟩
  · exact ⟨(windowWrite_kept hp).1.params, windowWrite_pending .., windowWrite_phaseStep hp⟩
  · exact ⟨rfl, rfl, .reset _ hp (.inl rfl) nofun⟩
  · unfold releaseReset
    split_ifs
    · exact ⟨rfl, rfl, .reset _ hp (.inr rfl) nofun⟩
    · exact ⟨rfl, rfl, .kept rfl⟩

/-! ### Accesses while BUSY = 1 -/

/-- A state after accesses that met BUSY = 1: the events that are left, the record of the values read, the draws, and
OVERRUN. -/
def State.accessed (s : State) (rest : List Event) (reads : List Word) (draw : Nat) (overrun : Bool) : State :=
  { s with pending := rest, reads := reads, draw := draw, overrun := overrun }

theorem not_writesOperand_read (p : Params) (width : Width) (addr : Nat) : ¬ writesOperand p (.read width addr) := by
  rintro ⟨r, v, -, h⟩
  cases h

theorem writesOperand_write_iff (p : Params) (off : Nat) (v : Word) :
    writesOperand p (.write .w32 (p.base + off) v) ↔ off = 0 ∨ off = 4 := by
  constructor
  · rintro ⟨r, v', hr, h⟩
    simp only [writeEvent, Event.write.injEq, Nat.add_left_cancel_iff, true_and] at h
    exact hr.imp (fun hr => by rw [h.1, hr]; rfl) (fun hr => by rw [h.1, hr]; rfl)
  · rintro (rfl | rfl)
    · exact ⟨.cmd, v, .inl rfl, rfl⟩
    · exact ⟨.data, v, .inr rfl, rfl⟩

/-- An access that meets BUSY = 1 (R256, R257). -/
theorem step_access_inProgress {s : State} {e : Event} {rest : List Event} (hp : s.inProgress) (he : isAccess s.params e)
    (hs : s.pending = e :: rest) :
    ∃ reads draw overrun, step s = .next (s.accessed rest reads draw overrun)
      ∧ (overrun = true ↔ s.overrun = true ∨ writesOperand s.params e) := by
  rcases he with ⟨k, hk, rfl⟩ | ⟨k, hk, v, rfl⟩
  · refine ⟨_, _, s.overrun, step_read_of_busy hp (by omega) (by omega) hs, ?_⟩
    simp only [not_writesOperand_read, or_false]
  · rw [writesOperand_write_iff]
    obtain ⟨hlost, hignored⟩ := writesWhileBusy s (4 * k) v rest hp (by omega) (by omega) hs
    by_cases h : 4 * k = 0 ∨ 4 * k = 4
    · exact ⟨s.reads, s.draw, true, hlost h, iff_of_true rfl (.inr h)⟩
    · exact ⟨s.reads, s.draw, s.overrun, hignored (by omega) (by omega), (or_iff_left h).symm⟩

/-- Accesses that meet BUSY = 1, one after another. -/
theorem run_accesses_inProgress {during rest : List Event} {s : State} (hp : s.inProgress)
    (hd : ∀ e ∈ during, isAccess s.params e) (hs : s.pending = during ++ rest) :
    ∃ reads draw overrun, Sys2Proof.core.run during.length s = .next (s.accessed rest reads draw overrun)
      ∧ (overrun = true ↔ s.overrun = true ∨ ∃ e ∈ during, writesOperand s.params e) := by
  induction during generalizing s with
  | nil =>
    refine ⟨s.reads, s.draw, s.overrun, ?_, by simp⟩
    have hself : s.accessed rest s.reads s.draw s.overrun = s := by
      rw [State.accessed, show rest = s.pending from hs.symm]
    rw [hself]
    rfl
  | cons e during ih =>
    obtain ⟨reads1, draw1, overrun1, hstep, ho1⟩ := step_access_inProgress hp (hd e List.mem_cons_self) hs
    obtain ⟨reads, draw, overrun, hrun, ho⟩ := ih (s := s.accessed (during ++ rest) reads1 draw1 overrun1) hp
      (fun e' he' => hd e' (List.mem_cons_of_mem e he')) rfl
    refine ⟨reads, draw, overrun, (run_succ (M := Sys2Proof.core) hstep _).trans hrun, ?_⟩
    rw [ho, List.exists_mem_cons_iff, ← or_assoc, ← ho1]
    rfl

/-! ## Reset (R250 to R252) -/

/-- The state a release gives: the reset state (R46, R250), but for the parameters, the model's own fields, and CMDL. -/
def State.released (s : State) (rest : List Event) : State :=
  { State.reset with
    params := s.params, pending := rest, reads := s.reads, cmdl := Config.freeWord s.draw, draw := s.draw + 1 }

theorem step_resetAssert {s : State} {rest : List Event} (hs : s.pending = .resetAssert :: rest) :
    step s = .next { s with phase := .inReset, pending := rest } := by
  rw [step_of_cons hs]
  rfl

theorem step_resetRelease {s : State} {rest : List Event} (hs : s.pending = .resetRelease :: rest) :
    step s = .next (if s.phase = .inReset then s.released rest else { s with pending := rest }) := by
  rw [step_of_cons hs, takeEvent, releaseReset]
  rfl

/-- STATUS with BUSY = 0, no tree, no end of a stream and no error: OVERRUN alone shows (R36). -/
theorem status_of_no_report {t : State} (hp : t.phase = .idle) (ht : t.tbs = .idle) (he : t.eos = false)
    (hs : t.sticky = false) (hr : t.err = .ok) : t.status = if t.overrun then 0x10 else 0 := by
  unfold State.status State.busy State.tv
  rw [hp, ht, he, hs, hr]
  cases t.overrun <;> decide

/-- Settles O53: the accesses during the clear set OVERRUN at most, and the engine's turn clears memories that are clear
already. -/
theorem resetSequence : Obligations.ResetSequence := by
  refine ⟨fun s rest => step_resetAssert, fun s rest hs => ⟨fun hp => ?_, fun hp => ⟨Config.freeWord s.draw, s.draw + 1, ?_⟩⟩,
    fun s during _ hp hd hs => ?_⟩
  · rw [step_resetRelease hs, if_neg hp]
  · rw [step_resetRelease hs, if_pos hp]
    rfl
  · have hpending : s.pending = .resetRelease :: (during ++ [.engineTurn]) := hs
    have hrelease : step s = .next (s.released (during ++ [.engineTurn])) := by rw [step_resetRelease hpending, if_pos hp]
    obtain ⟨reads, draw, overrun, hrun, ho⟩ := run_accesses_inProgress (s := s.released (during ++ [.engineTurn]))
      (.inr rfl) hd rfl
    have hturn : Sys2Proof.core.run 1 ((s.released (during ++ [.engineTurn])).accessed [.engineTurn] reads draw overrun)
        = .next ((s.released []).accessed [] reads draw overrun).completeClear := rfl
    have hover : overrun = true ↔ ∃ e ∈ during, writesOperand s.params e := ho.trans (or_iff_right Bool.false_ne_true)
    have hstatus : ((s.released []).accessed [] reads draw overrun).completeClear.status = if overrun then 0x10 else 0 :=
      status_of_no_report rfl rfl rfl rfl rfl
    refine ⟨_, (run_succ (M := Sys2Proof.core) hrelease _).trans ((run_add hrun 1).trans hturn), rfl, rfl, fun h => ?_,
      fun h => ?_, rfl, rfl, rfl, rfl, rfl, rfl, rfl, rfl, rfl, rfl, rfl, rfl, rfl, rfl, rfl, rfl, rfl⟩
    · rw [hstatus, if_pos (hover.2 h)]
    · have hnone : ¬ overrun = true := fun ht => by
        obtain ⟨e, he, hw⟩ := hover.1 ht
        exact h e he hw
      rw [hstatus, if_neg hnone]
end Sys2Proof.Machine

namespace Sys2Proof.Machine

/-! ## Progress and the end of a run (R262 to R264) -/

/-- An event that only lets time pass is taken, the reset input not asserted. -/
theorem step_wait {s : State} {e : Event} {rest : List Event} (h : Inv s) (hp : s.phase ≠ .inReset)
    (he : onlyWaits s.params e) (hs : s.pending = e :: rest) : ∃ t, step s = .next t ∧ t.phase ≠ .inReset := by
  rcases he with rfl | ⟨k, hk, rfl⟩
  · have hi : Inv { s with pending := rest } := h.of_contents (.of_interface ..) id
    obtain ⟨t, ht⟩ := engineTurn_completes hi
    have hidle : t.phase = .idle := (engineTurn_handshake ht).2.2 hp
    exact ⟨t, (step_of_cons hs).trans ht, by rw [hidle]; nofun⟩
  · refine ⟨_, step_read hp (by omega) (by omega) hs, ?_⟩
    rw [windowRead_phase]
    exact hp

/-- While the host only waits, the events are taken one by one and then the engine moves, with BUSY = 0 after it. -/
theorem run_of_onlyWaits {events : List Event} {s : State} (h : Inv s) (hp : s.phase ≠ .inReset)
    (he : ∀ e ∈ events, onlyWaits s.params e) (hs : s.pending = events) :
    ∃ t : State, Sys2Proof.core.run (events.length + 1) s = .next t ∧ t.busy = false ∧ t.pending = [] := by
  induction events generalizing s with
  | nil =>
    obtain ⟨t, ht⟩ := engineTurn_completes h
    obtain ⟨-, hpending, hphase⟩ := engineTurn_handshake ht
    have hstep : step s = .next t := (step_of_nil hs).trans ht
    exact ⟨t, run_succ (M := Sys2Proof.core) hstep 0, busy_eq_false_iff.2 (hphase hp), hpending.trans hs⟩
  | cons e rest ih =>
    obtain ⟨u, hu, hpu⟩ := step_wait h hp (he e List.mem_cons_self) hs
    obtain ⟨hparams, hpending, -⟩ := step_handshake hu
    obtain ⟨t, hrun, hend⟩ := ih (stepKeepsInvariant s u h hu) hpu
      (fun e' he' => hparams ▸ he e' (List.mem_cons_of_mem e he')) (by rw [hpending, hs]; rfl)
    exact ⟨t, (run_succ (M := Sys2Proof.core) hu _).trans hrun, hend⟩

/-- No command is pending and none is to come. -/
structure NoCommandLeft (s : State) : Prop where
  phase : s.phase ≠ .command
  writes : ∀ e ∈ s.pending, ¬ writesCommand s.params e

theorem NoCommandLeft.step {s t : State} (h : NoCommandLeft s) (hst : step s = .next t) : NoCommandLeft t := by
  obtain ⟨hparams, hpending, hphase⟩ := step_handshake hst
  constructor
  · cases hphase with
    | ended hidle => rw [hidle]; nofun
    | kept hkept => exact hkept ▸ h.phase
    | accepted w hw => exact absurd ⟨w, rfl⟩ (h.writes _ (List.mem_of_mem_head? hw))
    | reset _ _ _ hne => exact hne
  · rw [hparams, hpending]
    exact fun e he => h.writes e (List.mem_of_mem_tail he)

/-- A step takes an event, so it leaves no event of the reset input that was not there. -/
theorem step_resets {s t : State} (h : ∀ e ∈ s.pending, ¬ isReset e) (hst : step s = .next t) :
    ∀ e ∈ t.pending, ¬ isReset e := by
  rw [(step_handshake hst).2.1]
  exact fun e he => h e (List.mem_of_mem_tail he)

/-- BUSY = 0, and nothing is to come that sets BUSY. -/
structure StaysIdle (s : State) : Prop where
  idle : s.phase = .idle
  left : NoCommandLeft s
  resets : ∀ e ∈ s.pending, ¬ isReset e

theorem StaysIdle.step {s t : State} (h : StaysIdle s) (hst : step s = .next t) : StaysIdle t where
  idle := by
    cases (step_handshake hst).2.2 with
    | ended hidle => exact hidle
    | kept hkept => exact hkept.trans h.idle
    | accepted w hw => exact absurd ⟨w, rfl⟩ (h.left.writes _ (List.mem_of_mem_head? hw))
    | reset e he hreset => exact absurd hreset (h.resets e (List.mem_of_mem_head? he))
  left := h.left.step hst
  resets := step_resets h.resets hst

/-- At its last poll a host program has BUSY = 0 and writes no command any more (R264). -/
theorem State.lastPoll.noCommandLeft {s : State} (h : s.lastPoll) : NoCommandLeft s where
  phase := by rw [busy_eq_false_iff.1 h.ready]; nofun
  writes := by
    have hs := List.eq_cons_of_mem_head? h.next
    rw [hs]
    intro e he
    rcases List.mem_cons.1 he with rfl | he
    · rintro ⟨w, hw⟩
      cases hw
    · exact h.after e he

/-- Where a run has ended, no command is pending, and BUSY = 0 where the reset input was not used. -/
theorem State.runEnds.quiet {s t : State} {n : Nat} (h : s.runEnds n t) :
    t.phase ≠ .command ∧ ((∀ e ∈ s.pending, ¬ isReset e) → t.busy = false) := by
  obtain ⟨hrun, -, k, hk, u, hu, hpoll⟩ := h
  obtain ⟨m, rfl⟩ := Nat.exists_eq_add_of_lt hk
  rw [Nat.add_assoc, run_add hu] at hrun
  have hidle := busy_eq_false_iff.1 hpoll.ready
  have hleft := hpoll.noCommandLeft
  refine ⟨(run_induction (fun _ _ => NoCommandLeft.step) hleft hrun).phase, fun hr => busy_eq_false_iff.2 ?_⟩
  have hresets := run_induction (P := fun s : State => ∀ e ∈ s.pending, ¬ isReset e) (fun _ _ => step_resets) hr hu
  have hstays : StaysIdle u := ⟨hidle, hleft, hresets⟩
  exact (run_induction (fun _ _ => StaysIdle.step) hstays hrun).idle

/-- The WAIT loop up to its last read, while a command or the reset clear is in progress: the reads that find BUSY = 1, and
the engine's turn (R253). -/
theorem run_waitEvents {s : State} {k : Nat} (h : Inv s) (hp : s.inProgress) (hs : s.pending = waitEvents s.params k) :
    ∃ u : State, Sys2Proof.core.run (k + 1) s = .next u ∧ u.phase = .idle
      ∧ u.pending = [readEvent u.params .status] := by
  obtain ⟨reads, draw, overrun, hreads, -⟩ := run_accesses_inProgress hp
    (fun e he => .inl ⟨2, by decide, List.eq_of_mem_replicate he⟩) hs
  rw [List.length_replicate] at hreads
  have hinv : Inv (s.accessed [readEvent s.params .status] reads draw overrun) := h.of_contents (.of_interface ..) id
  obtain ⟨u, hu⟩ := engineTurn_completes hinv
  obtain ⟨hparams, hpending, hphase⟩ := engineTurn_handshake hu
  have hturn : Sys2Proof.core.step (s.accessed [.engineTurn, readEvent s.params .status] reads draw overrun) = .next u := hu
  refine ⟨u, (run_add hreads 1).trans (run_succ hturn 0), hphase hp.ne_inReset, ?_⟩
  rw [hpending, hparams]
  rfl

/-- A command written with BUSY = 0 and polled with any number of STATUS reads is a run that ends (R94, R253). -/
theorem runEnds_polled {s : State} {w : Word} {k : Nat} (h : Inv s) (hp : s.phase = .idle)
    (hs : s.pending = writeEvent s.params .cmd w :: waitEvents s.params k) : ∃ t, s.runEnds (k + 3) t := by
  have hwrite : step s = .next { s with cmdl := w, phase := .command, pending := waitEvents s.params k } :=
    (writesWhileIdle s 0 w _ hp rfl (by decide) hs).1 rfl
  obtain ⟨u, hwait, hidle, hpoll⟩ := run_waitEvents (stepKeepsInvariant _ _ h hwrite) (.inl rfl) rfl
  have hrun : Sys2Proof.core.run (k + 2) s = .next u := (run_succ (M := Sys2Proof.core) hwrite _).trans hwait
  have hlast := step_read_of_idle hidle rfl (by decide) hpoll
  refine ⟨_, (run_add hrun 1).trans (run_succ (M := Sys2Proof.core) hlast 0), rfl, k + 2, by omega, u, hrun,
    busy_eq_false_iff.2 hidle, ?_, ?_⟩ <;> rw [hpoll]
  · rfl
  · nofun

/-- Settles O54: each pending wait is taken and then the engine moves; after the last poll nothing sets BUSY; and a polled
command is written, waited for, performed and polled. -/
theorem busyEnds : Obligations.BusyEnds :=
  ⟨fun _ h hp he => run_of_onlyWaits h (State.inProgress.ne_inReset hp) he rfl, fun _ _ _ => State.runEnds.quiet,
    fun _ _ _ => runEnds_polled⟩
end Sys2Proof.Machine
